-- ==== Sys2Proof/Word.lean ====
section
/-! DEFINITION. The word types of LMX: the byte of the framebuffer and of a device register, the 16-bit wire word
(format W16, rule R101) and the 64-bit command word (format CMD64, rule R104). -/

namespace Sys2Proof

/-- A framebuffer cell or a device register: 8 bits (rules R11, R24, R33). -/
abbrev Byte := BitVec 8

/-- What one `send_word` shifts: 16 bits (rule R101). -/
abbrev WireWord := BitVec 16

/-- One word of the host's command stream: 64 bits (rules R104, R105). -/
abbrev CmdWord := BitVec 64

end Sys2Proof
end

