-- ==== Sys2Proof/Config.lean ====
section
/-! DEFINITION. The configuration of one LMX instance as data (rules R8, R21), the configuration the model's reset is
given, and the free values of the model: constants with no body, for what the spec says a model must not fix
(rule R36, 93_implementation_defined.md U8, U9, U18). -/

namespace Sys2Proof

/-- The parameters of the chained driver chips (rule R8, 92_eei_decisions.md D27): the register addresses and the data of
the startup and shutdown sequences (rules R194, R195). "LMX itself never generates them" (rule R52): only the
pseudo-commands and the display read-out use them. -/
structure DriverParams where
  /-- `REG_DECODE`. -/
  regDecode    : Nat
  /-- `REG_INTENSITY`. -/
  regIntensity : Nat
  /-- `REG_SCANLIMIT`. -/
  regScanlimit : Nat
  /-- `REG_SHUTDOWN`. -/
  regShutdown  : Nat
  /-- `REG_TEST`. -/
  regTest      : Nat
  /-- The data that disables test mode. -/
  testOff      : Nat
  /-- The data that leaves shutdown mode. -/
  operate      : Nat
  /-- The data that sets the scan limit to all eight rows. -/
  scanAll      : Nat
  /-- The data that disables BCD decode. -/
  decodeOff    : Nat
  /-- The data that enters shutdown mode. -/
  shutdownOn   : Nat
  deriving DecidableEq, Repr

/-- The spec's values for these parameters, PRESUMED: "from general knowledge, not in source" (rules R8, R194, R195,
93_implementation_defined.md G2; log 7). -/
def DriverParams.presumed : DriverParams :=
  { regDecode := 9, regIntensity := 10, regScanlimit := 11, regShutdown := 12, regTest := 15,
    testOff := 0, operate := 1, scanAll := 7, decodeOff := 0, shutdownOn := 0 }

/-- The five registers are different ones among 9 to 15, the addresses the source leaves open (rule R52), and every data
value is a byte. A premise of the claims about INIT (log 7); no rule checks it. -/
def DriverParams.wellFormed (p : DriverParams) : Bool :=
  [p.regDecode, p.regIntensity, p.regScanlimit, p.regShutdown, p.regTest].all (fun a => decide (9 ≤ a ∧ a ≤ 15))
    && decide [p.regDecode, p.regIntensity, p.regScanlimit, p.regShutdown, p.regTest].Nodup
    && [p.testOff, p.operate, p.scanAll, p.decodeOff, p.shutdownOn].all (fun v => decide (v ≤ 255))

/-- What is offered at reset (rules R22, R23): a table that is `none` was "not provided". -/
structure Offered where
  columns    : Int
  rows       : Int
  chainOrder : Option (List Int)
  rotated    : Option (List Bool)
  intensity0 : Int
  /-- The driver parameters of rule R8, the spec's values unless others are offered. -/
  driver     : DriverParams := DriverParams.presumed
  deriving DecidableEq, Repr

/-- `CFG` (rule R21): the configuration after the two normalisations of rule R23. No command writes any of it
(rule R9). The numbers are integers, as offered, so that rule R22 can be asked of them. -/
structure Cfg where
  columns       : Int
  rows          : Int
  chainOrder    : List Int
  rotated       : List Bool
  intensity0    : Int
  /-- rule R8: false when `chain_order` or `rotated` was not provided. -/
  tablesPresent : Bool
  /-- rule R8: the parameters of the chained driver chips, as offered. -/
  driver        : DriverParams := DriverParams.presumed
  deriving DecidableEq, Repr

/-- DESIGN CHOICE (log 1): the configuration offered to `State.reset`. Both tables are "not provided", so rule R23
makes it the one default configuration the spec names, 1×1, `chain_order = [0]`, `rotated = [false]`.
The driver parameters offered are the presumed ones of log 7.
`State.resetWith` is reset for any offered configuration. -/
def Config.offered0 : Offered :=
  { columns := 1, rows := 1, chainOrder := none, rotated := none, intensity0 := 0 }

/-- Free value (log 2; rule R36, U8): the level of SEL before its first write. -/
opaque Config.powerOnSel : Bool
/-- Free value (log 2; rule R36, U8): the level of CLK before its first write. -/
opaque Config.powerOnClk : Bool
/-- Free value (log 2; rule R36, U8): the level of DATA before its first write. -/
opaque Config.powerOnData : Bool
/-- Free value (log 3; rule R36, U9): the shift register of device `k` at power-on. -/
opaque Config.powerOnShift : Nat → WireWord
/-- Free value (log 3; rule R36, U9): register `a` of device `k` at power-on. -/
opaque Config.powerOnRegister : Nat → Nat → Byte
/-- Free value (log 4; rule R71, U18): what the LED at row `r`, column `b` of device `k` shows at time `t` while that
device is not in normal operation; `t` counts the line writes made so far. -/
opaque Config.ledOutsideNormal (k r b t : Nat) : Bool

end Sys2Proof
end

