-- ==== Sys2Proof/Machine/Configure.lean ====
section
/-! DEFINITION. The configuration at work: the numbers derived from it, its normalisation and validity at reset
(rules R8, R21 to R23), and the two table lookups (rules R82, R83). DESIGN CHOICE (log 21): the numbers and the lookups
answer for a configuration that rule R22 rejects too, a negative count taken as 0; rule R111 has no `N` there. -/

namespace Sys2Proof

/-- `C`, the module columns of the tiling (rule R8). -/
def Cfg.c (cfg : Cfg) : Nat := cfg.columns.toNat

/-- `R`, the module rows of the tiling (rule R8). -/
def Cfg.r (cfg : Cfg) : Nat := cfg.rows.toNat

/-- `N = C * R`, the module count (rule R8). For a rejected configuration, where rule R111 has no `N`: log 21. -/
def Cfg.n (cfg : Cfg) : Nat := cfg.c * cfg.r

/-- `W = 8 * C`, the pixel width of the display (rule R8). -/
def Cfg.w (cfg : Cfg) : Nat := 8 * cfg.c

/-- `H = 8 * R`, the pixel height of the display (rule R8). -/
def Cfg.h (cfg : Cfg) : Nat := 8 * cfg.r

/-- `clamp(v, lo, hi)`: saturation, never wrap-around (rule R10). -/
def clamp (v lo hi : Int) : Int := if v < lo then lo else if hi < v then hi else v

/-- The two normalisations of rule R23: without both tables the configuration is 1×1 and unrotated, whatever
`columns` and `rows` were offered; the initial intensity saturates to `0..15`. -/
def Offered.normalise (o : Offered) : Cfg :=
  match o.chainOrder, o.rotated with
  | some order, some rot =>
    { columns := o.columns, rows := o.rows, chainOrder := order, rotated := rot,
      intensity0 := clamp o.intensity0 0 15, tablesPresent := true, driver := o.driver }
  | _, _ =>
    { columns := 1, rows := 1, chainOrder := [0], rotated := [false],
      intensity0 := clamp o.intensity0 0 15, tablesPresent := false, driver := o.driver }

/-- Configuration validity (rule R22): both counts at least 1, both tables of length `columns * rows`, every entry of
`chain_order` in `0..N-1` and no two of them equal. -/
def Cfg.valid (cfg : Cfg) : Bool :=
  decide (1 ≤ cfg.columns) && decide (1 ≤ cfg.rows)
    && decide ((cfg.chainOrder.length : Int) = cfg.columns * cfg.rows)
    && decide ((cfg.rotated.length : Int) = cfg.columns * cfg.rows)
    && cfg.chainOrder.all (fun v => decide (0 ≤ v) && decide (v < cfg.columns * cfg.rows))
    && decide cfg.chainOrder.Nodup

/-- `CFG.chain_order[L]` (rule R83): the chain index of logical module `L`; `none` where the table has no such entry
or the entry is no chain index, which rule R22 excludes. -/
def Cfg.chainAt (cfg : Cfg) (l : Nat) : Option Nat :=
  match cfg.chainOrder[l]? with
  | some v => if 0 ≤ v ∧ v < (cfg.n : Int) then some v.toNat else none
  | none => none

/-- `CFG.rotated[L]` (rule R83), indexed by the logical position. -/
def Cfg.rotatedAt (cfg : Cfg) (l : Nat) : Option Bool := cfg.rotated[l]?

/-- `chain_order_inv[m]` (rule R83): the logical position of chain index `m`. -/
def Cfg.chainInv (cfg : Cfg) (m : Nat) : Option Nat := cfg.chainOrder.findIdx? (fun v => decide (v = (m : Int)))

end Sys2Proof
end

