-- ==== Sys2Proof/Syntax.lean ====
section
/-! DEFINITION. The instructions: the twelve abstract commands of rule R116, whose operands are integers (unbounded at
that level), and the sixteen wire words of rule R102, each with its four ignored padding bits and its data byte. One
constructor per row of spec/opcode_table.json. -/

namespace Sys2Proof

/-- The order in which `send_row` reads its byte (rules R107, R133). -/
inductive BitOrder where
  /-- "MSB-first", `s = 0`. -/
  | normal
  /-- "LSB-first", `s = 1`. -/
  | reversed
  deriving DecidableEq, Repr

inductive Instr where
  /-- BEGIN, `begin_transfer()` (rule R131). -/
  | beginTransfer
  /-- SENDW, `send_word(address, data)` (rule R132). -/
  | sendWord (address data : Int)
  /-- SENDR, `send_row(address, row_bits, bit_order)` (rule R133). -/
  | sendRow (address rowBits : Int) (order : BitOrder)
  /-- END, `end_transfer()` (rule R134). -/
  | endTransfer
  /-- FLUSH, `flush()` (rule R150). -/
  | flush
  /-- SETPX, `set_pixel(x, y, on)` (rule R161). -/
  | setPixel (x y : Int) (on : Bool)
  /-- INVPX, `invert_pixel(x, y)` (rule R162). -/
  | invertPixel (x y : Int)
  /-- GETPX, the pixel state query (rule R163). -/
  | getPixel (x y : Int)
  /-- CLRD, `clear_display(state)` (rule R164). -/
  | clearDisplay (state : Bool)
  /-- CLRM, `clear_module(module_index, state)` (rule R165). -/
  | clearModule (moduleIndex : Int) (state : Bool)
  /-- SETMR, `set_module_rows(module_index, eight_bytes)` (rule R166). -/
  | setModuleRows (moduleIndex : Int) (rows : List Byte)
  /-- SETDR, `set_display_rows(bytes)` (rule R167). -/
  | setDisplayRows (rows : List Byte)
  /-- W.NOOP, wire address 0 (rules R68, R114). -/
  | wNoop (pad : BitVec 4) (data : Byte)
  /-- W.ROW0, wire address 1 (rule R102). -/
  | wRow0 (pad : BitVec 4) (data : Byte)
  /-- W.ROW1, wire address 2 (rule R102). -/
  | wRow1 (pad : BitVec 4) (data : Byte)
  /-- W.ROW2, wire address 3 (rule R102). -/
  | wRow2 (pad : BitVec 4) (data : Byte)
  /-- W.ROW3, wire address 4 (rule R102). -/
  | wRow3 (pad : BitVec 4) (data : Byte)
  /-- W.ROW4, wire address 5 (rule R102). -/
  | wRow4 (pad : BitVec 4) (data : Byte)
  /-- W.ROW5, wire address 6 (rule R102). -/
  | wRow5 (pad : BitVec 4) (data : Byte)
  /-- W.ROW6, wire address 7 (rule R102). -/
  | wRow6 (pad : BitVec 4) (data : Byte)
  /-- W.ROW7, wire address 8 (rule R102). -/
  | wRow7 (pad : BitVec 4) (data : Byte)
  /-- W.DECODE, wire address 9 (rule R102). -/
  | wDecode (pad : BitVec 4) (data : Byte)
  /-- W.INTENSITY, wire address 10 (rule R102). -/
  | wIntensity (pad : BitVec 4) (data : Byte)
  /-- W.SCANLIMIT, wire address 11 (rule R102). -/
  | wScanlimit (pad : BitVec 4) (data : Byte)
  /-- W.SHUTDOWN, wire address 12 (rule R102). -/
  | wShutdown (pad : BitVec 4) (data : Byte)
  /-- W.RSVD13, wire address 13: storage with no meaning in any source (rule R102). -/
  | wRsvd13 (pad : BitVec 4) (data : Byte)
  /-- W.RSVD14, wire address 14: storage with no meaning in any source (rule R102). -/
  | wRsvd14 (pad : BitVec 4) (data : Byte)
  /-- W.TEST, wire address 15 (rule R102). -/
  | wTest (pad : BitVec 4) (data : Byte)
  deriving DecidableEq, Repr

end Sys2Proof
end

