-- ==== Sys2Proof/WellFormed.lean ====
section
/-! DEFINITION. Well-formedness of an instruction: at the abstract level only the number of bytes SETMR and SETDR
carry (rule R116); for CMD64 also that every integer operand fits its 16-bit two's complement field (rules R108, R109). -/

namespace Sys2Proof

/-- The operand has a 16-bit two's complement encoding (rule R108). -/
def fits16 (v : Int) : Bool := decide (-32768 ≤ v) && decide (v ≤ 32767)

/-- The abstract command exists on an instance with `n` modules: "SETMR carries exactly 8 bytes and SETDR exactly
`8 * N`" (rule R116). -/
def Instr.wellBuilt (n : Nat) : Instr → Bool
  | .setModuleRows _ rows => rows.length == 8
  | .setDisplayRows rows => rows.length == 8 * n
  | .beginTransfer | .sendWord _ _ | .sendRow _ _ _ | .endTransfer | .flush | .setPixel _ _ _ | .invertPixel _ _
  | .getPixel _ _ | .clearDisplay _ | .clearModule _ _ => true
  | .wNoop _ _ | .wRow0 _ _ | .wRow1 _ _ | .wRow2 _ _ | .wRow3 _ _ | .wRow4 _ _ | .wRow5 _ _ | .wRow6 _ _
  | .wRow7 _ _ | .wDecode _ _ | .wIntensity _ _ | .wScanlimit _ _ | .wShutdown _ _ | .wRsvd13 _ _ | .wRsvd14 _ _
  | .wTest _ _ => true

/-- Every integer operand fits its field (rule R116: such a command "has exactly one `CMD64` encoding"). -/
def Instr.encodable : Instr → Bool
  | .sendWord address data => fits16 address && fits16 data
  | .sendRow address rowBits _ => fits16 address && fits16 rowBits
  | .setPixel x y _ => fits16 x && fits16 y
  | .invertPixel x y => fits16 x && fits16 y
  | .getPixel x y => fits16 x && fits16 y
  | .clearModule moduleIndex _ => fits16 moduleIndex
  | .setModuleRows moduleIndex _ => fits16 moduleIndex
  | .beginTransfer | .endTransfer | .flush | .clearDisplay _ | .setDisplayRows _ => true
  | .wNoop _ _ | .wRow0 _ _ | .wRow1 _ _ | .wRow2 _ _ | .wRow3 _ _ | .wRow4 _ _ | .wRow5 _ _ | .wRow6 _ _
  | .wRow7 _ _ | .wDecode _ _ | .wIntensity _ _ | .wScanlimit _ _ | .wShutdown _ _ | .wRsvd13 _ _ | .wRsvd14 _ _
  | .wTest _ _ => true

/-- The instruction can be written as words on an instance with `n` modules. -/
def Instr.wellFormed (n : Nat) (i : Instr) : Bool := i.wellBuilt n && i.encodable

end Sys2Proof
end

