-- ==== Sys2Proof/Decode.lean ====
section
/-! DEFINITION. Decoding and encoding. CMD64: the header's fields (rule R104), the opcode map (rule R106), illegal words
(rules R110, R113), the payload words (rules R111, R112). W16: the wire word's fields and address map (rules R101,
R102). The encoder is written from the same tables. -/

namespace Sys2Proof

/-- The fields of a command header (rule R104). -/
structure Header where
  op : BitVec 8
  mz : BitVec 7
  s  : Bool
  a  : BitVec 16
  b  : BitVec 16
  cz : BitVec 16
  deriving DecidableEq, Repr

/-- Why a header word is illegal (rule R113). -/
inductive IllegalReason where
  /-- `op` is not one of the twelve values of rule R106. -/
  | unknownOpcode
  /-- `mz` or `cz` is not zero. -/
  | mustBeZero
  /-- A field that rule R106 marks "0" for this command is not zero. -/
  | unusedField
  deriving DecidableEq, Repr

/-- What the decoder finds at the front of the command stream. -/
inductive Decoded where
  /-- A legal command, and the words after it. -/
  | command (i : Instr) (rest : List CmdWord)
  /-- An illegal word; it and the payload its `op` calls for are consumed (rules R111, R217). -/
  | illegal (why : IllegalReason) (rest : List CmdWord)
  /-- The host has not presented the whole command yet. -/
  | incomplete
  deriving DecidableEq, Repr

/-- The words of one instruction: a header with its payload on the command stream, or one wire word. -/
inductive Code where
  | cmd64 (words : List CmdWord)
  | w16 (word : WireWord)
  deriving DecidableEq, Repr

/-- Bits 63:56, 55:49, 48, 47:32, 31:16 and 15:0 of a header (rule R104). -/
def Header.ofWord (w : CmdWord) : Header :=
  { op := w.extractLsb' 56 8, mz := w.extractLsb' 49 7, s := w.getLsbD 48,
    a := w.extractLsb' 32 16, b := w.extractLsb' 16 16, cz := w.extractLsb' 0 16 }

/-- The header word with these fields (rule R104). -/
def Header.toWord (h : Header) : CmdWord :=
  h.op ++ h.mz ++ BitVec.ofBool h.s ++ h.a ++ h.b ++ h.cz

/-- The command `i`, if every must-be-zero field is zero; `useS`, `useA`, `useB` say which fields rule R106 gives the
command (rules R110, R113). -/
def Header.accept (h : Header) (useS useA useB : Bool) (i : Instr) : Except IllegalReason Instr :=
  if h.mz ≠ 0 ∨ h.cz ≠ 0 then .error .mustBeZero
  else if (!useS && h.s) || (!useA && h.a != 0) || (!useB && h.b != 0) then .error .unusedField
  else .ok i

/-- `bit_order` from the modifier bit (rule R107). -/
def BitOrder.ofBit (s : Bool) : BitOrder := if s then .reversed else .normal

/-- The modifier bit of a `bit_order` (rule R107). -/
def BitOrder.toBit : BitOrder → Bool
  | .normal => false
  | .reversed => true

/-- The eight row bytes of a payload word: `B[j] = p[8j+7 : 8j]` (rule R112). -/
def payloadBytes (p : CmdWord) : List Byte :=
  [p.extractLsb' 0 8, p.extractLsb' 8 8, p.extractLsb' 16 8, p.extractLsb' 24 8,
   p.extractLsb' 32 8, p.extractLsb' 40 8, p.extractLsb' 48 8, p.extractLsb' 56 8]

/-- The payload words that carry these row bytes, eight to a word, row 0 in the least significant byte (rule R112).
DESIGN CHOICE (log 20): bytes left over after the last whole eight are dropped; no well-formed command has any. -/
def packRows : List Byte → List CmdWord
  | b0 :: b1 :: b2 :: b3 :: b4 :: b5 :: b6 :: b7 :: rest =>
    (b7 ++ b6 ++ b5 ++ b4 ++ b3 ++ b2 ++ b1 ++ b0 : CmdWord) :: packRows rest
  | _ => []

/-- `plen`: the payload words a header's `op` calls for on an instance with `n` modules (rule R111). -/
def payloadWords (n : Nat) (op : BitVec 8) : Nat :=
  if op = 0x1A#8 then 1 else if op = 0x1B#8 then n else 0

/-- The opcode map (rule R106) with the operands of rule R108 and the payload of rule R112. -/
def decodeHeader (h : Header) (payload : List CmdWord) : Except IllegalReason Instr :=
  match h.op.toNat with
  | 0x01 => h.accept false false false .beginTransfer
  | 0x02 => h.accept false true true (.sendWord h.a.toInt h.b.toInt)
  | 0x03 => h.accept true true true (.sendRow h.a.toInt h.b.toInt (BitOrder.ofBit h.s))
  | 0x04 => h.accept false false false .endTransfer
  | 0x08 => h.accept false false false .flush
  | 0x10 => h.accept true true true (.setPixel h.a.toInt h.b.toInt h.s)
  | 0x11 => h.accept false true true (.invertPixel h.a.toInt h.b.toInt)
  | 0x12 => h.accept false true true (.getPixel h.a.toInt h.b.toInt)
  | 0x18 => h.accept true false false (.clearDisplay h.s)
  | 0x19 => h.accept true true false (.clearModule h.a.toInt h.s)
  | 0x1A => h.accept false true false (.setModuleRows h.a.toInt (payload.flatMap payloadBytes))
  | 0x1B => h.accept false false false (.setDisplayRows (payload.flatMap payloadBytes))
  | _ => .error .unknownOpcode

/-- The command at the front of the stream, for an instance with `n` modules (rules R110, R111). -/
def decode (n : Nat) : List CmdWord → Decoded
  | [] => .incomplete
  | w :: rest =>
    let h := Header.ofWord w
    let plen := payloadWords n h.op
    if rest.length < plen then .incomplete
    else
      match decodeHeader h (rest.take plen) with
      | .ok i => .command i (rest.drop plen)
      | .error why => .illegal why (rest.drop plen)

/-- The wire word as a device reads it: bits 15:12 ignored, 11:8 the address, 7:0 the data (rules R68, R101, R102).
Every word is one of the sixteen. -/
def decodeWire (w : WireWord) : Instr :=
  let pad := w.extractLsb' 12 4
  let data := w.extractLsb' 0 8
  match (w.extractLsb' 8 4).toNat with
  | 0 => .wNoop pad data
  | 1 => .wRow0 pad data
  | 2 => .wRow1 pad data
  | 3 => .wRow2 pad data
  | 4 => .wRow3 pad data
  | 5 => .wRow4 pad data
  | 6 => .wRow5 pad data
  | 7 => .wRow6 pad data
  | 8 => .wRow7 pad data
  | 9 => .wDecode pad data
  | 10 => .wIntensity pad data
  | 11 => .wScanlimit pad data
  | 12 => .wShutdown pad data
  | 13 => .wRsvd13 pad data
  | 14 => .wRsvd14 pad data
  | _ => .wTest pad data

/-- Decoding of a whole code: `none` where the words are not exactly one legal instruction. -/
def decodeCode (n : Nat) : Code → Option Instr
  | .w16 w => some (decodeWire w)
  | .cmd64 ws =>
    match decode n ws with
    | .command i [] => some i
    | _ => none

/-! The encoder. -/

/-- The wire word `pad ## addr ## data` (rule R101). -/
def wireCode (pad addr : BitVec 4) (data : Byte) : WireWord := pad ++ addr ++ data

/-- A header with the two must-be-zero fields zero (rule R104) and these operands (rule R108). DESIGN CHOICE (log 20): an
operand outside `-32768..32767`, which has no encoding (rule R116), is taken modulo `2^16`. -/
def headerCode (op : BitVec 8) (s : Bool) (a b : Int) : CmdWord :=
  Header.toWord { op := op, mz := 0, s := s, a := BitVec.ofInt 16 a, b := BitVec.ofInt 16 b, cz := 0 }

/-- The words of an instruction (rules R102, R106, R112). Rule R116 gives an encoding only to the well-formed ones
(`Instr.wellFormed`); that this function answers for the others too is a DESIGN CHOICE (log 20). -/
def encode : Instr → Code
  | .beginTransfer => .cmd64 [headerCode 0x01#8 false 0 0]
  | .sendWord address data => .cmd64 [headerCode 0x02#8 false address data]
  | .sendRow address rowBits order => .cmd64 [headerCode 0x03#8 order.toBit address rowBits]
  | .endTransfer => .cmd64 [headerCode 0x04#8 false 0 0]
  | .flush => .cmd64 [headerCode 0x08#8 false 0 0]
  | .setPixel x y on => .cmd64 [headerCode 0x10#8 on x y]
  | .invertPixel x y => .cmd64 [headerCode 0x11#8 false x y]
  | .getPixel x y => .cmd64 [headerCode 0x12#8 false x y]
  | .clearDisplay state => .cmd64 [headerCode 0x18#8 state 0 0]
  | .clearModule moduleIndex state => .cmd64 [headerCode 0x19#8 state moduleIndex 0]
  | .setModuleRows moduleIndex rows => .cmd64 (headerCode 0x1A#8 false moduleIndex 0 :: packRows rows)
  | .setDisplayRows rows => .cmd64 (headerCode 0x1B#8 false 0 0 :: packRows rows)
  | .wNoop pad data => .w16 (wireCode pad 0 data)
  | .wRow0 pad data => .w16 (wireCode pad 1 data)
  | .wRow1 pad data => .w16 (wireCode pad 2 data)
  | .wRow2 pad data => .w16 (wireCode pad 3 data)
  | .wRow3 pad data => .w16 (wireCode pad 4 data)
  | .wRow4 pad data => .w16 (wireCode pad 5 data)
  | .wRow5 pad data => .w16 (wireCode pad 6 data)
  | .wRow6 pad data => .w16 (wireCode pad 7 data)
  | .wRow7 pad data => .w16 (wireCode pad 8 data)
  | .wDecode pad data => .w16 (wireCode pad 9 data)
  | .wIntensity pad data => .w16 (wireCode pad 10 data)
  | .wScanlimit pad data => .w16 (wireCode pad 11 data)
  | .wShutdown pad data => .w16 (wireCode pad 12 data)
  | .wRsvd13 pad data => .w16 (wireCode pad 13 data)
  | .wRsvd14 pad data => .w16 (wireCode pad 14 data)
  | .wTest pad data => .w16 (wireCode pad 15 data)

/-! The opcode table's numbering: bit 0 is the least significant bit of the first word, a later word's bits count on. -/

/-- The command words of a CMD64 row given as one number: its header and the payload its `op` calls for. -/
def tableWords (n w : Nat) : List CmdWord :=
  let header : CmdWord := BitVec.ofNat 64 w
  header :: (List.range (payloadWords n (Header.ofWord header).op)).map
    (fun i => BitVec.ofNat 64 (w / 2 ^ (64 * (i + 1))))

/-- The instruction the decoder reads from a row's bits: a row of at most 16 bits is a wire word, any other a command
of the reset configuration (whose module count SETDR's payload needs). -/
def decodeTableWord (nbits w : Nat) : Option Instr :=
  if nbits ≤ 16 then decodeCode Config.offered0.normalise.n (.w16 (BitVec.ofNat 16 w))
  else decodeCode Config.offered0.normalise.n (.cmd64 (tableWords Config.offered0.normalise.n w))

end Sys2Proof
end

