-- ==== Sys2Proof/Machine/State.lean ====
section
/-! DEFINITION. The state of the machine (rule R20): `CFG`, `ST`, `FB`, `LINE`, `FAULT`, the write trace `TRACE` (rule
R30), the chained devices `ENV` (rule R33), and the two ends of the host interface (rule R105); the reasons a step can
stop; and reset (rules R35, R36, R240). -/

namespace Sys2Proof.Machine

/-- `ST` (rule R26). -/
inductive BusState where
  /-- The configuration offered at reset was invalid; every command is refused. -/
  | configError
  /-- No bracket is open. -/
  | idle
  /-- Between BEGIN and END. -/
  | transferring
  deriving DecidableEq, Repr

/-- The three output lines (rule R27). -/
inductive Line where
  | sel
  | clk
  | data
  deriving DecidableEq, Repr

/-- `LINE`: the levels of the three lines, `true` for 1 (rule R27). -/
structure Lines where
  sel  : Bool
  clk  : Bool
  data : Bool
  deriving DecidableEq, Repr

/-- One entry of `TRACE`: a write of `level` to `line` (rule R30). -/
structure Event where
  line  : Line
  level : Bool
  deriving DecidableEq, Repr

/-- Which of the registers 9 to 15 of a device a latch has written since power-on, named as in rule R102. The model's
own record, not the spec's state (log 4): rule R36 lets a claim about the display rest only on registers LMX has
written, and rule R243 (2) lets rule R71 hold only once the startup sequence has written its five, which rule R8's
parameters place among these. No command reads it. -/
structure ControlsWritten where
  decode    : Bool
  intensity : Bool
  scanlimit : Bool
  shutdown  : Bool
  rsvd13    : Bool
  rsvd14    : Bool
  test      : Bool
  deriving DecidableEq, Repr

/-- No control register written: every device at power-on. -/
def ControlsWritten.none : ControlsWritten :=
  { decode := false, intensity := false, scanlimit := false, shutdown := false, rsvd13 := false, rsvd14 := false,
    test := false }

/-- One chained device (rule R33): its shift register `SR` and its registers `REG[1..15]`, named as in rule R102.
Address 0 has no register. -/
structure Device where
  /-- `SR[k]`. -/
  sr        : WireWord
  /-- `REG[k][1]` to `REG[k][8]`, the row registers. -/
  row0      : Byte
  row1      : Byte
  row2      : Byte
  row3      : Byte
  row4      : Byte
  row5      : Byte
  row6      : Byte
  row7      : Byte
  /-- `REG[k][9]`. -/
  decode    : Byte
  /-- `REG[k][10]`. -/
  intensity : Byte
  /-- `REG[k][11]`. -/
  scanlimit : Byte
  /-- `REG[k][12]`. -/
  shutdown  : Byte
  /-- `REG[k][13]`. -/
  rsvd13    : Byte
  /-- `REG[k][14]`. -/
  rsvd14    : Byte
  /-- `REG[k][15]`. -/
  test      : Byte
  /-- Which of the registers 9 to 15 have been written since power-on (log 4). -/
  written   : ControlsWritten
  deriving DecidableEq, Repr

/-- The causes of a rejected command (rule R211). LMX goes on after every one of them (rule R221): they are no stops of
the model. -/
inductive FaultCode where
  | configInvalid
  | illegalCommand
  | busState
  | coordRange
  | moduleRange
  deriving DecidableEq, Repr

/-- A response (rule R16). -/
inductive Response where
  | ok
  | val (bit : Bool)
  | err (code : FaultCode)
  deriving DecidableEq, Repr

/-- The framebuffer as cells `(8*m + r, byte)` (rules R12, R51): addresses strictly rising and no cell 0x00, which is
what an address not listed reads as (rule R35). -/
abbrev Memory := List Host.Cell

structure State where
  /-- `CFG` (rule R21). -/
  cfg       : Cfg
  /-- `ST` (rule R26). -/
  st        : BusState
  /-- `FB` (rule R24). -/
  fb        : Memory
  /-- `LINE` (rule R27). -/
  line      : Lines
  /-- `FAULT` (rule R28). -/
  fault     : BitVec 8
  /-- `TRACE`, in time order (rule R30). -/
  trace     : List Event
  /-- `ENV`, device `k` at place `k` (rules R33, R66). -/
  chain     : List Device
  /-- The host's words not yet taken, in stream order (rule R105). -/
  input     : List CmdWord
  /-- The responses given since reset, in time order, one per command (rules R16, R105). -/
  responses : List Response
  deriving DecidableEq, Repr

/-- Reasons for which the machine stops. -/
inductive Fault where
  /-- Raised by the translation of SETPX, INVPX, GETPX, CLRM, SETMR and SETDR when a table of `CFG` has no entry for a
  module the range check let through, or the entry is no chain index, so that the framebuffer cell would not exist.
  Safe: it needs a `CFG` that rule R22 excludes; with a valid one "the translation cannot fault" (rule R91; log 10). -/
  | noFramebufferCell
  deriving DecidableEq, Repr

/-- Reasons for which an instruction has no meaning. -/
inductive Refusal where
  /-- Answered by exec's arm of an instruction that is not modelled yet. Safe. No arm does now. -/
  | notModelled (mnemonic : String)
  /-- Answered by SETMR with a list that is not 8 bytes long and by SETDR with one that is not `8 * N` bytes long: "a
  command that is not well-formed does not exist (a model refuses to build it)" (rule R116). Safe: the decoder never
  builds one (log 11). -/
  | malformedCommand
  deriving DecidableEq, Repr

/-- What running an instruction answers. -/
abbrev Result := Host.Outcome State Fault Refusal

/-- Device `k` at power-on: every register an unspecified value (rule R36), and nothing written yet. -/
def Device.powerOn (k : Nat) : Device :=
  { sr := Config.powerOnShift k
    row0 := Config.powerOnRegister k 1
    row1 := Config.powerOnRegister k 2
    row2 := Config.powerOnRegister k 3
    row3 := Config.powerOnRegister k 4
    row4 := Config.powerOnRegister k 5
    row5 := Config.powerOnRegister k 6
    row6 := Config.powerOnRegister k 7
    row7 := Config.powerOnRegister k 8
    decode := Config.powerOnRegister k 9
    intensity := Config.powerOnRegister k 10
    scanlimit := Config.powerOnRegister k 11
    shutdown := Config.powerOnRegister k 12
    rsvd13 := Config.powerOnRegister k 13
    rsvd14 := Config.powerOnRegister k 14
    test := Config.powerOnRegister k 15
    written := ControlsWritten.none }

/-- `LINES0`: the levels before the first write, unspecified (rules R8, R36). -/
def Lines.powerOn : Lines :=
  { sel := Config.powerOnSel, clk := Config.powerOnClk, data := Config.powerOnData }

/-- Reset with an offered configuration (rules R35, R240): normalise, check, and start `Idle` with a zeroed
framebuffer, or `ConfigError` with none (logs 12 and 21). Exactly `N` devices hang on the chain (rule R66); reset writes no
line. -/
def State.resetWith (o : Offered) : State :=
  let cfg := o.normalise
  if cfg.valid then
    { cfg := cfg, st := .idle, fb := [], line := Lines.powerOn, fault := 0, trace := [],
      chain := (List.range cfg.n).map Device.powerOn, input := [], responses := [] }
  else
    { cfg := cfg, st := .configError, fb := [], line := Lines.powerOn, fault := 1, trace := [],
      chain := [], input := [], responses := [] }

/-- The machine right after reset, with the configuration of log 1. -/
def State.reset : State := State.resetWith Config.offered0

end Sys2Proof.Machine
end

