-- ==== Sys2Proof/Machine/Device.lean ====
section
/-! DEFINITION. A chained device (rules R33, R66 to R68): what each wire word does when the device commits it, the
commit itself, the shift of the whole chain, and the register file by address. -/

namespace Sys2Proof.Machine

/-- W.NOOP at commit: nothing changes and the data is ignored (rules R68, R102). -/
def Device.commitNoop (_pad : BitVec 4) (_data : Byte) (d : Device) : Device := d
/-- W.ROW0 at commit: `REG[k][1] <- data` (rule R102). -/
def Device.commitRow0 (_pad : BitVec 4) (data : Byte) (d : Device) : Device := { d with row0 := data }
/-- W.ROW1 at commit: `REG[k][2] <- data` (rule R102). -/
def Device.commitRow1 (_pad : BitVec 4) (data : Byte) (d : Device) : Device := { d with row1 := data }
/-- W.ROW2 at commit: `REG[k][3] <- data` (rule R102). -/
def Device.commitRow2 (_pad : BitVec 4) (data : Byte) (d : Device) : Device := { d with row2 := data }
/-- W.ROW3 at commit: `REG[k][4] <- data` (rule R102). -/
def Device.commitRow3 (_pad : BitVec 4) (data : Byte) (d : Device) : Device := { d with row3 := data }
/-- W.ROW4 at commit: `REG[k][5] <- data` (rule R102). -/
def Device.commitRow4 (_pad : BitVec 4) (data : Byte) (d : Device) : Device := { d with row4 := data }
/-- W.ROW5 at commit: `REG[k][6] <- data` (rule R102). -/
def Device.commitRow5 (_pad : BitVec 4) (data : Byte) (d : Device) : Device := { d with row5 := data }
/-- W.ROW6 at commit: `REG[k][7] <- data` (rule R102). -/
def Device.commitRow6 (_pad : BitVec 4) (data : Byte) (d : Device) : Device := { d with row6 := data }
/-- W.ROW7 at commit: `REG[k][8] <- data` (rule R102). -/
def Device.commitRow7 (_pad : BitVec 4) (data : Byte) (d : Device) : Device := { d with row7 := data }
/-- W.DECODE at commit: `REG[k][9] <- data` (rule R102), and the register has been written (log 4). -/
def Device.commitDecode (_pad : BitVec 4) (data : Byte) (d : Device) : Device :=
  { d with decode := data, written := { d.written with decode := true } }
/-- W.INTENSITY at commit: `REG[k][10] <- data` (rule R102), and the register has been written (log 4). -/
def Device.commitIntensity (_pad : BitVec 4) (data : Byte) (d : Device) : Device :=
  { d with intensity := data, written := { d.written with intensity := true } }
/-- W.SCANLIMIT at commit: `REG[k][11] <- data` (rule R102), and the register has been written (log 4). -/
def Device.commitScanlimit (_pad : BitVec 4) (data : Byte) (d : Device) : Device :=
  { d with scanlimit := data, written := { d.written with scanlimit := true } }
/-- W.SHUTDOWN at commit: `REG[k][12] <- data` (rule R102), and the register has been written (log 4). -/
def Device.commitShutdown (_pad : BitVec 4) (data : Byte) (d : Device) : Device :=
  { d with shutdown := data, written := { d.written with shutdown := true } }
/-- W.RSVD13 at commit: `REG[k][13] <- data` (rule R102), and the register has been written (log 4). -/
def Device.commitRsvd13 (_pad : BitVec 4) (data : Byte) (d : Device) : Device :=
  { d with rsvd13 := data, written := { d.written with rsvd13 := true } }
/-- W.RSVD14 at commit: `REG[k][14] <- data` (rule R102), and the register has been written (log 4). -/
def Device.commitRsvd14 (_pad : BitVec 4) (data : Byte) (d : Device) : Device :=
  { d with rsvd14 := data, written := { d.written with rsvd14 := true } }
/-- W.TEST at commit: `REG[k][15] <- data` (rule R102), and the register has been written (log 4). -/
def Device.commitTest (_pad : BitVec 4) (data : Byte) (d : Device) : Device :=
  { d with test := data, written := { d.written with test := true } }

/-- A device committing an instruction: a wire word has its effect (rule R102); a command of the host never reaches a
device (rule R100), so it has none. -/
def Device.commit (d : Device) : Instr → Device
  | .wNoop pad data => d.commitNoop pad data
  | .wRow0 pad data => d.commitRow0 pad data
  | .wRow1 pad data => d.commitRow1 pad data
  | .wRow2 pad data => d.commitRow2 pad data
  | .wRow3 pad data => d.commitRow3 pad data
  | .wRow4 pad data => d.commitRow4 pad data
  | .wRow5 pad data => d.commitRow5 pad data
  | .wRow6 pad data => d.commitRow6 pad data
  | .wRow7 pad data => d.commitRow7 pad data
  | .wDecode pad data => d.commitDecode pad data
  | .wIntensity pad data => d.commitIntensity pad data
  | .wScanlimit pad data => d.commitScanlimit pad data
  | .wShutdown pad data => d.commitShutdown pad data
  | .wRsvd13 pad data => d.commitRsvd13 pad data
  | .wRsvd14 pad data => d.commitRsvd14 pad data
  | .wTest pad data => d.commitTest pad data
  | .beginTransfer | .sendWord _ _ | .sendRow _ _ _ | .endTransfer | .flush | .setPixel _ _ _ | .invertPixel _ _
  | .getPixel _ _ | .clearDisplay _ | .clearModule _ _ | .setModuleRows _ _ | .setDisplayRows _ => d

/-- The commit at the latch barrier: the device runs the wire word its shift register holds; the shift register stays
(rule R68). -/
def Device.latch (d : Device) : Device := d.commit (decodeWire d.sr)

/-- `SR <- SR[14:0] ## bit` (rule R67). -/
def Device.shiftIn (bit : Bool) (d : Device) : Device := { d with sr := (d.sr <<< 1) ||| (BitVec.ofBool bit).setWidth 16 }

/-- The shift of the whole chain: each device takes the oldest bit its neighbour held before the edge (rule R67). -/
def shiftChain : Bool → List Device → List Device
  | _, [] => []
  | bit, d :: rest => d.shiftIn bit :: shiftChain (d.sr.getLsbD 15) rest

/-- `REG[k][a]` by address (rule R102); address 0 has no register and reads as `none`, as does an address above 15. -/
def Device.reg? (d : Device) : Nat → Option Byte
  | 1 => some d.row0
  | 2 => some d.row1
  | 3 => some d.row2
  | 4 => some d.row3
  | 5 => some d.row4
  | 6 => some d.row5
  | 7 => some d.row6
  | 8 => some d.row7
  | 9 => some d.decode
  | 10 => some d.intensity
  | 11 => some d.scanlimit
  | 12 => some d.shutdown
  | 13 => some d.rsvd13
  | 14 => some d.rsvd14
  | 15 => some d.test
  | _ => none

/-- Register `a` is one of 9 to 15 and has been written (log 4). -/
def ControlsWritten.has (c : ControlsWritten) : Nat → Bool
  | 9 => c.decode
  | 10 => c.intensity
  | 11 => c.scanlimit
  | 12 => c.shutdown
  | 13 => c.rsvd13
  | 14 => c.rsvd14
  | 15 => c.test
  | _ => false

/-- `ENV.REG[k][a]`; `none` where there is no device `k` or no register `a`. -/
def State.reg? (s : State) (k a : Nat) : Option Byte :=
  match s.chain[k]? with
  | some d => d.reg? a
  | none => none

/-- `ENV.SR[k]`; `none` where there is no device `k`. -/
def State.sr? (s : State) (k : Nat) : Option WireWord := (s.chain[k]?).map Device.sr

end Sys2Proof.Machine
end

