-- ==== Sys2Proof/Machine/Flags.lean ====
section
/-! DEFINITION. The fault register and the response word: the codes of rule R211, the sticky update of rules R28 and
R216, the encoding of rule R118. -/

namespace Sys2Proof.Machine

/-- The number of a fault cause (rule R211). -/
def FaultCode.number : FaultCode → BitVec 8
  | .configInvalid => 1
  | .illegalCommand => 2
  | .busState => 3
  | .coordRange => 4
  | .moduleRange => 5

/-- `FAULT` after a fault: the first code since reset stays (rules R28, R216). -/
def stickyFault (fault : BitVec 8) (c : FaultCode) : BitVec 8 := if fault = 0 then c.number else fault

/-- The response word: code in 15:8, zero in 7:1, the pixel's bit in 0 (rule R118). -/
def Response.word : Response → BitVec 16
  | .ok => 0
  | .val bit => 0#15 ++ BitVec.ofBool bit
  | .err code => code.number ++ 0#8

/-- The index of the next command of a host program (rules R15, R31): the number of commands executed, each of which
gave one response. LMX itself has no program counter. -/
def State.pc (s : State) : Nat := s.responses.length

end Sys2Proof.Machine
end

