-- ==== Sys2Proof/Machine/Memory.lean ====
section
/-! DEFINITION. The framebuffer space (rules R12, R50, R51): reading and writing one byte, the canonical form, and the
linear address of a cell. -/

namespace Sys2Proof.Machine

/-- What an address that is not listed reads as: the reset content of every cell (rules R25, R35). -/
def Memory.blank : Byte := 0x00#8

/-- `MemRead(a, 1)` (rule R51). -/
def Memory.read : Memory → Nat → Byte
  | [], _ => Memory.blank
  | (b, w) :: rest, a => if a = b then w else Memory.read rest a

/-- `MemWrite(a, 1, v)` (rule R51); writing the blank byte takes the cell out of the list. -/
def Memory.write : Memory → Nat → Byte → Memory
  | [], a, v => if v = Memory.blank then [] else [(a, v)]
  | (b, w) :: rest, a, v =>
    if a < b then (if v = Memory.blank then (b, w) :: rest else (a, v) :: (b, w) :: rest)
    else if a = b then (if v = Memory.blank then rest else (a, v) :: rest)
    else (b, w) :: Memory.write rest a v

/-- Every listed address is above `lo` and the addresses rise strictly; no listed byte is the blank byte. -/
def Memory.wfFrom : Nat → Memory → Bool
  | _, [] => true
  | lo, (b, w) :: rest => decide (lo ≤ b) && w != Memory.blank && Memory.wfFrom (b + 1) rest

/-- The canonical form. -/
def Memory.wf (m : Memory) : Bool := Memory.wfFrom 0 m

/-- Every listed address is below `limit`. -/
def Memory.below (limit : Nat) (m : Memory) : Bool := m.all (fun c => decide (c.1 < limit))

/-- The linear address of `FB[m][r]` (rule R51), for `r` up to 7 (log 19). -/
def fbAddr (m r : Nat) : Nat := 8 * m + r

/-- `FB[m][r]` (rule R12). -/
def State.fbByte (s : State) (m r : Nat) : Byte := s.fb.read (fbAddr m r)

/-- Writing consecutive bytes from address `a` on. -/
def Memory.writeBytes : Memory → Nat → List Byte → Memory
  | mem, _, [] => mem
  | mem, a, v :: rest => Memory.writeBytes (mem.write a v) (a + 1) rest

end Sys2Proof.Machine
end

