-- ==== Sys2Proof/Machine/Operands.lean ====
section
/-! DEFINITION. The operand forms: clamped bus operands (rule R115), the bit operations on a byte (rules R11, R90), the
range checks (rules R81, R87), and the translation of a pixel or a module to framebuffer cells and back (rules R80,
R82 to R85, R89). -/

namespace Sys2Proof

/-- The address a bus command frames: `clamp(address, 0, 15)` (rule R115). -/
def busAddress (address : Int) : BitVec 4 := BitVec.ofInt 4 (clamp address 0 15)

/-- The data byte a bus command frames: `clamp(data, 0, 255)` (rule R115). -/
def busData (data : Int) : Byte := BitVec.ofInt 8 (clamp data 0 255)

/-- `bitrev8(v)`: bit `i` of the result is bit `7 - i` of `v` (rule R11). -/
def bitrev8 (v : Byte) : Byte :=
  BitVec.ofBool (v.getLsbD 0) ++ BitVec.ofBool (v.getLsbD 1) ++ BitVec.ofBool (v.getLsbD 2)
    ++ BitVec.ofBool (v.getLsbD 3) ++ BitVec.ofBool (v.getLsbD 4) ++ BitVec.ofBool (v.getLsbD 5)
    ++ BitVec.ofBool (v.getLsbD 6) ++ BitVec.ofBool (v.getLsbD 7)

/-- `setbit(v, i, b)` (rule R11), for `i` up to 7 (log 19). -/
def setbit (v : Byte) (i : Nat) (b : Bool) : Byte :=
  if b then v ||| (1#8 <<< i) else v &&& ~~~(1#8 <<< i)

/-- The data byte of `send_row`: read LSB-first when `reversed` (rule R133). -/
def rowData (rowBits : Int) : BitOrder → Byte
  | .normal => busData rowBits
  | .reversed => bitrev8 (busData rowBits)

/-- The byte "all-1" or "all-0" (rules R164, R165). -/
def uniformByte (state : Bool) : Byte := if state then 0xFF#8 else 0x00#8

/-- The coordinates are inside the display (rule R81). -/
def Cfg.hasPixel (cfg : Cfg) (x y : Int) : Bool :=
  !(decide (x < 0) || decide ((cfg.w : Int) ≤ x) || decide (y < 0) || decide ((cfg.h : Int) ≤ y))

/-- The index is a logical module (rule R87). -/
def Cfg.hasModule (cfg : Cfg) (l : Int) : Bool := !(decide (l < 0) || decide ((cfg.n : Int) ≤ l))

/-- A pixel's place in the framebuffer: chain index, row, bit (rule R18). -/
structure Place where
  m : Nat
  r : Nat
  b : Nat
  deriving DecidableEq, Repr

/-- `L = module_row * C + module_col` (rule R82). -/
def Cfg.logicalModule (cfg : Cfg) (x y : Nat) : Nat := (y / 8) * cfg.c + x / 8

/-- `pixel_to_physical(x, y)` (rules R80, R84); `none` where the tables have no usable entry. DESIGN CHOICE (log 19):
rule R81 defines the translation only inside the display, and this function still applies the four steps outside it;
every command and the display read-out check the domain first, so nothing uses that answer. -/
def Cfg.pixelToPhysical (cfg : Cfg) (x y : Nat) : Option Place :=
  let l := cfg.logicalModule x y
  match cfg.chainAt l, cfg.rotatedAt l with
  | some m, some true => some { m := m, r := 7 - y % 8, b := 7 - x % 8 }
  | some m, some false => some { m := m, r := y % 8, b := x % 8 }
  | _, _ => none

/-- `physical_to_pixel(m, r, b)` (rule R85). No command uses it. DESIGN CHOICE (log 19): it still answers for a row or
bit above 7, where rule R85 does not define it; a chain index that is none answers `none`. -/
def Cfg.physicalToPixel (cfg : Cfg) (p : Place) : Option (Nat × Nat) :=
  match cfg.chainInv p.m with
  | none => none
  | some l =>
    match cfg.rotatedAt l with
    | none => none
    | some rot =>
      let localX := if rot then 7 - p.b else p.b
      let localY := if rot then 7 - p.r else p.r
      some (8 * (l % cfg.c) + localX, 8 * (l / cfg.c) + localY)

/-- `module_to_chain(L)` (rule R87). -/
def Cfg.moduleToChain (cfg : Cfg) (l : Nat) : Option Nat := cfg.chainAt l

/-- `t(m) = N - 1 - m`: the transmission position of chain index `m` in a bracket (rule R89). DESIGN CHOICE (log 19):
rule R90 (6) gives it only for `m` in `0..N-1`, and this function answers 0 for a larger `m`. No command uses it. -/
def Cfg.transmitPosition (cfg : Cfg) (m : Nat) : Nat := cfg.n - 1 - m

/-- The eight bytes a block in display orientation is stored as: for a rotated module the row order and each byte's
bit order are both reversed (rule R88). For a block of another length: log 19. -/
def storedBlock (rot : Bool) (block : List Byte) : List Byte :=
  if rot then block.reverse.map bitrev8 else block

end Sys2Proof
end

