-- ==== Sys2Proof/Machine/Ops.lean ====
section
/-! DEFINITION. The shared operations: the line primitive and what is built from it (rules R13, R131, R134 to R136),
responding, taking a fault (rules R14, R216) and the guards that take it (rules R212, R214, R215, R218, R219), and the
stores of the framebuffer commands (rules R88, R164, R165). There is no return from a fault, because nothing is entered
(rule R221): the next command simply follows. -/

namespace Sys2Proof.Machine

/-- The "transparent" level of SEL, `SEL_T = 0` (rules R8, R27). -/
def selT : Bool := false

/-- The "latching" level of SEL, `SEL_L = 1` (rules R8, R27). -/
def selL : Bool := true

/-! Updates of one part of the state. -/

def State.withInput (s : State) (words : List CmdWord) : State := { s with input := words }
def State.withFb (s : State) (fb : Memory) : State := { s with fb := fb }
def State.withSt (s : State) (st : BusState) : State := { s with st := st }
def State.withChain (s : State) (chain : List Device) : State := { s with chain := chain }

/-- Ending a command with its response (rules R16, R105). -/
def State.respond (s : State) (r : Response) : State := { s with responses := s.responses ++ [r] }

/-- Taking a fault (rules R14, R216): `FAULT` keeps its first code, the response is `ERR(code)`, the command is over
and nothing else changes. Nothing is saved and control goes nowhere. -/
def State.raise (s : State) (c : FaultCode) : State :=
  { s with fault := stickyFault s.fault c, responses := s.responses ++ [.err c] }

/-! The lines. -/

/-- The level of a line (rule R27). -/
def Lines.get (ls : Lines) : Line → Bool
  | .sel => ls.sel
  | .clk => ls.clk
  | .data => ls.data

/-- The levels with one line set (rule R27). -/
def Lines.set (ls : Lines) (l : Line) (v : Bool) : Lines :=
  match l with
  | .sel => { ls with sel := v }
  | .clk => { ls with clk := v }
  | .data => { ls with data := v }

/-- A rising edge: a write of 1 to a line while its level is 0 (rule R30). -/
def risingEdge (old new : Bool) : Bool := new && !old

/-- What the chained devices do when a line that stood at `old` is written `new`, DATA standing at `data`: they shift
on a rising edge of CLK (rule R67), commit on a rising edge of SEL (rule R68), and do nothing on any other write
(log 13 for the combinations that cannot arise). -/
def reactTo (l : Line) (old new data : Bool) (chain : List Device) : List Device :=
  match l with
  | .clk => if risingEdge old new then shiftChain data chain else chain
  | .sel => if risingEdge old new then chain.map Device.latch else chain
  | .data => chain

/-- `Line(l) <- v` (rule R13): record the write, set the level, let the devices react. -/
def State.drive (s : State) (l : Line) (v : Bool) : State :=
  { s with
    trace := s.trace ++ [{ line := l, level := v }]
    line := s.line.set l v
    chain := reactTo l (s.line.get l) v s.line.data s.chain }

/-- `shift_bit(v)` (rule R135). -/
def State.shiftBit (s : State) (v : Bool) : State := ((s.drive .clk false).drive .data v).drive .clk true

/-- The bits `n - 1` down to 0 of a wire word, one bit transfer each. -/
def State.shiftBits (w : WireWord) : Nat → State → State
  | 0, s => s
  | n + 1, s => State.shiftBits w n (s.shiftBit (w.getLsbD n))

/-- `shift_word(a, d)` (rule R136): the 16 bits of `0b0000 ## a ## d`, most significant first. -/
def State.shiftWord (s : State) (a : BitVec 4) (d : Byte) : State := State.shiftBits (wireCode 0 a d) 16 s

/-- What an accepted BEGIN does (rule R131). -/
def State.openBracket (s : State) : State := (s.drive .sel selT).withSt .transferring

/-- What an accepted END does (rule R134); the devices commit inside the line write. -/
def State.closeBracket (s : State) : State := (s.drive .sel selL).withSt .idle

/-! The guards, in the order of rule R219. -/

/-- A command in `ConfigError` is refused with `ConfigInvalid` (rule R212). -/
def State.whenConfigured (s : State) (body : Result) : Result :=
  if s.st = .configError then .next (s.raise .configInvalid) else body

/-- A bus command runs only in the state it requires; in the other it raises `BusState` (rules R130, R218). -/
def State.whenBus (s : State) (required : BusState) (done : State) : Result :=
  s.whenConfigured (if s.st = required then .next (done.respond .ok) else .next (s.raise .busState))

/-- A pixel command runs on its pixel's place, or raises `CoordRange` (rules R81, R214). -/
def State.whenPixel (s : State) (x y : Int) (body : Place → Result) : Result :=
  s.whenConfigured
    (if s.cfg.hasPixel x y then
      match s.cfg.pixelToPhysical x.toNat y.toNat with
      | some p => body p
      | none => .fault .noFramebufferCell
    else .next (s.raise .coordRange))

/-- A module command runs on its module's chain index and rotation flag, or raises `ModuleRange` (rules R87, R215). -/
def State.whenModule (s : State) (l : Int) (body : Nat → Bool → Result) : Result :=
  s.whenConfigured
    (if s.cfg.hasModule l then
      match s.cfg.moduleToChain l.toNat, s.cfg.rotatedAt l.toNat with
      | some m, some rot => body m rot
      | _, _ => .fault .noFramebufferCell
    else .next (s.raise .moduleRange))

/-! The framebuffer. -/

/-- `FB[m][r][b]` (rule R12). -/
def State.fbBit (s : State) (p : Place) : Bool := (s.fbByte p.m p.r).getLsbD p.b

/-- `FB[m][r] <- setbit(FB[m][r], b, on)` (rules R161, R162). -/
def State.storePixel (s : State) (p : Place) (on : Bool) : State :=
  s.withFb (s.fb.write (fbAddr p.m p.r) (setbit (s.fbByte p.m p.r) p.b on))

/-- The eight bytes of chain index `m`, row 0 first (rule R51). -/
def State.storeBlock (s : State) (m : Nat) (bytes : List Byte) : State :=
  s.withFb (s.fb.writeBytes (fbAddr m 0) bytes)

/-- The first `n` modules of the display, eight bytes each, in logical order (rule R167); `none` where the tables have
no usable entry. -/
def State.storeModules (s : State) (rows : List Byte) : Nat → Option State
  | 0 => some s
  | l + 1 =>
    match s.storeModules rows l, s.cfg.moduleToChain l, s.cfg.rotatedAt l with
    | some t, some m, some rot => some (t.storeBlock m (storedBlock rot ((rows.drop (8 * l)).take 8)))
    | _, _, _ => none

/-- All `8 * N` bytes set to one value (rule R164). -/
def State.fillDisplay (s : State) (v : Byte) : State :=
  s.withFb (s.fb.writeBytes 0 (List.replicate (8 * s.cfg.n) v))

/-- The same reaction in every device (rule R68: "every device in the chain simultaneously"). -/
def State.onEveryDevice (s : State) (f : Device → Device) : State := s.withChain (s.chain.map f)

end Sys2Proof.Machine
end

