-- ==== Sys2Proof/Machine/Bus.lean ====
section
/-! DEFINITION. The bus driver commands BEGIN, SENDW, SENDR and END (rules R130 to R134). -/

namespace Sys2Proof.Machine

/-- BEGIN (rule R131). -/
def execBeginTransfer (s : State) : Result := s.whenBus .idle s.openBracket

/-- SENDW (rule R132). -/
def execSendWord (address data : Int) (s : State) : Result :=
  s.whenBus .transferring (s.shiftWord (busAddress address) (busData data))

/-- SENDR (rule R133). -/
def execSendRow (address rowBits : Int) (order : BitOrder) (s : State) : Result :=
  s.whenBus .transferring (s.shiftWord (busAddress address) (rowData rowBits order))

/-- END (rule R134). -/
def execEndTransfer (s : State) : Result := s.whenBus .transferring s.closeBracket

end Sys2Proof.Machine
end

