-- ==== Sys2Proof/Machine/Flush.lean ====
section
/-! DEFINITION. FLUSH (rule R150): eight brackets, one per row, each with one word per module, far end of the chain
first. -/

namespace Sys2Proof.Machine

/-- The words of row `r` for the chain indices `n - 1` down to 0: address `r + 1`, the stored byte, `normal` order
whatever the rotation (rule R150, points 1 to 3). -/
def State.sendRowWords (r : Nat) : Nat → State → State
  | 0, s => s
  | m + 1, s => State.sendRowWords r m (s.shiftWord (BitVec.ofNat 4 (r + 1)) (s.fbByte m r))

/-- The bracket of row `r`. -/
def State.flushRow (s : State) (r : Nat) : State := (State.sendRowWords r s.cfg.n s.openBracket).closeBracket

/-- The brackets of rows 0 to 7, in that order. -/
def State.flushRows (s : State) : State := (List.range 8).foldl State.flushRow s

/-- FLUSH (rule R150): the bus state is checked once, before any line is written. -/
def execFlush (s : State) : Result := s.whenBus .idle s.flushRows

end Sys2Proof.Machine
end

