-- ==== Sys2Proof/Machine/Framebuffer.lean ====
section
/-! DEFINITION. The framebuffer commands SETPX, INVPX, GETPX, CLRD, CLRM, SETMR and SETDR (rules R160 to R167). -/

namespace Sys2Proof.Machine

/-- SETPX (rule R161). -/
def execSetPixel (x y : Int) (on : Bool) (s : State) : Result :=
  s.whenPixel x y (fun p => .next ((s.storePixel p on).respond .ok))

/-- INVPX (rule R162). -/
def execInvertPixel (x y : Int) (s : State) : Result :=
  s.whenPixel x y (fun p => .next ((s.storePixel p (!s.fbBit p)).respond .ok))

/-- GETPX (rule R163). -/
def execGetPixel (x y : Int) (s : State) : Result :=
  s.whenPixel x y (fun p => .next (s.respond (.val (s.fbBit p))))

/-- CLRD (rule R164). -/
def execClearDisplay (state : Bool) (s : State) : Result :=
  s.whenConfigured (.next ((s.fillDisplay (uniformByte state)).respond .ok))

/-- CLRM (rule R165). -/
def execClearModule (moduleIndex : Int) (state : Bool) (s : State) : Result :=
  s.whenModule moduleIndex
    (fun m _ => .next ((s.storeBlock m (List.replicate 8 (uniformByte state))).respond .ok))

/-- SETMR (rule R166). A list that is not eight bytes long is no command (rule R116). -/
def execSetModuleRows (moduleIndex : Int) (rows : List Byte) (s : State) : Result :=
  s.whenConfigured
    (if rows.length = 8 then
      s.whenModule moduleIndex (fun m rot => .next ((s.storeBlock m (storedBlock rot rows)).respond .ok))
    else .refused .malformedCommand)

/-- SETDR (rule R167). A list that is not `8 * N` bytes long is no command (rule R116). -/
def execSetDisplayRows (rows : List Byte) (s : State) : Result :=
  s.whenConfigured
    (if rows.length = 8 * s.cfg.n then
      match s.storeModules rows s.cfg.n with
      | some t => .next (t.respond .ok)
      | none => .fault .noFramebufferCell
    else .refused .malformedCommand)

end Sys2Proof.Machine
end

