-- ==== Sys2Proof/Machine/Wire.lean ====
section
/-! DEFINITION. The sixteen wire words (rules R68, R102), run as the devices run them at the latch barrier: the commit
effect in every device, which is what END does to a chain whose every shift register holds the word (log 5). Each
device's own commit, of whatever word it holds, is `Device.latch`, which END uses. A device gives no response. -/

namespace Sys2Proof.Machine

/-- W.NOOP: nothing changes (rule R102). -/
def execWNoop (pad : BitVec 4) (data : Byte) (s : State) : Result :=
  .next (s.onEveryDevice (Device.commitNoop pad data))

/-- W.ROW0: `REG[k][1] <- data` in every device `k` (rule R102). -/
def execWRow0 (pad : BitVec 4) (data : Byte) (s : State) : Result :=
  .next (s.onEveryDevice (Device.commitRow0 pad data))

/-- W.ROW1: `REG[k][2] <- data` in every device `k` (rule R102). -/
def execWRow1 (pad : BitVec 4) (data : Byte) (s : State) : Result :=
  .next (s.onEveryDevice (Device.commitRow1 pad data))

/-- W.ROW2: `REG[k][3] <- data` in every device `k` (rule R102). -/
def execWRow2 (pad : BitVec 4) (data : Byte) (s : State) : Result :=
  .next (s.onEveryDevice (Device.commitRow2 pad data))

/-- W.ROW3: `REG[k][4] <- data` in every device `k` (rule R102). -/
def execWRow3 (pad : BitVec 4) (data : Byte) (s : State) : Result :=
  .next (s.onEveryDevice (Device.commitRow3 pad data))

/-- W.ROW4: `REG[k][5] <- data` in every device `k` (rule R102). -/
def execWRow4 (pad : BitVec 4) (data : Byte) (s : State) : Result :=
  .next (s.onEveryDevice (Device.commitRow4 pad data))

/-- W.ROW5: `REG[k][6] <- data` in every device `k` (rule R102). -/
def execWRow5 (pad : BitVec 4) (data : Byte) (s : State) : Result :=
  .next (s.onEveryDevice (Device.commitRow5 pad data))

/-- W.ROW6: `REG[k][7] <- data` in every device `k` (rule R102). -/
def execWRow6 (pad : BitVec 4) (data : Byte) (s : State) : Result :=
  .next (s.onEveryDevice (Device.commitRow6 pad data))

/-- W.ROW7: `REG[k][8] <- data` in every device `k` (rule R102). -/
def execWRow7 (pad : BitVec 4) (data : Byte) (s : State) : Result :=
  .next (s.onEveryDevice (Device.commitRow7 pad data))

/-- W.DECODE: `REG[k][9] <- data` in every device `k` (rule R102). -/
def execWDecode (pad : BitVec 4) (data : Byte) (s : State) : Result :=
  .next (s.onEveryDevice (Device.commitDecode pad data))

/-- W.INTENSITY: `REG[k][10] <- data` in every device `k` (rule R102). -/
def execWIntensity (pad : BitVec 4) (data : Byte) (s : State) : Result :=
  .next (s.onEveryDevice (Device.commitIntensity pad data))

/-- W.SCANLIMIT: `REG[k][11] <- data` in every device `k` (rule R102). -/
def execWScanlimit (pad : BitVec 4) (data : Byte) (s : State) : Result :=
  .next (s.onEveryDevice (Device.commitScanlimit pad data))

/-- W.SHUTDOWN: `REG[k][12] <- data` in every device `k` (rule R102). -/
def execWShutdown (pad : BitVec 4) (data : Byte) (s : State) : Result :=
  .next (s.onEveryDevice (Device.commitShutdown pad data))

/-- W.RSVD13: `REG[k][13] <- data` in every device `k` (rule R102). -/
def execWRsvd13 (pad : BitVec 4) (data : Byte) (s : State) : Result :=
  .next (s.onEveryDevice (Device.commitRsvd13 pad data))

/-- W.RSVD14: `REG[k][14] <- data` in every device `k` (rule R102). -/
def execWRsvd14 (pad : BitVec 4) (data : Byte) (s : State) : Result :=
  .next (s.onEveryDevice (Device.commitRsvd14 pad data))

/-- W.TEST: `REG[k][15] <- data` in every device `k` (rule R102). -/
def execWTest (pad : BitVec 4) (data : Byte) (s : State) : Result :=
  .next (s.onEveryDevice (Device.commitTest pad data))

end Sys2Proof.Machine
end

