-- ==== Sys2Proof/Machine/Dispatch.lean ====
section
/-! DEFINITION. What each instruction does: one arm per constructor, each one call of its meaning. -/

namespace Sys2Proof.Machine

def exec (i : Instr) (s : State) : Host.Outcome State Fault Refusal :=
  match i with
  | .beginTransfer => Sys2Proof.Machine.execBeginTransfer s
  | .sendWord address data => Sys2Proof.Machine.execSendWord address data s
  | .sendRow address rowBits order => Sys2Proof.Machine.execSendRow address rowBits order s
  | .endTransfer => Sys2Proof.Machine.execEndTransfer s
  | .flush => Sys2Proof.Machine.execFlush s
  | .setPixel x y on => Sys2Proof.Machine.execSetPixel x y on s
  | .invertPixel x y => Sys2Proof.Machine.execInvertPixel x y s
  | .getPixel x y => Sys2Proof.Machine.execGetPixel x y s
  | .clearDisplay state => Sys2Proof.Machine.execClearDisplay state s
  | .clearModule moduleIndex state => Sys2Proof.Machine.execClearModule moduleIndex state s
  | .setModuleRows moduleIndex rows => Sys2Proof.Machine.execSetModuleRows moduleIndex rows s
  | .setDisplayRows rows => Sys2Proof.Machine.execSetDisplayRows rows s
  | .wNoop pad data => Sys2Proof.Machine.execWNoop pad data s
  | .wRow0 pad data => Sys2Proof.Machine.execWRow0 pad data s
  | .wRow1 pad data => Sys2Proof.Machine.execWRow1 pad data s
  | .wRow2 pad data => Sys2Proof.Machine.execWRow2 pad data s
  | .wRow3 pad data => Sys2Proof.Machine.execWRow3 pad data s
  | .wRow4 pad data => Sys2Proof.Machine.execWRow4 pad data s
  | .wRow5 pad data => Sys2Proof.Machine.execWRow5 pad data s
  | .wRow6 pad data => Sys2Proof.Machine.execWRow6 pad data s
  | .wRow7 pad data => Sys2Proof.Machine.execWRow7 pad data s
  | .wDecode pad data => Sys2Proof.Machine.execWDecode pad data s
  | .wIntensity pad data => Sys2Proof.Machine.execWIntensity pad data s
  | .wScanlimit pad data => Sys2Proof.Machine.execWScanlimit pad data s
  | .wShutdown pad data => Sys2Proof.Machine.execWShutdown pad data s
  | .wRsvd13 pad data => Sys2Proof.Machine.execWRsvd13 pad data s
  | .wRsvd14 pad data => Sys2Proof.Machine.execWRsvd14 pad data s
  | .wTest pad data => Sys2Proof.Machine.execWTest pad data s

end Sys2Proof.Machine
end

