-- ==== Sys2Proof/Machine/Fetch.lean ====
section
/-! DEFINITION. Taking the next command from the host's stream (rules R105, R110, R111), and presenting an instruction
there. -/

namespace Sys2Proof.Machine

/-- What the front of the stream holds for LMX. -/
inductive Fetched where
  /-- No whole command is there yet: LMX waits for the host (log 6). -/
  | waiting
  /-- The words taken are no command LMX accepts; `rest` is what stays in the stream. -/
  | rejected (c : FaultCode) (rest : List CmdWord)
  /-- A legal command; `rest` is what stays in the stream. -/
  | fetched (i : Instr) (rest : List CmdWord)
  deriving DecidableEq, Repr

/-- In `ConfigError` every word is a one-word command and is refused (rules R111, R212); otherwise the decoder says
what is there, and an illegal word is consumed with its payload (rules R111, R217). -/
def State.fetch (s : State) : Fetched :=
  match s.input with
  | [] => .waiting
  | w :: rest =>
    if s.st = .configError then .rejected .configInvalid rest
    else
      match decode s.cfg.n (w :: rest) with
      | .incomplete => .waiting
      | .illegal _ rest' => .rejected .illegalCommand rest'
      | .command i rest' => .fetched i rest'

/-- The host presents these words next, before whatever it had yet to present. -/
def State.present (s : State) (words : List CmdWord) : State := s.withInput (words ++ s.input)

/-- A wire word about to be run by the devices (log 5): every shift register holds it, a bracket is open, and the host
presents the END that latches it. -/
def State.presentWire (s : State) (w : WireWord) : State :=
  let latching : State :=
    { s with
      st := .transferring
      line := { s.line with sel := selT }
      chain := s.chain.map (fun d => { d with sr := w }) }
  latching.present [headerCode 0x04#8 false 0 0]

/-- The instruction that the opcode table's row gives these bits, placed where the next step runs it (in `ConfigError`,
where it is refused, with the payload words log 21 says). -/
def State.placeTableWord (s : State) (nbits w : Nat) : State :=
  if nbits ≤ 16 then s.presentWire (BitVec.ofNat 16 w) else s.present (tableWords s.cfg.n w)

end Sys2Proof.Machine
end

