-- ==== Sys2Proof/Machine/Step.lean ====
section
/-! DEFINITION. One step: LMX takes one command from the host's stream, executes it to completion and answers it (rules
R31, R105). -/

namespace Sys2Proof.Machine

def step (s : State) : Host.Outcome State Fault Refusal :=
  match s.fetch with
  | .waiting => .next s
  | .rejected c rest => .next ((s.withInput rest).raise c)
  | .fetched i rest => exec i (s.withInput rest)

/-- `s` with the instruction of a table row placed where `step` takes its next instruction (logs 5 and 6). -/
def State.withFetchWord (s : State) (nbits w : Nat) : State := s.placeTableWord nbits w

end Sys2Proof.Machine
end

