-- ==== Sys2Proof/Machine/Display.lean ====
section
/-! DEFINITION. What the display shows (rule R71): the LED of a device in normal operation follows its row register;
what it shows otherwise no source says (93_implementation_defined.md U18), so there it is a free value. -/

namespace Sys2Proof.Machine

/-- The five control registers of the startup sequence have been written to the device. Until then "what the LEDs show
is not described" (rule R243 (2)). -/
def Device.controlsWritten (p : DriverParams) (d : Device) : Bool :=
  d.written.has p.regTest && d.written.has p.regShutdown && d.written.has p.regScanlimit
    && d.written.has p.regDecode && d.written.has p.regIntensity

/-- Register `a` of the device holds the value `v`. -/
def Device.holds (d : Device) (a v : Nat) : Bool := decide ((d.reg? a).map BitVec.toNat = some v)

/-- Register `a` of the device holds an intensity, `0..15`. -/
def Device.holdsIntensity (d : Device) (a : Nat) : Bool :=
  match d.reg? a with
  | some v => decide (v.toNat ≤ 15)
  | none => false

/-- The device stands as the startup sequence leaves it: its control registers written, test mode off, shutdown left,
all eight rows scanned, no BCD decode, and an intensity (rules R71, R194, R243), at the registers and with the data of
the driver parameters. DEDUCED and PRESUMED as log 4 says. -/
def Device.normalOperation (p : DriverParams) (d : Device) : Bool :=
  d.controlsWritten p && d.holds p.regTest p.testOff && d.holds p.regShutdown p.operate
    && d.holds p.regScanlimit p.scanAll && d.holds p.regDecode p.decodeOff && d.holdsIntensity p.regIntensity

/-- The LED at row `r`, column `b` of device `k`: lit exactly when `REG[k][r + 1][b] = 1`, in normal operation (rule
R71). `none` where there is no such LED. -/
def State.ledLit (s : State) (k r b : Nat) : Option Bool :=
  match s.chain[k]? with
  | none => none
  | some d =>
    if r < 8 ∧ b < 8 then
      if d.normalOperation s.cfg.driver then (d.reg? (r + 1)).map (fun v => v.getLsbD b)
      else some (Config.ledOutsideNormal k r b s.trace.length)
    else none

/-- The LED of the logical pixel `(x, y)` (rules R80, R89). `none` where the display has no such pixel: the domain of
rule R81 is checked here, and `none` outside it is the model's choice (DESIGN CHOICE, log 19). -/
def State.pixelLit (s : State) (x y : Nat) : Option Bool :=
  if s.cfg.hasPixel x y then
    match s.cfg.pixelToPhysical x y with
    | some p => s.ledLit p.m p.r p.b
    | none => none
  else none

end Sys2Proof.Machine
end

