-- ==== Sys2Proof/Machine/Pseudo.lean ====
section
/-! DEFINITION. The pseudo-commands (rules R119, R190 to R198): finite sequences of commands the host issues one after
another. They have no opcode and LMX knows nothing of the grouping. DESIGN CHOICE (log 21): they are expanded for a
configuration that rule R22 rejects too, where the spec does not say what they stand for. -/

namespace Sys2Proof.Machine

/-- The seven pseudo-commands (rule R119). -/
inductive Pseudo where
  /-- `BCAST address, data` (rule R192). -/
  | bcast (address data : Int)
  /-- `TARGET module_index, address, data` (rule R193). -/
  | target (moduleIndex address data : Int)
  /-- `INIT` (rule R194). -/
  | startup
  /-- `SHUTDOWN` (rule R195). -/
  | shutdown
  /-- `INTENS value` (rule R196). -/
  | intens (value : Int)
  /-- `INTENSM module_index, value` (rule R197). -/
  | intensModule (moduleIndex value : Int)
  /-- `DRAWLINE x0, y0, x1, y1` (rule R198). -/
  | drawLine (x0 y0 x1 y1 : Int)
  deriving DecidableEq, Repr

/-- BCAST: the same word `N` times in one bracket (rule R192). -/
def bcastCommands (n : Nat) (address data : Int) : List Instr :=
  .beginTransfer :: (List.replicate n (.sendWord address data) ++ [.endTransfer])

/-- TARGET: the word for one device and the no-op for every other, far end first (rule R193); `none` when the host
rejects the module index and issues nothing (and, as log 21 says, where a rejected table has no usable entry). -/
def targetCommands (cfg : Cfg) (moduleIndex address data : Int) : Option (List Instr) :=
  if cfg.hasModule moduleIndex then
    (cfg.moduleToChain moduleIndex.toNat).map fun mt =>
      .beginTransfer ::
        ((List.range cfg.n).reverse.map (fun m => if m = mt then .sendWord address data else .sendWord 0 0)
          ++ [.endTransfer])
  else none

/-- The points of a line from `(major, minor)` on, `count` of them along the dominant axis, with error term `e` (rule
R198): after each point the minor coordinate steps when `e > 0`. -/
def linePoints (stepMajor stepMinor deltaMajor deltaMinor : Int) : Nat → Int → Int → Int → List (Int × Int)
  | 0, _, _, _ => []
  | count + 1, major, minor, e =>
    let minor' := if 0 < e then minor + stepMinor else minor
    let e' := if 0 < e then e - 2 * deltaMajor else e
    (major, minor) ::
      linePoints stepMajor stepMinor deltaMajor deltaMinor count (major + stepMajor) minor' (e' + 2 * deltaMinor)

/-- The points DRAWLINE plots before clipping; a tie takes the y-dominant branch (rule R198). -/
def drawLinePoints (x0 y0 x1 y1 : Int) : List (Int × Int) :=
  let dx := (x1 - x0).natAbs
  let dy := (y1 - y0).natAbs
  let sx := (x1 - x0).sign
  let sy := (y1 - y0).sign
  if dy < dx then linePoints sx sy dx dy (dx + 1) x0 y0 (2 * dy - dx)
  else (linePoints sy sx dy dx (dy + 1) y0 x0 (2 * dx - dy)).map Prod.swap

/-- DRAWLINE: one SETPX for each point inside the display; a point outside is skipped (rule R198).
For a rejected configuration: log 21. -/
def drawLineCommands (cfg : Cfg) (x0 y0 x1 y1 : Int) : List Instr :=
  ((drawLinePoints x0 y0 x1 y1).filter (fun p => cfg.hasPixel p.1 p.2)).map (fun p => .setPixel p.1 p.2 true)

/-- The first four steps of INIT, in the source's order: disable test mode, leave shutdown mode, scan all eight rows,
disable BCD decode (rule R194). The numbers are the driver parameters of rule R8. For a rejected
configuration: log 21. -/
def startupSteps (cfg : Cfg) : List Instr :=
  bcastCommands cfg.n cfg.driver.regTest cfg.driver.testOff
    ++ bcastCommands cfg.n cfg.driver.regShutdown cfg.driver.operate
    ++ bcastCommands cfg.n cfg.driver.regScanlimit cfg.driver.scanAll
    ++ bcastCommands cfg.n cfg.driver.regDecode cfg.driver.decodeOff

/-- The commands a pseudo-command stands for on an instance with this configuration; `none` when the host rejects it
and issues nothing (rules R193, R197). Register addresses and data are the driver parameters (rules R194 to R197).
DESIGN CHOICE (log 21): in `ConfigError`, where rule R111 has no `N`, this still answers, from the rejected counts and
tables, and LMX refuses every command of it. -/
def Pseudo.expand (cfg : Cfg) : Pseudo → Option (List Instr)
  | .bcast address data => some (bcastCommands cfg.n address data)
  | .target moduleIndex address data => targetCommands cfg moduleIndex address data
  | .startup => some (startupSteps cfg ++ bcastCommands cfg.n cfg.driver.regIntensity cfg.intensity0)
  | .shutdown => some (bcastCommands cfg.n cfg.driver.regShutdown cfg.driver.shutdownOn)
  | .intens value => some (bcastCommands cfg.n cfg.driver.regIntensity (clamp value 0 15))
  | .intensModule moduleIndex value => targetCommands cfg moduleIndex cfg.driver.regIntensity (clamp value 0 15)
  | .drawLine x0 y0 x1 y1 => some (drawLineCommands cfg x0 y0 x1 y1)

/-- The commands one after another (rule R190), stopping at a stop of the model. -/
def runCommands : List Instr → State → Result
  | [], s => .next s
  | i :: rest, s =>
    match exec i s with
    | .next t => runCommands rest t
    | .fault why => .fault why
    | .refused why => .refused why

/-- The stream words of a list of commands; for a command that has no encoding, the words log 20 says. -/
def commandWords (commands : List Instr) : List CmdWord :=
  commands.flatMap fun i =>
    match encode i with
    | .cmd64 words => words
    | .w16 _ => []

end Sys2Proof.Machine
end

