-- ==== Sys2Proof/Safety.lean ====
section
/-! DEFINITION. What counts as a good run and a good state, and the words the claims use for what the lines show: the
events of a bit, a word, a bracket and a flush, the last level a trace gives a line, and the replay of line writes on
the chained devices. -/

namespace Sys2Proof.Machine

/-- No fault since reset: the premise of any claim about a run (rule R221). -/
def State.noFault (s : State) : Prop := s.fault = 0

/-- A final state (rule R249): the end of a run with no bracket open and no fault recorded, or `ConfigError` with the
code of `ConfigInvalid`. -/
def State.isFinal (s : State) : Prop :=
  (s.st = .idle ∧ s.fault = 0) ∨ (s.st = .configError ∧ s.fault = FaultCode.configInvalid.number)

/-- The three line writes of one bit transfer (rule R135). -/
def bitEvents (v : Bool) : List Event :=
  [{ line := .clk, level := false }, { line := .data, level := v }, { line := .clk, level := true }]

/-- The line writes for the bits `n - 1` down to 0 of a word. -/
def bitsEvents (w : WireWord) : Nat → List Event
  | 0 => []
  | n + 1 => bitEvents (w.getLsbD n) ++ bitsEvents w n

/-- The 48 line writes of one word transfer (rule R136). -/
def wordEvents (w : WireWord) : List Event := bitsEvents w 16

/-- The line writes of a bracket that carries these words (rule R138). -/
def bracketEvents (words : List WireWord) : List Event :=
  { line := .sel, level := selT } :: (words.flatMap wordEvents ++ [{ line := .sel, level := selL }])

/-- The words of row `r` of a flush in time order (rule R151): position `t` carries chain index `N - 1 - t`. -/
def flushWords (s : State) (r : Nat) : List WireWord :=
  (List.range s.cfg.n).map fun t => BitVec.ofNat 16 (256 * (r + 1) + (s.fbByte (s.cfg.n - 1 - t) r).toNat)

/-- The line writes of a whole flush (rules R150, R151). -/
def flushEvents (s : State) : List Event := (List.range 8).flatMap fun r => bracketEvents (flushWords s r)

/-- The level the last event for a line gives it (rule R30); `none` while the trace has no event for it. -/
def lastLevel (l : Line) (trace : List Event) : Option Bool :=
  ((trace.filter fun e => decide (e.line = l)).getLast?).map Event.level

/-- The lines and the devices after one more line write (rules R13, R67, R68). -/
def replayEvent (at_ : Lines × List Device) (e : Event) : Lines × List Device :=
  (at_.1.set e.line e.level, reactTo e.line (at_.1.get e.line) e.level at_.1.data at_.2)

/-- The lines and the devices after these line writes. -/
def replay (at_ : Lines × List Device) (events : List Event) : Lines × List Device := events.foldl replayEvent at_

/-- The address field of a wire word, bits 11:8 (rule R101). -/
def wordAddress (w : WireWord) : Nat := w.toNat / 256 % 16

/-- The data field of a wire word, bits 7:0 (rule R101). -/
def wordData (w : WireWord) : Byte := BitVec.ofNat 8 (w.toNat % 256)

/-- The word a bus command with these operands sends: `256 * a + d` with both operands saturated (rules R115, R136). -/
def busWord (address data : Int) : WireWord :=
  BitVec.ofNat 16 (256 * (clamp address 0 15).toNat + (clamp data 0 255).toNat)

/-- The word SENDR sends: with `reversed` the saturated byte goes out bit-reversed (rule R133). -/
def rowWord (address rowBits : Int) : BitOrder → WireWord
  | .normal => busWord address rowBits
  | .reversed => busWord address ((bitrev8 (BitVec.ofNat 8 (clamp rowBits 0 255).toNat)).toNat : Int)

/-- The word a command shifts, for the two commands that shift one (rule R69). -/
def sentWord : Instr → Option WireWord
  | .sendWord address data => some (busWord address data)
  | .sendRow address rowBits order => some (rowWord address rowBits order)
  | .beginTransfer | .endTransfer | .flush | .setPixel _ _ _ | .invertPixel _ _ | .getPixel _ _ | .clearDisplay _
  | .clearModule _ _ | .setModuleRows _ _ | .setDisplayRows _ => none
  | .wNoop _ _ | .wRow0 _ _ | .wRow1 _ _ | .wRow2 _ _ | .wRow3 _ _ | .wRow4 _ _ | .wRow5 _ _ | .wRow6 _ _
  | .wRow7 _ _ | .wDecode _ _ | .wIntensity _ _ | .wScanlimit _ _ | .wShutdown _ _ | .wRsvd13 _ _ | .wRsvd14 _ _
  | .wTest _ _ => none

/-- The instruction is one of the twelve commands, not a wire word (rule R100). -/
def isCommand (i : Instr) : Bool :=
  match encode i with
  | .cmd64 _ => true
  | .w16 _ => false

/-- What shifting the word `w` does: its 48 line writes, CLK left high and DATA at the last bit, device 0 holding `w`
and every other device what its neighbour held, and nothing else but the response (rules R136, R137). -/
structure ShiftedWord (s t : State) (w : WireWord) : Prop where
  trace : t.trace = s.trace ++ wordEvents w
  line : t.line = { sel := s.line.sel, clk := true, data := w.getLsbD 0 }
  length : t.chain.length = s.chain.length
  first : 0 < s.chain.length → t.sr? 0 = some w
  later : ∀ k, k + 1 < s.chain.length → t.sr? (k + 1) = s.sr? k
  registers : ∀ k a, t.reg? k a = s.reg? k a
  frame : t = { s with trace := t.trace, line := t.line, chain := t.chain, responses := t.responses }

/-- The match and mask of the twelve CMD64 rows of spec/opcode_table.json, in the table's order. -/
def commandRows : List (CmdWord × CmdWord) :=
  [(0x0100000000000000, 0xFFFFFFFFFFFFFFFF), (0x0200000000000000, 0xFFFF00000000FFFF),
   (0x0300000000000000, 0xFFFE00000000FFFF), (0x0400000000000000, 0xFFFFFFFFFFFFFFFF),
   (0x0800000000000000, 0xFFFFFFFFFFFFFFFF), (0x1000000000000000, 0xFFFE00000000FFFF),
   (0x1100000000000000, 0xFFFF00000000FFFF), (0x1200000000000000, 0xFFFF00000000FFFF),
   (0x1800000000000000, 0xFFFEFFFFFFFFFFFF), (0x1900000000000000, 0xFFFE0000FFFFFFFF),
   (0x1A00000000000000, 0xFFFF0000FFFFFFFF), (0x1B00000000000000, 0xFFFFFFFFFFFFFFFF)]

/-- The states a run can be in. Each part is a rule of the spec that every command keeps. -/
structure State.Inv (s : State) : Prop where
  /-- Only a valid configuration leaves `ConfigError` (rules R22, R26). -/
  cfgValid : s.st ≠ .configError → s.cfg.valid = true
  /-- `intensity0` is stored after its clamp (rules R21, R23). -/
  intensity : 0 ≤ s.cfg.intensity0 ∧ s.cfg.intensity0 ≤ 15
  /-- The framebuffer list is canonical. -/
  fbCanonical : s.fb.wf = true
  /-- "framebuffer size is always exactly `8 * module_count` bytes" (rule R25). -/
  fbInside : s.fb.below (8 * s.cfg.n) = true
  /-- There are exactly `N` devices (rule R66). -/
  chainLength : s.st ≠ .configError → s.chain.length = s.cfg.n
  /-- `ST = Transferring` implies `LINE.SEL = SEL_T` (rule R137). -/
  bracketOpen : s.st = .transferring → s.line.sel = selT
  /-- From the first END onward, `ST = Idle` implies `LINE.SEL = SEL_L` (rule R137). -/
  bracketClosed : s.st = .idle → (lastLevel .sel s.trace).isSome = true → s.line.sel = selL
  /-- The level of a line is that of the last event for it (rule R30). -/
  lineFollowsTrace : ∀ l v, lastLevel l s.trace = some v → s.line.get l = v
  /-- Only the codes of rule R211 are recorded. -/
  faultCode : s.fault.toNat ≤ 5
  /-- `ConfigError` is dead: `FAULT = 1` and no line was ever written (rule R212). -/
  deadState : s.st = .configError → s.fault = FaultCode.configInvalid.number ∧ s.trace = []

end Sys2Proof.Machine
end

