-- ==== Sys2Proof/Certificates/Slice0/Obligations.lean ====
section
/-! DEFINITION. The statements for the provers, each from a numbered rule of spec/. Levels of SEL are written out:
`false` is `SEL_T = 0`, `true` is `SEL_L = 1` (rule R27). -/

open Sys2Proof Sys2Proof.Machine

/-! Reset and configuration. -/

/-- Rule R35: what reset leaves of LMX's own state, for a valid and for an invalid offered configuration. -/
def Obligations.ResetLeavesTheStatedValues : Prop :=
  ∀ o : Offered,
    (State.resetWith o).cfg = o.normalise ∧ (State.resetWith o).trace = [] ∧
    (o.normalise.valid = true →
      (State.resetWith o).st = .idle ∧ (State.resetWith o).fault = 0 ∧
        ∀ m r, m < o.normalise.n → r < 8 → (State.resetWith o).fbByte m r = 0x00#8) ∧
    (o.normalise.valid = false → (State.resetWith o).st = .configError ∧ (State.resetWith o).fault = 1)

/-- Rule R23: the two normalisations. -/
def Obligations.NormalisationFollowsTheSentinelAndTheClamp : Prop :=
  ∀ o : Offered,
    ((o.chainOrder = none ∨ o.rotated = none) →
      o.normalise.tablesPresent = false ∧ o.normalise.columns = 1 ∧ o.normalise.rows = 1 ∧
        o.normalise.chainOrder = [0] ∧ o.normalise.rotated = [false] ∧ o.normalise.valid = true) ∧
    (∀ order rot, o.chainOrder = some order → o.rotated = some rot →
      o.normalise.tablesPresent = true ∧ o.normalise.columns = o.columns ∧ o.normalise.rows = o.rows ∧
        o.normalise.chainOrder = order ∧ o.normalise.rotated = rot) ∧
    (o.intensity0 < 0 → o.normalise.intensity0 = 0) ∧ (15 < o.intensity0 → o.normalise.intensity0 = 15) ∧
    (0 ≤ o.intensity0 → o.intensity0 ≤ 15 → o.normalise.intensity0 = o.intensity0)

/-- Rule R22: when a configuration is valid. An out-of-range intensity is no error, so it does not occur. -/
def Obligations.ConfigurationIsValidExactlyAsRequired : Prop :=
  ∀ cfg : Cfg, cfg.valid = true ↔
    1 ≤ cfg.columns ∧ 1 ≤ cfg.rows ∧
    (cfg.chainOrder.length : Int) = cfg.columns * cfg.rows ∧ (cfg.rotated.length : Int) = cfg.columns * cfg.rows ∧
    (∀ v ∈ cfg.chainOrder, 0 ≤ v ∧ v < cfg.columns * cfg.rows) ∧
    (∀ i j : Nat, i < cfg.chainOrder.length → j < cfg.chainOrder.length →
      cfg.chainOrder[i]? = cfg.chainOrder[j]? → i = j)

/-- Rules R21, R83: a valid `chain_order` is a bijection of `0..N-1`, and `chain_order_inv` is its inverse. -/
def Obligations.ChainOrderIsABijection : Prop :=
  ∀ cfg : Cfg, cfg.valid = true →
    (∀ l, l < cfg.n → ∃ m, cfg.chainAt l = some m ∧ m < cfg.n ∧ cfg.chainInv m = some l) ∧
    (∀ m, m < cfg.n → ∃ l, l < cfg.n ∧ cfg.chainInv m = some l ∧ cfg.chainAt l = some m) ∧
    (∀ l l' m, cfg.chainAt l = some m → cfg.chainAt l' = some m → l = l')

/-- The invariant holds after reset with any offered configuration. -/
def Obligations.InvariantHoldsAfterReset : Prop := ∀ o : Offered, (State.resetWith o).Inv

/-- Rule R109: within the encodable limits every coordinate and module index in range fits its operand. -/
def Obligations.CoordinatesFitTheirOperandsWithinTheLimits : Prop :=
  ∀ cfg : Cfg, cfg.c ≤ 4096 → cfg.r ≤ 4096 → cfg.n ≤ 32768 →
    (∀ x y, cfg.hasPixel x y = true → fits16 x = true ∧ fits16 y = true) ∧
    (∀ l, cfg.hasModule l = true → fits16 l = true)

/-! Address translation. -/

/-- Rule R80: the four steps, with the tables read at `L = module_row * C + module_col`. -/
def Obligations.PixelTranslationFollowsTheFourSteps : Prop :=
  ∀ (cfg : Cfg) (x y : Nat), cfg.valid = true → x < 8 * cfg.c → y < 8 * cfg.r →
    ∃ (m : Nat) (rot : Bool),
      cfg.chainOrder[(y / 8) * cfg.c + x / 8]? = some (m : Int) ∧ cfg.rotated[(y / 8) * cfg.c + x / 8]? = some rot ∧
      m < cfg.n ∧
      cfg.pixelToPhysical x y =
        some (if rot then { m := m, r := 7 - y % 8, b := 7 - x % 8 } else { m := m, r := y % 8, b := x % 8 })

/-- Rule R86 (a), (b), (c), which the spec derives from R80 and R85: the translation is a bijection of the display
onto the places, `physical_to_pixel` is its inverse, and the pixels of one logical module, and no others, lie in one
chain index. -/
def Obligations.TranslationIsABijection : Prop :=
  ∀ cfg : Cfg, cfg.valid = true →
    (∀ x y, x < 8 * cfg.c → y < 8 * cfg.r →
      ∃ p, cfg.pixelToPhysical x y = some p ∧ p.m < cfg.n ∧ p.r < 8 ∧ p.b < 8 ∧
        cfg.physicalToPixel p = some (x, y)) ∧
    (∀ p : Place, p.m < cfg.n → p.r < 8 → p.b < 8 →
      ∃ x y, cfg.physicalToPixel p = some (x, y) ∧ x < 8 * cfg.c ∧ y < 8 * cfg.r ∧
        cfg.pixelToPhysical x y = some p) ∧
    (∀ x y x' y' p p', x < 8 * cfg.c → y < 8 * cfg.r → x' < 8 * cfg.c → y' < 8 * cfg.r →
      cfg.pixelToPhysical x y = some p → cfg.pixelToPhysical x' y' = some p' →
      (p.m = p'.m ↔ x / 8 = x' / 8 ∧ y / 8 = y' / 8))

/-! The bus. -/

/-- Rule R135: one bit transfer. That the chain shifts also while SEL is at its latching level, where rule R67 and U12
leave a device's behaviour open, is the model's choice (log 13); no run clocks the chain there. -/
def Obligations.BitTransferWritesClockDataClock : Prop :=
  ∀ (s : State) (v : Bool),
    (s.shiftBit v).trace =
      s.trace ++ [{ line := .clk, level := false }, { line := .data, level := v }, { line := .clk, level := true }] ∧
    (s.shiftBit v).line = { sel := s.line.sel, clk := true, data := v } ∧
    (s.shiftBit v).chain = shiftChain v s.chain

/-- Rule R136: one word transfer sends `w = 256*a + d`, most significant bit first, and gives no response of its own.
That the chain shifts also while SEL is at its latching level, where rule R67 and U12 leave a device's behaviour open,
is the model's choice (log 13); no run clocks the chain there. -/
def Obligations.WordTransferMovesTheChainByOneWord : Prop :=
  ∀ (s : State) (a : BitVec 4) (d : Byte),
    ShiftedWord s (s.shiftWord a d) (BitVec.ofNat 16 (256 * a.toNat + d.toNat)) ∧
    (s.shiftWord a d).responses = s.responses ∧
    (∀ w : WireWord,
      wordEvents w = (List.range 16).flatMap (fun j => bitEvents (w.getLsbD (15 - j))) ∧
      (wordEvents w).length = 48 ∧ (wordEvents w).count { line := .clk, level := true } = 16)

/-- Rule R69, which the spec derives from R66 and R67: where the words of a bracket end up, whether it shifts more or
fewer than `N`, and what is committed. -/
def Obligations.BracketLeavesTheLastWordsInTheChain : Prop :=
  ∀ (s : State) (sends : List Instr), s.st = .idle → s.chain.length = s.cfg.n →
    (∀ i ∈ sends, (sentWord i).isSome = true) →
    ∃ t, runCommands (.beginTransfer :: (sends ++ [.endTransfer])) s = .next t ∧
      ∀ k, k < s.cfg.n →
        (∀ h : k < sends.length, t.sr? k = sentWord (sends[sends.length - 1 - k]'(by omega))) ∧
        (sends.length ≤ k → t.sr? k = s.sr? (k - sends.length)) ∧
        (∀ w a, t.sr? k = some w →
          t.reg? k a = if a = wordAddress w ∧ a ≠ 0 then some (wordData w) else s.reg? k a)

/-- Rule R131: BEGIN, its word, its effect in `Idle` and its rejection in `Transferring`. -/
def Obligations.BeginOpensABracket : Prop :=
  encode .beginTransfer = .cmd64 [0x0100000000000000#64] ∧
  ∀ s : State,
    (s.st = .idle →
      exec .beginTransfer s =
        .next { s with
          st := .transferring
          line := { s.line with sel := false }
          trace := s.trace ++ [{ line := .sel, level := false }]
          responses := s.responses ++ [.ok] }) ∧
    (s.st = .transferring →
      exec .beginTransfer s =
        .next { s with fault := if s.fault = 0 then 3 else s.fault, responses := s.responses ++ [.err .busState] })

/-- Rule R132: SENDW, its word, the shift of the saturated operands in `Transferring`, its rejection in `Idle`. That a
device shifts also while SEL is at its latching level, where rule R67 and U12 leave its behaviour open, is the model's
choice (log 13), as are the words of operands that rule R116 gives no encoding (log 20); no run has a bracket open
there. -/
def Obligations.SendWordShiftsTheClampedWord : Prop :=
  ∀ (s : State) (address data : Int),
    encode (.sendWord address data) =
      .cmd64 [0x0200#16 ++ BitVec.ofInt 16 address ++ BitVec.ofInt 16 data ++ 0x0000#16] ∧
    (s.st = .transferring →
      ∃ t, exec (.sendWord address data) s = .next t ∧ ShiftedWord s t (busWord address data) ∧
        t.responses = s.responses ++ [.ok]) ∧
    (s.st = .idle →
      exec (.sendWord address data) s =
        .next { s with fault := if s.fault = 0 then 3 else s.fault, responses := s.responses ++ [.err .busState] })

/-- Rule R133: SENDR, its word, the shift of the byte in either order in `Transferring`, its rejection in `Idle`;
`normal` has exactly the effect of SENDW. That a device shifts also while SEL is at its latching level, where rule R67
and U12 leave its behaviour open, is the model's choice (log 13), as are the words of operands that rule R116 gives no
encoding (log 20); no run has a bracket open there. -/
def Obligations.SendRowShiftsTheByteInItsOrder : Prop :=
  ∀ (s : State) (address rowBits : Int) (order : BitOrder),
    encode (.sendRow address rowBits order) =
      .cmd64 [(if order = .reversed then 0x0301#16 else 0x0300#16) ++ BitVec.ofInt 16 address
        ++ BitVec.ofInt 16 rowBits ++ 0x0000#16] ∧
    (s.st = .transferring →
      ∃ t, exec (.sendRow address rowBits order) s = .next t ∧ ShiftedWord s t (rowWord address rowBits order) ∧
        t.responses = s.responses ++ [.ok]) ∧
    (s.st = .idle →
      exec (.sendRow address rowBits order) s =
        .next { s with fault := if s.fault = 0 then 3 else s.fault, responses := s.responses ++ [.err .busState] }) ∧
    exec (.sendRow address rowBits .normal) s = exec (.sendWord address rowBits) s

/-- Rules R134, R68: END, its word, its rejection in `Idle`, and its effect in `Transferring`, with SEL at its
transparent level as it is there in every run (rule R137): every device commits the word it holds. -/
def Obligations.EndCommitsEveryDevice : Prop :=
  encode .endTransfer = .cmd64 [0x0400000000000000#64] ∧
  ∀ s : State,
    (s.st = .transferring → s.line.sel = false →
      ∃ t, exec .endTransfer s = .next t ∧
        t = { s with
          st := .idle
          line := { s.line with sel := true }
          trace := s.trace ++ [{ line := .sel, level := true }]
          chain := t.chain
          responses := s.responses ++ [.ok] } ∧
        t.chain.length = s.chain.length ∧
        ∀ k w, s.sr? k = some w →
          t.sr? k = some w ∧
          ∀ a, t.reg? k a = if a = wordAddress w ∧ a ≠ 0 then some (wordData w) else s.reg? k a) ∧
    (s.st = .idle →
      exec .endTransfer s =
        .next { s with fault := if s.fault = 0 then 3 else s.fault, responses := s.responses ++ [.err .busState] })

/-- Rules R130, R218: a bus command in the other state is rejected and changes nothing but `FAULT`. -/
def Obligations.BusCommandsAreRejectedInTheOtherState : Prop :=
  ∀ (s : State) (address data : Int) (order : BitOrder),
    (s.st = .transferring →
      exec .beginTransfer s =
        .next { s with fault := if s.fault = 0 then 3 else s.fault, responses := s.responses ++ [.err .busState] } ∧
      exec .flush s =
        .next { s with fault := if s.fault = 0 then 3 else s.fault, responses := s.responses ++ [.err .busState] }) ∧
    (s.st = .idle →
      exec (.sendWord address data) s =
        .next { s with fault := if s.fault = 0 then 3 else s.fault, responses := s.responses ++ [.err .busState] } ∧
      exec (.sendRow address data order) s =
        .next { s with fault := if s.fault = 0 then 3 else s.fault, responses := s.responses ++ [.err .busState] } ∧
      exec .endTransfer s =
        .next { s with fault := if s.fault = 0 then 3 else s.fault, responses := s.responses ++ [.err .busState] })

/-- Rules R68, R102: at END each device runs the wire instruction its shift register holds: it becomes what the
meaning of that instruction makes of it. That the meaning of a wire word, as an instruction, is its effect in every
device at once is the model's choice (log 5). -/
def Obligations.LatchRunsTheHeldWireWord : Prop :=
  ∀ (s : State) (k : Nat) (w : WireWord), s.st = .transferring → s.line.sel = false → s.sr? k = some w →
    ∃ t u, exec .endTransfer s = .next t ∧ exec (decodeWire w) s = .next u ∧ t.chain[k]? = u.chain[k]?

/-! The wire words. -/

/-- Rule R102: what each of the sixteen wire words does at commit; the padding is ignored, the shift registers stay,
and nothing of LMX changes. That the model runs one wire word in every device at once is its own choice (log 5). The
seven clauses for addresses 9 to 15 also set the record of what has been written, which is the model's own and no
state of the spec (log 4). -/
def Obligations.WireWordsCommitTheirRegister : Prop :=
  ∀ (s : State) (pad : BitVec 4) (v : Byte),
    exec (.wNoop pad v) s = .next s ∧
    exec (.wRow0 pad v) s = .next { s with chain := s.chain.map fun d => { d with row0 := v } } ∧
    exec (.wRow1 pad v) s = .next { s with chain := s.chain.map fun d => { d with row1 := v } } ∧
    exec (.wRow2 pad v) s = .next { s with chain := s.chain.map fun d => { d with row2 := v } } ∧
    exec (.wRow3 pad v) s = .next { s with chain := s.chain.map fun d => { d with row3 := v } } ∧
    exec (.wRow4 pad v) s = .next { s with chain := s.chain.map fun d => { d with row4 := v } } ∧
    exec (.wRow5 pad v) s = .next { s with chain := s.chain.map fun d => { d with row5 := v } } ∧
    exec (.wRow6 pad v) s = .next { s with chain := s.chain.map fun d => { d with row6 := v } } ∧
    exec (.wRow7 pad v) s = .next { s with chain := s.chain.map fun d => { d with row7 := v } } ∧
    exec (.wDecode pad v) s =
      .next { s with chain := s.chain.map fun d =>
        { d with decode := v, written := { d.written with decode := true } } } ∧
    exec (.wIntensity pad v) s =
      .next { s with chain := s.chain.map fun d =>
        { d with intensity := v, written := { d.written with intensity := true } } } ∧
    exec (.wScanlimit pad v) s =
      .next { s with chain := s.chain.map fun d =>
        { d with scanlimit := v, written := { d.written with scanlimit := true } } } ∧
    exec (.wShutdown pad v) s =
      .next { s with chain := s.chain.map fun d =>
        { d with shutdown := v, written := { d.written with shutdown := true } } } ∧
    exec (.wRsvd13 pad v) s =
      .next { s with chain := s.chain.map fun d =>
        { d with rsvd13 := v, written := { d.written with rsvd13 := true } } } ∧
    exec (.wRsvd14 pad v) s =
      .next { s with chain := s.chain.map fun d =>
        { d with rsvd14 := v, written := { d.written with rsvd14 := true } } } ∧
    exec (.wTest pad v) s =
      .next { s with chain := s.chain.map fun d =>
        { d with test := v, written := { d.written with test := true } } }

/-! FLUSH. -/

/-- Rule R150, and R151, which the spec derives from it: the line writes of a flush, how many they are, the words of
each bracket, what the flush leaves. -/
def Obligations.FlushSendsEightBrackets : Prop :=
  ∀ s : State, s.st = .idle →
    (∃ t, exec .flush s = .next t ∧ t.trace = s.trace ++ flushEvents s ∧
      t = { s with
        trace := t.trace, line := t.line, chain := t.chain, responses := s.responses ++ [.ok] } ∧
      t.line.sel = true) ∧
    (flushEvents s).length = 384 * s.cfg.n + 16 ∧
    (flushEvents s).count { line := .clk, level := true } = 128 * s.cfg.n ∧
    (flushEvents s).count { line := .sel, level := true } = 8 ∧
    ∀ r, r < 8 → (flushWords s r).length = s.cfg.n ∧
      ∀ t, t < s.cfg.n → ∃ w, (flushWords s r)[t]? = some w ∧ wordAddress w = r + 1 ∧
        wordData w = s.fbByte (s.cfg.n - 1 - t) r

/-- Rule R152, which the spec derives from R150, R68 and R69: after FLUSH every row register equals its framebuffer
byte, the framebuffer is unchanged, and the registers 9 to 15 are undisturbed. -/
def Obligations.FlushShowsTheFramebuffer : Prop :=
  ∀ s : State, s.st = .idle → s.chain.length = s.cfg.n →
    ∃ t, exec .flush s = .next t ∧ t.fb = s.fb ∧ t.responses = s.responses ++ [.ok] ∧
      (∀ k r, k < s.cfg.n → r < 8 → t.reg? k (r + 1) = some (s.fbByte k r)) ∧
      (∀ k a, 9 ≤ a → t.reg? k a = s.reg? k a)

/-- Rule R153: after the brackets of rows `0..j-1` the rows below `j` are new on every module and the others still
old. -/
def Obligations.FlushLatchesRowByRow : Prop :=
  ∀ (s : State) (j : Nat), s.chain.length = s.cfg.n → j ≤ 8 →
    ∀ k r, k < s.cfg.n → r < 8 →
      ((List.range j).foldl State.flushRow s).reg? k (r + 1) =
        if r < j then some (s.fbByte k r) else s.reg? k (r + 1)

/-- Rule R155 (c), which the spec derives from R150: a second FLUSH commits the same values and appends the same
events. -/
def Obligations.FlushTwiceLeavesTheDevicesAlike : Prop :=
  ∀ s : State, s.st = .idle → s.chain.length = s.cfg.n →
    ∃ t u, exec .flush s = .next t ∧ exec .flush t = .next u ∧ u.chain = t.chain ∧
      u.trace = s.trace ++ flushEvents s ++ flushEvents s

/-- Rules R89, R71, and R152, which the spec derives: set a pixel and flush, and with the devices in normal operation
(the register values are presumed, log 4) that pixel shows what was set and every other pixel of the display what the
framebuffer held for it. -/
def Obligations.PixelSetAndFlushedIsShown : Prop :=
  ∀ (s : State) (x y : Int) (on : Bool), s.Inv → s.st = .idle → s.cfg.hasPixel x y = true →
    (∀ d ∈ s.chain, d.normalOperation s.cfg.driver = true) →
    ∃ t u, exec (.setPixel x y on) s = .next t ∧ exec .flush t = .next u ∧
      u.pixelLit x.toNat y.toNat = some on ∧
      ∀ x' y' q, x' < s.cfg.w → y' < s.cfg.h → (x' ≠ x.toNat ∨ y' ≠ y.toNat) →
        s.cfg.pixelToPhysical x' y' = some q → u.pixelLit x' y' = some (s.fbBit q)

/-! The framebuffer commands. -/

/-- Rule R161: SETPX, its word, the one bit its pixel resolves to, and its rejection outside the display. The words of
operands that rule R116 gives no encoding are the model's choice (log 20). -/
def Obligations.SetPixelStoresOneBit : Prop :=
  ∀ (s : State) (x y : Int) (on : Bool), s.st ≠ .configError → s.cfg.valid = true → s.fb.wf = true →
    encode (.setPixel x y on) =
      .cmd64 [(if on then 0x1001#16 else 0x1000#16) ++ BitVec.ofInt 16 x ++ BitVec.ofInt 16 y ++ 0x0000#16] ∧
    (0 ≤ x → x < s.cfg.w → 0 ≤ y → y < s.cfg.h →
      ∃ p t, s.cfg.pixelToPhysical x.toNat y.toNat = some p ∧ exec (.setPixel x y on) s = .next t ∧
        (∀ q : Place, q.r < 8 → q.b < 8 → t.fbBit q = if q = p then on else s.fbBit q) ∧
        (∀ a, a ≠ fbAddr p.m p.r → t.fb.read a = s.fb.read a) ∧
        t = { s with fb := t.fb, responses := s.responses ++ [.ok] }) ∧
    ((x < 0 ∨ (s.cfg.w : Int) ≤ x ∨ y < 0 ∨ (s.cfg.h : Int) ≤ y) →
      exec (.setPixel x y on) s =
        .next { s with fault := if s.fault = 0 then 4 else s.fault, responses := s.responses ++ [.err .coordRange] })

/-- Rule R162: INVPX, its word, the one bit it changes, and its rejection outside the display. The words of operands
that rule R116 gives no encoding are the model's choice (log 20). -/
def Obligations.InvertPixelFlipsOneBit : Prop :=
  ∀ (s : State) (x y : Int), s.st ≠ .configError → s.cfg.valid = true → s.fb.wf = true →
    encode (.invertPixel x y) =
      .cmd64 [0x1100#16 ++ BitVec.ofInt 16 x ++ BitVec.ofInt 16 y ++ 0x0000#16] ∧
    (0 ≤ x → x < s.cfg.w → 0 ≤ y → y < s.cfg.h →
      ∃ p t, s.cfg.pixelToPhysical x.toNat y.toNat = some p ∧ exec (.invertPixel x y) s = .next t ∧
        (∀ q : Place, q.r < 8 → q.b < 8 → t.fbBit q = if q = p then !(s.fbBit q) else s.fbBit q) ∧
        (∀ a, a ≠ fbAddr p.m p.r → t.fb.read a = s.fb.read a) ∧
        t = { s with fb := t.fb, responses := s.responses ++ [.ok] }) ∧
    ((x < 0 ∨ (s.cfg.w : Int) ≤ x ∨ y < 0 ∨ (s.cfg.h : Int) ≤ y) →
      exec (.invertPixel x y) s =
        .next { s with fault := if s.fault = 0 then 4 else s.fault, responses := s.responses ++ [.err .coordRange] })

/-- Rule R163: GETPX, its word, the stored bit it answers, and its rejection outside the display. The words of
operands that rule R116 gives no encoding are the model's choice (log 20). -/
def Obligations.GetPixelAnswersTheStoredBit : Prop :=
  ∀ (s : State) (x y : Int), s.st ≠ .configError → s.cfg.valid = true →
    encode (.getPixel x y) =
      .cmd64 [0x1200#16 ++ BitVec.ofInt 16 x ++ BitVec.ofInt 16 y ++ 0x0000#16] ∧
    (0 ≤ x → x < s.cfg.w → 0 ≤ y → y < s.cfg.h →
      ∃ p, s.cfg.pixelToPhysical x.toNat y.toNat = some p ∧
        exec (.getPixel x y) s = .next { s with responses := s.responses ++ [.val (s.fbBit p)] }) ∧
    ((x < 0 ∨ (s.cfg.w : Int) ≤ x ∨ y < 0 ∨ (s.cfg.h : Int) ≤ y) →
      exec (.getPixel x y) s =
        .next { s with fault := if s.fault = 0 then 4 else s.fault, responses := s.responses ++ [.err .coordRange] })

/-- Rule R164: CLRD, its two words, and all `8 * N` bytes set. -/
def Obligations.ClearDisplaySetsEveryByte : Prop :=
  encode (.clearDisplay false) = .cmd64 [0x1800000000000000#64] ∧
  encode (.clearDisplay true) = .cmd64 [0x1801000000000000#64] ∧
  ∀ (s : State) (state : Bool), s.st ≠ .configError → s.fb.wf = true →
    ∃ t, exec (.clearDisplay state) s = .next t ∧
      (∀ m r, m < s.cfg.n → r < 8 → t.fbByte m r = if state then 0xFF#8 else 0x00#8) ∧
      (∀ a, 8 * s.cfg.n ≤ a → t.fb.read a = s.fb.read a) ∧
      t = { s with fb := t.fb, responses := s.responses ++ [.ok] }

/-- Rule R165: CLRM, its word, the eight bytes of the module's chain index, and its rejection outside `0..N-1`. The
words of operands that rule R116 gives no encoding are the model's choice (log 20). -/
def Obligations.ClearModuleSetsOneBlock : Prop :=
  ∀ (s : State) (l : Int) (state : Bool), s.st ≠ .configError → s.cfg.valid = true → s.fb.wf = true →
    encode (.clearModule l state) =
      .cmd64 [(if state then 0x1901#16 else 0x1900#16) ++ BitVec.ofInt 16 l ++ 0x00000000#32] ∧
    (0 ≤ l → l < s.cfg.n →
      ∃ (m : Nat) (t : State), s.cfg.chainOrder[l.toNat]? = some (m : Int) ∧ exec (.clearModule l state) s = .next t ∧
        (∀ m' r, r < 8 → t.fbByte m' r = if m' = m then (if state then 0xFF#8 else 0x00#8) else s.fbByte m' r) ∧
        t = { s with fb := t.fb, responses := s.responses ++ [.ok] }) ∧
    ((l < 0 ∨ (s.cfg.n : Int) ≤ l) →
      exec (.clearModule l state) s =
        .next { s with fault := if s.fault = 0 then 5 else s.fault, responses := s.responses ++ [.err .moduleRange] })

/-- Rule R166: SETMR, its two words, the block it stores (for a rotated module with rows and bits reversed), and its
rejection outside `0..N-1`. The words of operands that rule R116 gives no encoding are the model's choice (log 20). -/
def Obligations.SetModuleRowsStoresTheBlock : Prop :=
  ∀ (s : State) (l : Int) (rows : List Byte), s.st ≠ .configError → s.cfg.valid = true → s.fb.wf = true →
    rows.length = 8 →
    (∃ payload, encode (.setModuleRows l rows) =
        .cmd64 [0x1A00#16 ++ BitVec.ofInt 16 l ++ 0x00000000#32, payload] ∧ payloadBytes payload = rows) ∧
    (0 ≤ l → l < s.cfg.n →
      ∃ (m : Nat) (rot : Bool) (t : State),
        s.cfg.chainOrder[l.toNat]? = some (m : Int) ∧ s.cfg.rotated[l.toNat]? = some rot ∧
        exec (.setModuleRows l rows) s = .next t ∧
        (∀ m' r, r < 8 → t.fbByte m' r =
          if m' = m then (if rot then bitrev8 (rows.getD (7 - r) 0) else rows.getD r 0) else s.fbByte m' r) ∧
        t = { s with fb := t.fb, responses := s.responses ++ [.ok] }) ∧
    ((l < 0 ∨ (s.cfg.n : Int) ≤ l) →
      exec (.setModuleRows l rows) s =
        .next { s with fault := if s.fault = 0 then 5 else s.fault, responses := s.responses ++ [.err .moduleRange] })

/-- Rule R167: SETDR, its header and `N` payload words, and byte `8*L + j` stored as display row `j` of tile `L`,
through the rotation-aware path. -/
def Obligations.SetDisplayRowsStoresEveryBlock : Prop :=
  ∀ (s : State) (rows : List Byte), s.st ≠ .configError → s.cfg.valid = true → s.fb.wf = true →
    rows.length = 8 * s.cfg.n →
    (∃ payload : List CmdWord, encode (.setDisplayRows rows) = .cmd64 (0x1B00000000000000#64 :: payload) ∧
      payload.length = s.cfg.n ∧ payload.flatMap payloadBytes = rows) ∧
    ∃ t, exec (.setDisplayRows rows) s = .next t ∧
      (∀ l r, l < s.cfg.n → r < 8 → ∃ (m : Nat) (rot : Bool),
        s.cfg.chainOrder[l]? = some (m : Int) ∧ s.cfg.rotated[l]? = some rot ∧
        t.fbByte m r = if rot then bitrev8 (rows.getD (8 * l + (7 - r)) 0) else rows.getD (8 * l + r) 0) ∧
      (∀ a, 8 * s.cfg.n ≤ a → t.fb.read a = s.fb.read a) ∧
      t = { s with fb := t.fb, responses := s.responses ++ [.ok] }

/-- Rule R167: "SETDR equals `N` SETMRs, one per `L`, in any order". -/
def Obligations.SetDisplayRowsEqualsModuleStoresInAnyOrder : Prop :=
  ∀ (s : State) (rows : List Byte) (order : List Nat), s.st ≠ .configError → s.cfg.valid = true → s.fb.wf = true →
    rows.length = 8 * s.cfg.n → order.Perm (List.range s.cfg.n) →
    ∃ t u, exec (.setDisplayRows rows) s = .next t ∧
      runCommands (order.map fun l : Nat => .setModuleRows (l : Int) ((rows.drop (8 * l)).take 8)) s = .next u ∧
      u.fb = t.fb

/-- Rule R168 (a) to (d), which the spec derives from R161 to R167: the properties the source requires of the
framebuffer commands. -/
def Obligations.SourcePropertiesOfTheFramebufferCommands : Prop :=
  ∀ s : State, s.Inv → s.st ≠ .configError →
    (∃ t u, exec (.clearDisplay true) s = .next t ∧ exec (.clearDisplay false) t = .next u ∧
      ∀ m r : Nat, m < s.cfg.n → r < 8 → t.fbByte m r = 0xFF#8 ∧ u.fbByte m r = 0x00#8) ∧
    (∀ x y, s.cfg.hasPixel x y = true →
      ∃ t u v, exec (.setPixel x y true) s = .next t ∧ exec (.invertPixel x y) t = .next u ∧
        exec (.getPixel x y) u = .next v ∧ v.responses = u.responses ++ [.val false]) ∧
    (∀ x y x' y' on i, s.cfg.hasPixel x y = true → s.cfg.hasPixel x' y' = true → (x ≠ x' ∨ y ≠ y') →
      (i = .setPixel x y on ∨ i = .invertPixel x y) →
      ∃ t u v bit, exec i s = .next t ∧ exec (.getPixel x' y') s = .next u ∧ exec (.getPixel x' y') t = .next v ∧
        u.responses = s.responses ++ [.val bit] ∧ v.responses = t.responses ++ [.val bit]) ∧
    (∀ (l i j : Nat) (rows : List Byte), l < s.cfg.n → i < 8 → j < 8 → rows.length = 8 →
      ∃ t u, exec (.setModuleRows (l : Int) rows) s = .next t ∧
        exec (.getPixel ((8 * (l % s.cfg.c) + i : Nat) : Int) ((8 * (l / s.cfg.c) + j : Nat) : Int)) t = .next u ∧
        u.responses = t.responses ++ [.val ((rows.getD j 0).getLsbD i)])

/-- Rule R160: the framebuffer commands write no line, append nothing to `TRACE`, touch neither `ENV` nor `ST`, do the
same in `Idle` and in `Transferring`, and write nothing if a check fails. -/
def Obligations.FramebufferCommandsTouchNoLine : Prop :=
  ∀ (i : Instr) (s t : State) (x y : Int) (on : Bool) (rows : List Byte),
    (i = .setPixel x y on ∨ i = .invertPixel x y ∨ i = .getPixel x y ∨ i = .clearDisplay on ∨ i = .clearModule x on ∨
      i = .setModuleRows x rows ∨ i = .setDisplayRows rows) →
    exec i s = .next t →
      t.line = s.line ∧ t.trace = s.trace ∧ t.chain = s.chain ∧ t.st = s.st ∧ t.cfg = s.cfg ∧ t.input = s.input ∧
      (∀ st, s.st ≠ .configError → st ≠ .configError → exec i (s.withSt st) = .next (t.withSt st)) ∧
      (∀ c, t.responses = s.responses ++ [.err c] → t.fb = s.fb)

/-- Rules R24, R25, and R34's table, which the spec derives: of all instructions only six commands ever change the
framebuffer. -/
def Obligations.FramebufferChangesOnlyByItsCommands : Prop :=
  ∀ (i : Instr) (s t : State), exec i s = .next t → t.fb ≠ s.fb →
    (∃ x y on, i = .setPixel x y on) ∨ (∃ x y, i = .invertPixel x y) ∨ (∃ on, i = .clearDisplay on) ∨
      (∃ l on, i = .clearModule l on) ∨ (∃ l rows, i = .setModuleRows l rows) ∨ (∃ rows, i = .setDisplayRows rows)

/-- Rule R59, which the spec derives from the command rules: a store issued twice in a row leaves what it left the
first time; INVPX twice restores the framebuffer. -/
def Obligations.StoresAreIdempotentAndInversionAnInvolution : Prop :=
  ∀ (s t u : State) (i : Instr), s.fb.wf = true → exec i s = .next t → exec i t = .next u →
    (((∃ x y on, i = .setPixel x y on) ∨ (∃ on, i = .clearDisplay on) ∨ (∃ l on, i = .clearModule l on) ∨
        (∃ l rows, i = .setModuleRows l rows) ∨ (∃ rows, i = .setDisplayRows rows)) → u.fb = t.fb) ∧
    (∀ x y, i = .invertPixel x y → u.fb = s.fb)

/-! Faults. -/

/-- Rule R214: coordinates outside the display. -/
def Obligations.CoordinatesOutsideAreRejected : Prop :=
  ∀ (s : State) (x y : Int) (on : Bool), s.st ≠ .configError →
    (x < 0 ∨ (s.cfg.w : Int) ≤ x ∨ y < 0 ∨ (s.cfg.h : Int) ≤ y) →
    exec (.setPixel x y on) s =
      .next { s with fault := if s.fault = 0 then 4 else s.fault, responses := s.responses ++ [.err .coordRange] } ∧
    exec (.invertPixel x y) s =
      .next { s with fault := if s.fault = 0 then 4 else s.fault, responses := s.responses ++ [.err .coordRange] } ∧
    exec (.getPixel x y) s =
      .next { s with fault := if s.fault = 0 then 4 else s.fault, responses := s.responses ++ [.err .coordRange] }

/-- Rule R215: a module index outside `0..N-1`. -/
def Obligations.ModuleIndexOutsideIsRejected : Prop :=
  ∀ (s : State) (l : Int) (on : Bool) (rows : List Byte), s.st ≠ .configError → rows.length = 8 →
    (l < 0 ∨ (s.cfg.n : Int) ≤ l) →
    exec (.clearModule l on) s =
      .next { s with fault := if s.fault = 0 then 5 else s.fault, responses := s.responses ++ [.err .moduleRange] } ∧
    exec (.setModuleRows l rows) s =
      .next { s with fault := if s.fault = 0 then 5 else s.fault, responses := s.responses ++ [.err .moduleRange] }

/-- Rule R212: an invalid configuration gives `ConfigError` with `FAULT = 1`; there every command is answered
`ERR(1)`, every word of the stream is taken alone, and nothing is done. -/
def Obligations.ConfigErrorRefusesEverything : Prop :=
  (∀ o : Offered, o.normalise.valid = false →
    (State.resetWith o).st = .configError ∧ (State.resetWith o).fault = 1) ∧
  ∀ s : State, s.st = .configError →
    (∀ i, isCommand i = true →
      exec i s =
        .next { s with
          fault := if s.fault = 0 then 1 else s.fault, responses := s.responses ++ [.err .configInvalid] }) ∧
    (∀ w rest, s.input = w :: rest →
      step s =
        .next { s with
          input := rest
          fault := if s.fault = 0 then 1 else s.fault
          responses := s.responses ++ [.err .configInvalid] })

/-- Rule R216: a command that faults changes `FAULT`, by the sticky rule, and its response, and nothing else; a step
that faults takes its words from the stream and does the same. -/
def Obligations.FaultsArePrecise : Prop :=
  (∀ (i : Instr) (s t : State) (c : FaultCode), isCommand i = true → exec i s = .next t →
    t.responses = s.responses ++ [.err c] →
    t = { s with fault := if s.fault = 0 then c.number else s.fault, responses := s.responses ++ [.err c] }) ∧
  ∀ (s t : State) (c : FaultCode), step s = .next t → t.responses = s.responses ++ [.err c] →
    t.pc = s.pc + 1 ∧
    t = { s with
      input := t.input
      fault := if s.fault = 0 then c.number else s.fault
      responses := s.responses ++ [.err c] }

/-- Rules R16, R211, R219: each command answers exactly once and raises only the faults of its row; only GETPX answers
a value. -/
def Obligations.EachCommandRaisesOnlyItsOwnFaults : Prop :=
  ∀ (i : Instr) (s t : State), isCommand i = true → exec i s = .next t →
    ∃ r, t.responses = s.responses ++ [r] ∧
      (∀ bit, r = .val bit → ∃ x y, i = .getPixel x y) ∧
      (r = .err .configInvalid ↔ s.st = .configError) ∧
      r ≠ .err .illegalCommand ∧
      (r = .err .busState → i = .beginTransfer ∨ (sentWord i).isSome = true ∨ i = .endTransfer ∨ i = .flush) ∧
      (r = .err .coordRange →
        ∃ x y, s.cfg.hasPixel x y = false ∧ ((∃ on, i = .setPixel x y on) ∨ i = .invertPixel x y ∨ i = .getPixel x y)) ∧
      (r = .err .moduleRange →
        ∃ l, s.cfg.hasModule l = false ∧ ((∃ on, i = .clearModule l on) ∨ ∃ rows, i = .setModuleRows l rows))

/-- Rules R116, R222, and R91, which the spec derives from R81, R82 and R87: with a valid configuration every
instruction that exists answers a next state; a SETMR or SETDR with the wrong number of bytes does not exist and is
refused. That `exec` answers such a term with `malformedCommand`, and before any range check, is the model's inference
from rule R116 (log 11). -/
def Obligations.EveryExistingCommandCompletes : Prop :=
  ∀ (i : Instr) (s : State), s.cfg.valid = true →
    (i.wellBuilt s.cfg.n = true → ∃ t, exec i s = .next t) ∧
    (i.wellBuilt s.cfg.n = false → s.st ≠ .configError → exec i s = .refused .malformedCommand)

/-- Rule R28: the first fault stores its code, later faults leave it, and nothing clears it. -/
def Obligations.FaultRegisterKeepsItsFirstCode : Prop :=
  ∀ s t : State, step s = .next t →
    (s.fault ≠ 0 → t.fault = s.fault) ∧
    (∀ c, s.fault = 0 → t.responses = s.responses ++ [.err c] → t.fault = c.number) ∧
    (t.fault ≠ s.fault → s.fault = 0 ∧ ∃ c, t.responses = s.responses ++ [.err c] ∧ t.fault = c.number)

/-! Encodings. -/

/-- Rules R110, R112, R116: decoding the words of a well-formed instruction, at the front of any stream, gives the
instruction and leaves the rest of the stream. -/
def Obligations.DecodeOfEncodeIsTheInstruction : Prop :=
  ∀ (n : Nat) (i : Instr) (rest : List CmdWord), i.wellFormed n = true →
    (∀ words, encode i = .cmd64 words → decode n (words ++ rest) = .command i rest) ∧
    (∀ w, encode i = .w16 w → decodeWire w = i)

/-- Rules R110, R116: every legal header and payload decodes to a well-formed instruction whose words are exactly
those taken from the stream; every wire word is the word of what it decodes to. -/
def Obligations.EncodeOfDecodeIsTheWords : Prop :=
  (∀ (n : Nat) (stream rest : List CmdWord) (i : Instr), decode n stream = .command i rest →
    i.wellFormed n = true ∧ ∃ words, encode i = .cmd64 words ∧ stream = words ++ rest) ∧
  (∀ w : WireWord, encode (decodeWire w) = .w16 w)

/-- Rules R106, R110, R113: a header is legal exactly when it matches a row of the opcode table under the row's mask.
-/
def Obligations.LegalHeadersAreTheTableRows : Prop :=
  ∀ (w : CmdWord) (payload : List CmdWord),
    (∃ i, decodeHeader (Header.ofWord w) payload = .ok i) ↔ ∃ row ∈ commandRows, w &&& row.2 = row.1

/-- Rule R217: an illegal word is consumed with the payload its `op` calls for, and nothing else happens. -/
def Obligations.IllegalWordsAreConsumedAndRejected : Prop :=
  ∀ (s : State) (w : CmdWord) (payload rest : List CmdWord), s.st ≠ .configError → s.input = w :: (payload ++ rest) →
    payload.length =
      (if w.toNat / 2 ^ 56 = 0x1A then 1 else if w.toNat / 2 ^ 56 = 0x1B then s.cfg.n else 0) →
    (∀ row ∈ commandRows, w &&& row.2 ≠ row.1) →
    step s =
      .next { s with
        input := rest
        fault := if s.fault = 0 then 2 else s.fault
        responses := s.responses ++ [.err .illegalCommand] }

/-- Words of 95_test_vectors.md and of rule R102's table, and what they decode to. -/
def Obligations.SpecWordsDecode : Prop :=
  decode 1 [0x0100000000000000#64] = .command .beginTransfer [] ∧
  decode 1 [0x0200FFFFFFFB0000#64] = .command (.sendWord (-1) (-5)) [] ∧
  decode 1 [0x0301000C01FF0000#64] = .command (.sendRow 12 511 .reversed) [] ∧
  decode 6 [0x10010009000A0000#64] = .command (.setPixel 9 10 true) [] ∧
  decode 6 [0x1901000300000000#64] = .command (.clearModule 3 true) [] ∧
  decode 6 [0x1A00000300000000#64, 0x12000000000000B1#64] =
    .command (.setModuleRows 3 [0xB1#8, 0, 0, 0, 0, 0, 0, 0x12#8]) [] ∧
  decode 1 [0x0202000900000000#64] = .illegal .mustBeZero [] ∧
  decodeWire 0x0C01#16 = .wShutdown 0 1

/-- Rule R118: the response word. -/
def Obligations.ResponseWordsAreEncoded : Prop :=
  Response.word .ok = 0x0000#16 ∧ Response.word (.val false) = 0x0000#16 ∧ Response.word (.val true) = 0x0001#16 ∧
    ∀ c : FaultCode, (Response.word (.err c)).toNat = 256 * c.number.toNat

/-- Rules R105, R110, and log 6 for the waiting: a step runs the command its stream decodes to, on the state with the
command's words taken; with no whole command there it leaves everything as it is. -/
def Obligations.StepRunsTheDecodedCommand : Prop :=
  ∀ s : State, s.st ≠ .configError →
    (∀ i rest, decode s.cfg.n s.input = .command i rest → step s = exec i { s with input := rest }) ∧
    (decode s.cfg.n s.input = .incomplete → step s = .next s)

/-! The whole machine. -/

/-- Every step keeps the invariant. Its clauses are rules R22, R25, R30, R66, R211, R212, and R137, which the spec
derives. -/
def Obligations.EveryStepKeepsTheInvariant : Prop := ∀ s t : State, s.Inv → step s = .next t → t.Inv

/-- Rule R9: no instruction and no step writes any field of `CFG`. -/
def Obligations.ConfigurationNeverChanges : Prop :=
  (∀ (i : Instr) (s t : State), exec i s = .next t → t.cfg = s.cfg) ∧
    ∀ s t : State, step s = .next t → t.cfg = s.cfg

/-- Rules R13, R30: whatever a step does to the lines and the devices it does by the line writes it records: they are
what replaying those writes makes of them. -/
def Obligations.LinesAreTheOnlyWayOut : Prop :=
  ∀ s t : State, step s = .next t →
    ∃ events, t.trace = s.trace ++ events ∧ (t.line, t.chain) = replay (s.line, s.chain) events

/-- Rules R7, R33, R222: nothing LMX does depends on the devices: with any other chain a step does the same to
everything but the chain. And no step is ever refused (rule R116: the decoder builds no ill-formed command). -/
def Obligations.DevicesNeverInfluenceTheCore : Prop :=
  ∀ (s : State) (chain : List Device),
    (∀ t, step s = .next t → ∃ chain', step (s.withChain chain) = .next (t.withChain chain')) ∧
    (∀ why, step s = .fault why → step (s.withChain chain) = .fault why) ∧
    ∀ why, step s ≠ .refused why

/-- Rule R26: the transitions of `ST` over all instructions. -/
def Obligations.BusStateMovesOnlyByBeginAndEnd : Prop :=
  ∀ (i : Instr) (s t : State), exec i s = .next t →
    t.st = s.st ∨ (i = .beginTransfer ∧ s.st = .idle ∧ t.st = .transferring) ∨
      (i = .endTransfer ∧ s.st = .transferring ∧ t.st = .idle)

/-- Rule R63 (a): of the commands only END and FLUSH ever change a device register. -/
def Obligations.RegistersChangeOnlyAtTheLatch : Prop :=
  ∀ (i : Instr) (s t : State), isCommand i = true → i ≠ .endTransfer → i ≠ .flush → exec i s = .next t →
    ∀ k a, t.reg? k a = s.reg? k a

/-! The pseudo-commands. -/

/-- Rule R192: BCAST writes the addressed register of every device, and nothing for address 0. -/
def Obligations.BroadcastWritesEveryDevice : Prop :=
  ∀ (s : State) (address data : Int), s.st = .idle → s.chain.length = s.cfg.n →
    ∃ t, runCommands (bcastCommands s.cfg.n address data) s = .next t ∧ t.st = .idle ∧ t.fb = s.fb ∧
      t.fault = s.fault ∧ t.trace.length = s.trace.length + (48 * s.cfg.n + 2) ∧
      ∀ k a, k < s.cfg.n →
        t.reg? k a =
          if a = (clamp address 0 15).toNat ∧ a ≠ 0 then some (BitVec.ofNat 8 (clamp data 0 255).toNat)
          else s.reg? k a

/-- Rule R193: TARGET writes the addressed register of the one device its logical module resolves to. -/
def Obligations.TargetWritesOneDevice : Prop :=
  ∀ (s : State) (l address data : Int), s.st = .idle → s.cfg.valid = true → s.chain.length = s.cfg.n →
    (s.cfg.hasModule l = false → targetCommands s.cfg l address data = none) ∧
    (s.cfg.hasModule l = true →
      ∃ (mt : Nat) (commands : List Instr) (t : State), s.cfg.chainOrder[l.toNat]? = some (mt : Int) ∧
        targetCommands s.cfg l address data = some commands ∧
        commands[1 + (s.cfg.n - 1 - mt)]? = some (.sendWord address data) ∧ runCommands commands s = .next t ∧
        t.st = .idle ∧ t.fb = s.fb ∧ t.fault = s.fault ∧
        ∀ k a, k < s.cfg.n →
          t.reg? k a =
            if k = mt ∧ a = (clamp address 0 15).toNat ∧ a ≠ 0 then some (BitVec.ofNat 8 (clamp data 0 255).toNat)
            else s.reg? k a)

/-- Rule R194, for any driver parameters that meet the premise of log 7: INIT leaves every device in normal operation
and at the initial intensity. What counts as normal operation is presumed and deduced as log 4 says, not a rule of the
spec. -/
def Obligations.StartupLeavesNormalOperation : Prop :=
  ∀ s : State, s.Inv → s.st = .idle → s.cfg.driver.wellFormed = true →
    ∃ commands t, Pseudo.startup.expand s.cfg = some commands ∧ runCommands commands s = .next t ∧
      t.fault = s.fault ∧
      ∀ d ∈ t.chain, d.normalOperation s.cfg.driver = true ∧
        (d.reg? s.cfg.driver.regIntensity).map (fun v => (v.toNat : Int)) = some s.cfg.intensity0

/-- Rules R243 (2) and R36: no device is in normal operation after reset, nor while no intensity has been written to
it, even after the other four steps of INIT, for any driver parameters that meet the premise of log 7; what its LEDs
show then is the free value of log 4, whatever it is. What counts as normal operation is presumed and deduced as log 4
says. -/
def Obligations.DisplayIsUndescribedUntilStartupIsDone : Prop :=
  (∀ (o : Offered), ∀ d ∈ (State.resetWith o).chain,
    d.written = ControlsWritten.none ∧ ∀ p : DriverParams, d.normalOperation p = false) ∧
  ∀ s : State, s.st = .idle → s.chain.length = s.cfg.n → s.cfg.driver.wellFormed = true →
    (∀ d ∈ s.chain, d.written.has s.cfg.driver.regIntensity = false) →
    ∃ t, runCommands (startupSteps s.cfg) s = .next t ∧
      ∀ k r b, k < s.cfg.n → r < 8 → b < 8 →
        t.ledLit k r b = some (Config.ledOutsideNormal k r b t.trace.length)

/-- Rule R198: DRAWLINE issues only SETPX of pixels inside the display, at most `max(dx, dy) + 1` of them, and the
source's two examples come out. For a configuration that rule R22 rejects, the first part is the model's choice
(log 21). -/
def Obligations.DrawLineStaysInside : Prop :=
  ∀ cfg : Cfg,
    (∀ x0 y0 x1 y1,
      (∀ i ∈ drawLineCommands cfg x0 y0 x1 y1, ∃ x y, i = .setPixel x y true ∧ cfg.hasPixel x y = true) ∧
      (drawLineCommands cfg x0 y0 x1 y1).length ≤ max (x1 - x0).natAbs (y1 - y0).natAbs + 1) ∧
    (cfg.valid = true →
      drawLineCommands cfg 0 0 3 0 = [.setPixel 0 0 true, .setPixel 1 0 true, .setPixel 2 0 true, .setPixel 3 0 true] ∧
      drawLineCommands cfg 0 0 0 0 = [.setPixel 0 0 true])
end

