-- ==== Sys2Proof/Laws/Bits.lean ====
section
/-! SUPPORT. The bit operations on a byte: what each bit of the result is. -/

namespace Sys2Proof

/-- `setbit` replaces bit `i` and leaves the other seven (rule R11). -/
theorem getLsbD_setbit (v : Byte) {i j : Nat} (b : Bool) (hi : i < 8) (hj : j < 8) :
    (setbit v i b).getLsbD j = if j = i then b else v.getLsbD j := by
  unfold setbit
  cases b <;>
  · by_cases hlt : j < i <;> by_cases heq : j = i <;>
      simp [BitVec.getLsbD_or, BitVec.getLsbD_and, BitVec.getLsbD_not, BitVec.getLsbD_shiftLeft, hj, hlt, heq] <;>
      omega

/-- Bit `i` of `bitrev8(v)` is bit `7 - i` of `v` (rule R11). -/
theorem getLsbD_bitrev8 (v : Byte) {i : Nat} (hi : i < 8) : (bitrev8 v).getLsbD i = v.getLsbD (7 - i) := by
  have : i = 0 ∨ i = 1 ∨ i = 2 ∨ i = 3 ∨ i = 4 ∨ i = 5 ∨ i = 6 ∨ i = 7 := by omega
  rcases this with rfl | rfl | rfl | rfl | rfl | rfl | rfl | rfl <;>
  · simp only [bitrev8, BitVec.getLsbD_append]
    simp

/-- "`bitrev8(bitrev8(v)) = v`" (rule R90). -/
theorem bitrev8_bitrev8 (v : Byte) : bitrev8 (bitrev8 v) = v := by
  refine BitVec.eq_of_getLsbD_eq fun i hi => ?_
  rw [getLsbD_bitrev8 _ hi, getLsbD_bitrev8 _ (by omega)]
  congr 1
  omega

end Sys2Proof
end

