-- ==== Sys2Proof/Laws/Configure.lean ====
section
/-! SUPPORT. What a valid configuration gives (rules R22, R82, R91): both tables have an entry for every logical
module, the entries are chain indices, no two are equal, and the translation never runs out of the tables. -/

namespace Sys2Proof

/-- The driver parameters stay as offered (rule R8). -/
@[simp] theorem Offered.normalise_driver (o : Offered) : o.normalise.driver = o.driver := by
  unfold Offered.normalise
  split <;> rfl

/-- The spec's parameters meet the premise (log 7). -/
theorem DriverParams.presumed_wellFormed : DriverParams.presumed.wellFormed = true := by decide

/-- Rule R22, clause by clause. -/
theorem Cfg.valid_iff (cfg : Cfg) :
    cfg.valid = true ↔
      1 ≤ cfg.columns ∧ 1 ≤ cfg.rows ∧ (cfg.chainOrder.length : Int) = cfg.columns * cfg.rows ∧
        (cfg.rotated.length : Int) = cfg.columns * cfg.rows ∧
        (∀ v ∈ cfg.chainOrder, 0 ≤ v ∧ v < cfg.columns * cfg.rows) ∧ cfg.chainOrder.Nodup := by
  simp [Cfg.valid, and_assoc]

/-- `N` as the product of the offered counts. -/
theorem Cfg.valid_n {cfg : Cfg} (h : cfg.valid = true) : (cfg.n : Int) = cfg.columns * cfg.rows := by
  obtain ⟨h1, h2, -⟩ := (Cfg.valid_iff cfg).mp h
  have hc : ((cfg.columns.toNat : Nat) : Int) = cfg.columns := Int.toNat_of_nonneg (by omega)
  have hr : ((cfg.rows.toNat : Nat) : Int) = cfg.rows := Int.toNat_of_nonneg (by omega)
  rw [Cfg.n, Cfg.c, Cfg.r, Int.natCast_mul, hc, hr]

theorem Cfg.valid_c_pos {cfg : Cfg} (h : cfg.valid = true) : 0 < cfg.c := by
  obtain ⟨h1, -⟩ := (Cfg.valid_iff cfg).mp h
  unfold Cfg.c
  omega

theorem Cfg.valid_length_chainOrder {cfg : Cfg} (h : cfg.valid = true) : cfg.chainOrder.length = cfg.n := by
  have h1 := Cfg.valid_n h
  obtain ⟨-, -, h3, -⟩ := (Cfg.valid_iff cfg).mp h
  omega

theorem Cfg.valid_length_rotated {cfg : Cfg} (h : cfg.valid = true) : cfg.rotated.length = cfg.n := by
  have h1 := Cfg.valid_n h
  obtain ⟨-, -, -, h4, -⟩ := (Cfg.valid_iff cfg).mp h
  omega

/-- Every logical module has a chain index (rules R82, R91). -/
theorem Cfg.chainAt_of_lt {cfg : Cfg} (h : cfg.valid = true) {l : Nat} (hl : l < cfg.n) :
    ∃ m, cfg.chainAt l = some m ∧ m < cfg.n ∧ cfg.chainOrder[l]? = some (m : Int) := by
  have hlen := Cfg.valid_length_chainOrder h
  have hn := Cfg.valid_n h
  obtain ⟨-, -, -, -, h5, -⟩ := (Cfg.valid_iff cfg).mp h
  have hlt : l < cfg.chainOrder.length := by omega
  have hget : cfg.chainOrder[l]? = some cfg.chainOrder[l] := List.getElem?_eq_getElem hlt
  obtain ⟨h0, h1⟩ := h5 _ (List.getElem_mem hlt)
  refine ⟨cfg.chainOrder[l].toNat, ?_, by omega, ?_⟩
  · rw [Cfg.chainAt, hget]
    exact if_pos ⟨h0, by omega⟩
  · rw [hget, Int.toNat_of_nonneg h0]

/-- Every logical module has a rotation flag. -/
theorem Cfg.rotatedAt_of_lt {cfg : Cfg} (h : cfg.valid = true) {l : Nat} (hl : l < cfg.n) :
    ∃ rot, cfg.rotatedAt l = some rot := by
  have hlt : l < cfg.rotated.length := by rw [Cfg.valid_length_rotated h]; exact hl
  exact ⟨_, List.getElem?_eq_getElem hlt⟩

/-- Two logical modules never share a chain index (rule R21). -/
theorem Cfg.chainAt_injective {cfg : Cfg} (h : cfg.valid = true) {l l' m : Nat} (hl : cfg.chainAt l = some m)
    (hl' : cfg.chainAt l' = some m) : l = l' := by
  obtain ⟨-, -, -, -, -, h6⟩ := (Cfg.valid_iff cfg).mp h
  have key : ∀ {k : Nat}, cfg.chainAt k = some m → k < cfg.chainOrder.length ∧ cfg.chainOrder[k]? = some (m : Int) := by
    intro k hk
    rw [Cfg.chainAt] at hk
    split at hk
    · rename_i v hv
      split at hk
      · rename_i hb
        injection hk with hk
        have : v = (m : Int) := by rw [← hk, Int.toNat_of_nonneg hb.1]
        exact ⟨(List.getElem?_eq_some_iff.mp hv).1, by rw [hv, this]⟩
      · cases hk
    · cases hk
  obtain ⟨h1, h2⟩ := key hl
  obtain ⟨-, h2'⟩ := key hl'
  exact (List.getElem?_inj h1 h6).mp (h2.trans h2'.symm)

/-- The range check of rule R81, as inequalities on the operands. -/
theorem Cfg.hasPixel_iff (cfg : Cfg) (x y : Int) :
    cfg.hasPixel x y = true ↔ 0 ≤ x ∧ x < cfg.w ∧ 0 ≤ y ∧ y < cfg.h := by
  simp [Cfg.hasPixel]
  omega

/-- The range check of rule R87, as inequalities on the operand. -/
theorem Cfg.hasModule_iff (cfg : Cfg) (l : Int) : cfg.hasModule l = true ↔ 0 ≤ l ∧ l < cfg.n := by
  simp [Cfg.hasModule]

/-- "`L <= (R-1)*C + C - 1 = N - 1`" (rule R82). -/
theorem Cfg.logicalModule_lt {cfg : Cfg} {x y : Nat} (hx : x < cfg.w) (hy : y < cfg.h) :
    cfg.logicalModule x y < cfg.n := by
  have h1 : x / 8 < cfg.c := by unfold Cfg.w at hx; omega
  have h2 : y / 8 + 1 ≤ cfg.r := by unfold Cfg.h at hy; omega
  have h3 : (y / 8 + 1) * cfg.c ≤ cfg.r * cfg.c := Nat.mul_le_mul_right _ h2
  rw [Nat.add_mul, Nat.one_mul] at h3
  rw [Cfg.logicalModule, Cfg.n, Nat.mul_comm cfg.c]
  omega

/-- The translation of a pixel inside the display is a place inside the framebuffer (rules R80, R91). -/
theorem Cfg.pixelToPhysical_inside {cfg : Cfg} (h : cfg.valid = true) {x y : Nat} (hx : x < cfg.w) (hy : y < cfg.h) :
    ∃ p, cfg.pixelToPhysical x y = some p ∧ p.m < cfg.n ∧ p.r < 8 ∧ p.b < 8 ∧
      cfg.chainAt (cfg.logicalModule x y) = some p.m := by
  obtain ⟨m, hm, hlt, -⟩ := Cfg.chainAt_of_lt h (Cfg.logicalModule_lt hx hy)
  obtain ⟨rot, hrot⟩ := Cfg.rotatedAt_of_lt h (Cfg.logicalModule_lt hx hy)
  cases rot
  · refine ⟨{ m := m, r := y % 8, b := x % 8 }, ?_, hlt, by show y % 8 < 8; omega, by show x % 8 < 8; omega, hm⟩
    simp only [Cfg.pixelToPhysical, hm, hrot]
  · refine ⟨{ m := m, r := 7 - y % 8, b := 7 - x % 8 }, ?_, hlt, by show 7 - y % 8 < 8; omega,
      by show 7 - x % 8 < 8; omega, hm⟩
    simp only [Cfg.pixelToPhysical, hm, hrot]

/-- A place the translation gives lies in its module. -/
theorem Cfg.pixelToPhysical_bounds {cfg : Cfg} {x y : Nat} {p : Place} (h : cfg.pixelToPhysical x y = some p) :
    p.m < cfg.n ∧ p.r < 8 ∧ p.b < 8 := by
  simp only [Cfg.pixelToPhysical] at h
  have key : ∀ {l m : Nat}, cfg.chainAt l = some m → m < cfg.n := by
    intro l m hm
    rw [Cfg.chainAt] at hm
    split at hm
    · split at hm
      · rename_i hb
        injection hm with hm
        omega
      · cases hm
    · cases hm
  split at h
  · rename_i m hm _
    injection h with h
    subst h
    exact ⟨key hm, by show 7 - y % 8 < 8; omega, by show 7 - x % 8 < 8; omega⟩
  · rename_i m hm _
    injection h with h
    subst h
    exact ⟨key hm, by show y % 8 < 8; omega, by show x % 8 < 8; omega⟩
  · cases h

end Sys2Proof
end

