-- ==== Sys2Proof/Laws/Device.lean ====
section
/-! SUPPORT. A chained device: what a commit writes, and what shifting a bit and a whole word does to the chain. -/

namespace Sys2Proof.Machine

/-- A commit leaves the shift register (rule R68). -/
@[simp] theorem Device.commit_sr (d : Device) (i : Instr) : (d.commit i).sr = d.sr := by cases i <;> rfl

@[simp] theorem Device.latch_sr (d : Device) : d.latch.sr = d.sr := d.commit_sr _

/-- The commit of a wire word writes the register its address names, if it names one, and no other (rules R68, R102). -/
theorem Device.commit_decodeWire_reg? (d : Device) (w : WireWord) (a : Nat) :
    (d.commit (decodeWire w)).reg? a =
      if a = (w.extractLsb' 8 4).toNat ∧ a ≠ 0 then some (w.extractLsb' 0 8) else d.reg? a := by
  have hlt : (w.extractLsb' 8 4).toNat < 16 := (w.extractLsb' 8 4).isLt
  unfold decodeWire
  generalize (w.extractLsb' 8 4).toNat = n at hlt ⊢
  generalize w.extractLsb' 12 4 = pad
  generalize w.extractLsb' 0 8 = v
  by_cases ha : a < 16
  · interval_cases n <;> interval_cases a <;> rfl
  · obtain ⟨b, rfl⟩ : ∃ b, a = b + 16 := ⟨a - 16, by omega⟩
    rw [if_neg (by omega)]
    interval_cases n <;> rfl

/-- The latch barrier in one device (rule R68). -/
theorem Device.latch_reg? (d : Device) (a : Nat) :
    d.latch.reg? a =
      if a = (d.sr.extractLsb' 8 4).toNat ∧ a ≠ 0 then some (d.sr.extractLsb' 0 8) else d.reg? a :=
  d.commit_decodeWire_reg? d.sr a

@[simp] theorem Device.shiftIn_reg? (bit : Bool) (d : Device) (a : Nat) : (d.shiftIn bit).reg? a = d.reg? a := rfl

@[simp] theorem length_shiftChain (bit : Bool) (chain : List Device) :
    (shiftChain bit chain).length = chain.length := by
  induction chain generalizing bit with
  | nil => rfl
  | cons d rest ih => simp [shiftChain, ih]

/-- The chain after a whole word `w` has been shifted in: the first device holds `w`, every other what its neighbour
held (rule R136). -/
def pushWord : WireWord → List Device → List Device
  | _, [] => []
  | w, d :: rest => { d with sr := w } :: pushWord d.sr rest

@[simp] theorem length_pushWord (w : WireWord) (chain : List Device) : (pushWord w chain).length = chain.length := by
  induction chain generalizing w with
  | nil => rfl
  | cons d rest ih => simp [pushWord, ih]

/-- The shift register after the `j` most significant bits of the incoming word. -/
def mixWord (j : Nat) (incoming held : WireWord) : WireWord := (held <<< j) ||| (incoming >>> (16 - j))

/-- The chain after the `j` most significant bits of `w`. -/
def mixChain (j : Nat) : WireWord → List Device → List Device
  | _, [] => []
  | w, d :: rest => { d with sr := mixWord j w d.sr } :: mixChain j d.sr rest

theorem mixWord_getLsbD {j i : Nat} (incoming held : WireWord) (hi : i < 16) :
    (mixWord j incoming held).getLsbD i =
      if i < j then incoming.getLsbD (16 - j + i) else held.getLsbD (i - j) := by
  by_cases h : i < j
  · rw [mixWord, BitVec.getLsbD_or, BitVec.getLsbD_shiftLeft, BitVec.getLsbD_ushiftRight]
    simp [h]
  · have : incoming.getLsbD (16 - j + i) = false := BitVec.getLsbD_of_ge _ _ (by omega)
    rw [mixWord, BitVec.getLsbD_or, BitVec.getLsbD_shiftLeft, BitVec.getLsbD_ushiftRight, this]
    simp only [hi, h, decide_true, decide_false, Bool.not_false, Bool.true_and, Bool.or_false, if_false]

theorem shiftIn_mixWord {j : Nat} (incoming held : WireWord) (hj : j < 16) :
    (mixWord j incoming held) <<< 1 ||| (BitVec.ofBool (incoming.getLsbD (15 - j))).setWidth 16 =
      mixWord (j + 1) incoming held := by
  refine BitVec.eq_of_getLsbD_eq fun i hi => ?_
  rw [mixWord_getLsbD _ _ hi, BitVec.getLsbD_or, BitVec.getLsbD_shiftLeft]
  rcases Nat.eq_zero_or_pos i with rfl | hpos
  · simp
  · rw [mixWord_getLsbD _ _ (by omega)]
    have h0 : ((BitVec.ofBool (incoming.getLsbD (15 - j))).setWidth 16).getLsbD i = false := by
      simp [BitVec.getLsbD_setWidth]
      intro; omega
    rw [h0]
    have h1 : (i - 1 < j) = (i < j + 1) := by simp; omega
    have h2 : 16 - j + (i - 1) = 16 - (j + 1) + i := by omega
    have h3 : i - 1 - j = i - (j + 1) := by omega
    have h4 : ¬ i < 1 := by omega
    simp only [h1, h2, h3, h4, hi, decide_true, decide_false, Bool.not_false, Bool.true_and, Bool.or_false]

/-- One more bit of the incoming word shifts the chain one bit further (rule R67). -/
theorem shiftChain_mixChain {j : Nat} (w : WireWord) (chain : List Device) (hj : j < 16) :
    shiftChain (w.getLsbD (15 - j)) (mixChain j w chain) = mixChain (j + 1) w chain := by
  induction chain generalizing w with
  | nil => rfl
  | cons d rest ih =>
    have hcarry : (mixWord j w d.sr).getLsbD 15 = d.sr.getLsbD (15 - j) := by
      rw [mixWord_getLsbD _ _ (by omega), if_neg (by omega)]
    rw [mixChain, shiftChain, hcarry, ih, mixChain, Device.shiftIn, shiftIn_mixWord w d.sr hj]

theorem mixChain_zero (w : WireWord) (chain : List Device) : mixChain 0 w chain = chain := by
  induction chain generalizing w with
  | nil => rfl
  | cons d rest ih =>
    have : mixWord 0 w d.sr = d.sr := BitVec.eq_of_getLsbD_eq fun i hi => by
      rw [mixWord_getLsbD _ _ hi]; simp
    rw [mixChain, this, ih]

theorem mixChain_sixteen (w : WireWord) (chain : List Device) : mixChain 16 w chain = pushWord w chain := by
  induction chain generalizing w with
  | nil => rfl
  | cons d rest ih =>
    have : mixWord 16 w d.sr = w := BitVec.eq_of_getLsbD_eq fun i hi => by
      rw [mixWord_getLsbD _ _ hi, if_pos hi]; congr 1; omega
    rw [mixChain, this, pushWord, ih]

end Sys2Proof.Machine
end

