-- ==== Sys2Proof/Laws/Display.lean ====
section
/-! SUPPORT. What an LED shows, in each of its two cases, and what a latch does to the normal operation of a device. -/

namespace Sys2Proof.Machine

/-- In normal operation the LED follows its row register (rule R71). -/
theorem State.ledLit_normal {s : State} {k r b : Nat} {d : Device} (hd : s.chain[k]? = some d) (hr : r < 8)
    (hb : b < 8) (hn : d.normalOperation s.cfg.driver = true) :
    s.ledLit k r b = (d.reg? (r + 1)).map (fun v => v.getLsbD b) := by
  unfold State.ledLit
  rw [hd]
  exact (if_pos ⟨hr, hb⟩).trans (if_pos hn)

/-- Outside normal operation it is the free value (rule R243, log 4). -/
theorem State.ledLit_undescribed {s : State} {k r b : Nat} {d : Device} (hd : s.chain[k]? = some d) (hr : r < 8)
    (hb : b < 8) (hn : d.normalOperation s.cfg.driver = false) :
    s.ledLit k r b = some (Config.ledOutsideNormal k r b s.trace.length) := by
  unfold State.ledLit
  rw [hd]
  exact (if_pos ⟨hr, hb⟩).trans (if_neg (by simp [hn]))

/-- The LED of a pixel of the display is the LED at its place (rules R80, R89). -/
theorem State.pixelLit_inside {s : State} {x y : Nat} {p : Place} (hin : s.cfg.hasPixel x y = true)
    (hp : s.cfg.pixelToPhysical x y = some p) : s.pixelLit x y = s.ledLit p.m p.r p.b := by
  unfold State.pixelLit
  rw [if_pos hin, hp]

/-- Without every control register written there is no normal operation (rule R243). -/
theorem Device.normalOperation_unwritten {p : DriverParams} {d : Device} (h : d.controlsWritten p = false) :
    d.normalOperation p = false := by
  simp [Device.normalOperation, h]

/-- At power-on no control register is written, whatever the parameters (rule R36). -/
@[simp] theorem ControlsWritten.none_has (a : Nat) : ControlsWritten.none.has a = false := by
  unfold ControlsWritten.has
  split <;> rfl

/-- The record has places for the registers 9 to 15 only (log 4). -/
theorem ControlsWritten.bounds_of_has {c : ControlsWritten} {a : Nat} (h : c.has a = true) : 9 ≤ a ∧ a ≤ 15 := by
  unfold ControlsWritten.has at h
  split at h <;> first | omega | cases h

/-- A latch marks the register its word writes, if it is one of 9 to 15, and no other (log 4). -/
theorem Device.latch_written_has (d : Device) (a : Nat) :
    d.latch.written.has a =
      (d.written.has a || decide (a = (d.sr.extractLsb' 8 4).toNat ∧ 9 ≤ a)) := by
  have hlt : (d.sr.extractLsb' 8 4).toNat < 16 := (d.sr.extractLsb' 8 4).isLt
  unfold Device.latch decodeWire
  generalize (d.sr.extractLsb' 8 4).toNat = n at hlt ⊢
  by_cases ha : a < 16
  · by_cases h9 : 9 ≤ a
    · interval_cases n <;> interval_cases a <;> first | exact (Bool.or_true _).symm | exact (Bool.or_false _).symm
    · interval_cases n <;> interval_cases a <;> rfl
  · obtain ⟨b, rfl⟩ : ∃ b, a = b + 16 := ⟨a - 16, by omega⟩
    rw [decide_eq_false (by omega), Bool.or_false]
    interval_cases n <;> rfl

/-- A no-op or a row word leaves a device in or out of normal operation (rule R152). -/
theorem Device.latch_normalOperation (p : DriverParams) {d : Device} (h : (d.sr.extractLsb' 8 4).toNat ≤ 8) :
    d.latch.normalOperation p = d.normalOperation p := by
  have hw : ∀ a, d.latch.written.has a = d.written.has a := fun a => by
    rw [Device.latch_written_has, decide_eq_false (by omega), Bool.or_false]
  have hc : d.latch.controlsWritten p = d.controlsWritten p := by simp only [Device.controlsWritten, hw]
  cases hd : d.controlsWritten p with
  | false => rw [Device.normalOperation_unwritten hd, Device.normalOperation_unwritten (hc.trans hd)]
  | true =>
    have hr : ∀ a, 9 ≤ a → d.latch.reg? a = d.reg? a := fun a ha => by
      rw [Device.latch_reg?, if_neg (by omega)]
    simp only [Device.controlsWritten, Bool.and_eq_true] at hd
    obtain ⟨⟨⟨⟨h1, h2⟩, h3⟩, h4⟩, h5⟩ := hd
    simp only [Device.normalOperation, hc, Device.holds, Device.holdsIntensity,
      hr _ (ControlsWritten.bounds_of_has h1).1, hr _ (ControlsWritten.bounds_of_has h2).1,
      hr _ (ControlsWritten.bounds_of_has h3).1, hr _ (ControlsWritten.bounds_of_has h4).1,
      hr _ (ControlsWritten.bounds_of_has h5).1]

end Sys2Proof.Machine
end

