-- ==== Sys2Proof/Laws/Encoding.lean ====
section
/-! SUPPORT. The parts of a command word and of a wire word: putting the fields together and taking them apart. -/

namespace Sys2Proof

/-- Taking the fields of a header built from fields gives them back (rule R104). -/
theorem Header.ofWord_toWord (h : Header) : Header.ofWord h.toWord = h := by
  obtain ⟨op, mz, s, a, b, cz⟩ := h
  simp only [Header.ofWord, Header.toWord, Header.mk.injEq]
  refine ⟨?_, ?_, ?_, ?_, ?_, ?_⟩
  · refine BitVec.eq_of_getLsbD_eq fun i hi => ?_
    rw [BitVec.getLsbD_extractLsb']
    simp only [BitVec.getLsbD_append, hi, decide_true, Bool.true_and]
    repeat rw [if_neg (by omega)]
    congr 1; omega
  · refine BitVec.eq_of_getLsbD_eq fun i hi => ?_
    rw [BitVec.getLsbD_extractLsb']
    simp only [BitVec.getLsbD_append, hi, decide_true, Bool.true_and]
    rw [if_neg (by omega), if_neg (by omega), if_neg (by omega), if_neg (by omega), if_pos (by omega)]
    congr 1; omega
  · simp only [BitVec.getLsbD_append]
    rw [if_neg (by omega), if_neg (by omega), if_neg (by omega), if_pos (by omega)]
    simp
  · refine BitVec.eq_of_getLsbD_eq fun i hi => ?_
    rw [BitVec.getLsbD_extractLsb']
    simp only [BitVec.getLsbD_append, hi, decide_true, Bool.true_and]
    rw [if_neg (by omega), if_neg (by omega), if_pos (by omega)]
    congr 1; omega
  · refine BitVec.eq_of_getLsbD_eq fun i hi => ?_
    rw [BitVec.getLsbD_extractLsb']
    simp only [BitVec.getLsbD_append, hi, decide_true, Bool.true_and]
    rw [if_neg (by omega), if_pos (by omega)]
    congr 1; omega
  · refine BitVec.eq_of_getLsbD_eq fun i hi => ?_
    rw [BitVec.getLsbD_extractLsb']
    simp only [BitVec.getLsbD_append, hi, decide_true, Bool.true_and]
    rw [if_pos (by omega)]
    congr 1; omega

/-- A word is the header of its own fields: no bit of it is dropped (rule R104). -/
theorem Header.toWord_ofWord (w : CmdWord) : (Header.ofWord w).toWord = w := by
  refine BitVec.eq_of_getLsbD_eq fun i hi => ?_
  simp only [Header.ofWord, Header.toWord, BitVec.getLsbD_append, BitVec.getLsbD_extractLsb', BitVec.getLsbD_ofBool]
  have h1 : ∀ {k n : Nat}, k + n = i → w.getLsbD (k + n) = w.getLsbD i := fun h => by rw [h]
  split
  · rw [h1 (by omega)]; simp_all
  · split
    · rw [h1 (by omega)]; simp_all
    · split
      · rw [h1 (by omega)]; simp_all
      · split
        · have : i = 48 := by omega
          subst this; simp
        · split
          · rw [h1 (by omega)]; simp_all
          · rw [h1 (by omega)]
            have : i - 16 - 16 - 16 - 1 - 7 < 8 := by omega
            simp [this]

/-- A 16-bit operand read as a signed integer comes back from its field (rule R108). -/
theorem toInt_ofInt_fits16 {v : Int} (h : fits16 v = true) : (BitVec.ofInt 16 v).toInt = v := by
  simp only [fits16, Bool.and_eq_true, decide_eq_true_eq] at h
  rw [BitVec.toInt_ofInt]
  exact Int.bmod_eq_of_le (by omega) (by omega)

/-- What a field reads as always fits (rule R108). -/
theorem fits16_toInt (f : BitVec 16) : fits16 f.toInt = true := by
  have h1 := BitVec.toInt_lt (x := f)
  have h2 := BitVec.le_toInt (x := f)
  simp only [fits16, Bool.and_eq_true, decide_eq_true_eq]
  omega

/-- The payload word of eight bytes carries them in order (rule R112). -/
theorem payloadBytes_packed (b0 b1 b2 b3 b4 b5 b6 b7 : Byte) :
    payloadBytes (b7 ++ b6 ++ b5 ++ b4 ++ b3 ++ b2 ++ b1 ++ b0) = [b0, b1, b2, b3, b4, b5, b6, b7] := by
  simp only [payloadBytes, List.cons.injEq, and_true]
  refine ⟨?_, ?_, ?_, ?_, ?_, ?_, ?_, ?_⟩ <;>
  · refine BitVec.eq_of_getLsbD_eq fun i hi => ?_
    rw [BitVec.getLsbD_extractLsb']
    simp only [BitVec.getLsbD_append, hi, decide_true, Bool.true_and]
    repeat first
      | rw [if_pos (by omega)]
      | rw [if_neg (by omega)]
    congr 1
    omega

/-- Packing the bytes of a payload word gives the word back (rule R112). -/
theorem packRows_payloadBytes (p : CmdWord) (rest : List Byte) :
    packRows (payloadBytes p ++ rest) = p :: packRows rest := by
  simp only [payloadBytes, List.cons_append, List.nil_append, packRows, List.cons.injEq, and_true]
  refine BitVec.eq_of_getLsbD_eq fun i hi => ?_
  simp only [BitVec.getLsbD_append, BitVec.getLsbD_extractLsb']
  have h1 : ∀ {k n : Nat}, k + n = i → p.getLsbD (k + n) = p.getLsbD i := fun h => by rw [h]
  repeat' split
  all_goals
    rw [h1 (by omega)]
    have hlt : ∀ {k : Nat}, k < 8 → decide (k < 8) = true := fun h => decide_eq_true h
    rw [hlt (by omega), Bool.true_and]

/-- Reading back the words that eight times `k` bytes were packed into gives the bytes (rule R112). -/
theorem payloadBytes_packRows (k : Nat) (rows : List Byte) (h : rows.length = 8 * k) :
    (packRows rows).length = k ∧ (packRows rows).flatMap payloadBytes = rows := by
  induction k generalizing rows with
  | zero =>
    have : rows = [] := List.length_eq_zero_iff.mp (by omega)
    subst this
    exact ⟨rfl, rfl⟩
  | succ k ih =>
    match rows, h with
    | b0 :: b1 :: b2 :: b3 :: b4 :: b5 :: b6 :: b7 :: rest, h =>
      obtain ⟨h1, h2⟩ := ih rest (by simp only [List.length_cons] at h; omega)
      exact ⟨by simp [packRows, h1], by rw [packRows, List.flatMap_cons, payloadBytes_packed, h2]; rfl⟩

/-- The fields of a wire word (rule R101). -/
theorem wireCode_fields (pad addr : BitVec 4) (data : Byte) :
    (wireCode pad addr data).extractLsb' 12 4 = pad ∧ (wireCode pad addr data).extractLsb' 8 4 = addr ∧
      (wireCode pad addr data).extractLsb' 0 8 = data := by
  refine ⟨?_, ?_, ?_⟩ <;>
  · refine BitVec.eq_of_getLsbD_eq fun i hi => ?_
    rw [BitVec.getLsbD_extractLsb']
    simp only [wireCode, BitVec.getLsbD_append, hi, decide_true, Bool.true_and]
    repeat first
      | rw [if_pos (by omega)]
      | rw [if_neg (by omega)]
    congr 1
    omega

/-- A wire word is the code of its own fields (rule R101). -/
theorem wireCode_extract (w : WireWord) :
    wireCode (w.extractLsb' 12 4) (w.extractLsb' 8 4) (w.extractLsb' 0 8) = w := by
  refine BitVec.eq_of_getLsbD_eq fun i hi => ?_
  simp only [wireCode, BitVec.getLsbD_append, BitVec.getLsbD_extractLsb']
  have h1 : ∀ {k n : Nat}, k + n = i → w.getLsbD (k + n) = w.getLsbD i := fun h => by rw [h]
  repeat' split
  · rw [h1 (by omega), decide_eq_true (by omega), Bool.true_and]
  · rw [h1 (by omega), decide_eq_true (by omega), Bool.true_and]
  · rw [h1 (by omega), decide_eq_true (by omega), Bool.true_and]

/-- The value of a wire word: `w = 256*a + d` (rule R136). -/
theorem toNat_wireCode (addr : BitVec 4) (data : Byte) : (wireCode 0 addr data).toNat = 256 * addr.toNat + data.toNat := by
  have h2 := data.isLt
  simp only [wireCode, BitVec.toNat_append]
  rw [← Nat.shiftLeft_add_eq_or_of_lt (by omega), Nat.shiftLeft_eq]
  simp
  omega

end Sys2Proof
end

