-- ==== Sys2Proof/Laws/Memory.lean ====
section
/-! SUPPORT. The framebuffer space: a read after a write, the canonical form kept by every operation, and equal reads
make equal memories. -/

namespace Sys2Proof.Machine

theorem Memory.wfFrom_cons {lo b : Nat} {w : Byte} {rest : Memory} :
    Memory.wfFrom lo ((b, w) :: rest) = true ↔ lo ≤ b ∧ w ≠ Memory.blank ∧ Memory.wfFrom (b + 1) rest = true := by
  simp [Memory.wfFrom, and_assoc]

theorem Memory.wfFrom_mono {lo lo' : Nat} {m : Memory} (h : lo' ≤ lo) (hw : Memory.wfFrom lo m = true) :
    Memory.wfFrom lo' m = true := by
  cases m with
  | nil => rfl
  | cons c rest =>
    obtain ⟨h1, h2⟩ := Memory.wfFrom_cons.mp hw
    exact Memory.wfFrom_cons.mpr ⟨h.trans h1, h2⟩

/-- An address below everything listed reads as the blank byte. -/
theorem Memory.read_below_first {lo a : Nat} {m : Memory} (hw : Memory.wfFrom lo m = true) (ha : a < lo) :
    m.read a = Memory.blank := by
  induction m generalizing lo with
  | nil => rfl
  | cons c rest ih =>
    obtain ⟨b, w⟩ := c
    obtain ⟨h1, -, h3⟩ := Memory.wfFrom_cons.mp hw
    rw [Memory.read, if_neg (by omega)]
    exact ih h3 (by omega)

/-- A write leaves every other address as it was. -/
theorem Memory.read_write_other (m : Memory) {a b : Nat} (v : Byte) (h : b ≠ a) :
    (m.write a v).read b = m.read b := by
  induction m with
  | nil =>
    simp only [Memory.write]
    split <;> simp [Memory.read, h]
  | cons c rest ih =>
    obtain ⟨x, w⟩ := c
    simp only [Memory.write]
    split
    · split <;> simp [Memory.read, h]
    · split
      · subst_vars
        split <;> simp [Memory.read, h]
      · simp [Memory.read, ih]

theorem Memory.read_write_same_from {lo a : Nat} {m : Memory} (v : Byte) (hw : Memory.wfFrom lo m = true) :
    (m.write a v).read a = v := by
  induction m generalizing lo with
  | nil =>
    simp only [Memory.write]
    split <;> simp_all [Memory.read]
  | cons c rest ih =>
    obtain ⟨x, w⟩ := c
    obtain ⟨-, -, h3⟩ := Memory.wfFrom_cons.mp hw
    simp only [Memory.write]
    split
    · rename_i hax
      split
      · rename_i hv
        rw [hv, Memory.read, if_neg (by omega)]
        exact Memory.read_below_first h3 (by omega)
      · simp [Memory.read]
    · split
      · rename_i hax
        subst hax
        split
        · rename_i hv
          rw [hv]
          exact Memory.read_below_first h3 (by omega)
        · simp [Memory.read]
      · rename_i hax
        rw [Memory.read, if_neg hax]
        exact ih h3

/-- A write is what the next read of that address gives. -/
theorem Memory.read_write_same {m : Memory} (hw : m.wf = true) (a : Nat) (v : Byte) : (m.write a v).read a = v :=
  Memory.read_write_same_from v hw

theorem Memory.wfFrom_write {lo a : Nat} {m : Memory} (v : Byte) (hw : Memory.wfFrom lo m = true) (ha : lo ≤ a) :
    Memory.wfFrom lo (m.write a v) = true := by
  induction m generalizing lo with
  | nil =>
    simp only [Memory.write]
    split
    · rfl
    · exact Memory.wfFrom_cons.mpr ⟨ha, ‹_›, rfl⟩
  | cons c rest ih =>
    obtain ⟨x, w⟩ := c
    obtain ⟨h1, h2, h3⟩ := Memory.wfFrom_cons.mp hw
    simp only [Memory.write]
    split
    · rename_i hax
      split
      · exact hw
      · exact Memory.wfFrom_cons.mpr ⟨ha, ‹_›, Memory.wfFrom_cons.mpr ⟨hax, h2, h3⟩⟩
    · split
      · rename_i hax
        subst hax
        split
        · exact Memory.wfFrom_mono (by omega) h3
        · exact Memory.wfFrom_cons.mpr ⟨ha, ‹_›, h3⟩
      · exact Memory.wfFrom_cons.mpr ⟨h1, h2, ih h3 (by omega)⟩

/-- A write keeps the canonical form. -/
theorem Memory.wf_write {m : Memory} (hw : m.wf = true) (a : Nat) (v : Byte) : (m.write a v).wf = true :=
  Memory.wfFrom_write v hw (Nat.zero_le a)

/-- The listed cells after a write are old ones or the one written. -/
theorem Memory.mem_write {m : Memory} {a : Nat} {v : Byte} {c : Host.Cell} (h : c ∈ m.write a v) :
    c ∈ m ∨ c = (a, v) := by
  induction m with
  | nil =>
    simp only [Memory.write] at h
    split at h <;> simp_all
  | cons d rest ih =>
    obtain ⟨x, w⟩ := d
    simp only [Memory.write] at h
    split at h
    · split at h
      · exact .inl h
      · rcases List.mem_cons.mp h with rfl | h
        · exact .inr rfl
        · exact .inl h
    · split at h
      · split at h
        · exact .inl (List.mem_cons_of_mem _ h)
        · rcases List.mem_cons.mp h with rfl | h
          · exact .inr rfl
          · exact .inl (List.mem_cons_of_mem _ h)
      · rcases List.mem_cons.mp h with rfl | h
        · exact .inl List.mem_cons_self
        · rcases ih h with h | h
          · exact .inl (List.mem_cons_of_mem _ h)
          · exact .inr h

/-- A write inside the limit keeps every cell inside it. -/
theorem Memory.below_write {m : Memory} {limit a : Nat} (hb : m.below limit = true) (ha : a < limit) (v : Byte) :
    (m.write a v).below limit = true := by
  simp only [Memory.below, List.all_eq_true, decide_eq_true_eq] at hb ⊢
  intro c hc
  rcases Memory.mem_write hc with h | rfl
  · exact hb c h
  · exact ha

/-- Writing bytes one after another keeps the canonical form. -/
theorem Memory.wf_writeBytes {m : Memory} (hw : m.wf = true) (a : Nat) (bytes : List Byte) :
    (m.writeBytes a bytes).wf = true := by
  induction bytes generalizing m a with
  | nil => exact hw
  | cons v rest ih => exact ih (Memory.wf_write hw a v) (a + 1)

/-- Bytes written inside the limit keep every cell inside it. -/
theorem Memory.below_writeBytes {m : Memory} {limit a : Nat} {bytes : List Byte} (hb : m.below limit = true)
    (ha : a + bytes.length ≤ limit) : (m.writeBytes a bytes).below limit = true := by
  induction bytes generalizing m a with
  | nil => exact hb
  | cons v rest ih =>
    simp only [List.length_cons] at ha
    exact ih (Memory.below_write hb (by omega) v) (by omega)

/-- Outside the bytes written, every address reads as before. -/
theorem Memory.read_writeBytes_outside (m : Memory) {a b : Nat} {bytes : List Byte}
    (h : b < a ∨ a + bytes.length ≤ b) : (m.writeBytes a bytes).read b = m.read b := by
  induction bytes generalizing m a with
  | nil => rfl
  | cons v rest ih =>
    simp only [List.length_cons] at h
    rw [Memory.writeBytes, ih _ (by omega), Memory.read_write_other _ _ (by omega)]

/-- Byte `i` written is what address `a + i` reads as. -/
theorem Memory.read_writeBytes_inside {m : Memory} (hw : m.wf = true) {a i : Nat} {bytes : List Byte}
    (h : i < bytes.length) : (m.writeBytes a bytes).read (a + i) = bytes[i] := by
  induction bytes generalizing m a i with
  | nil => exact absurd h (Nat.not_lt_zero _)
  | cons v rest ih =>
    cases i with
    | zero =>
      rw [Memory.writeBytes, Memory.read_writeBytes_outside _ (.inl (by omega))]
      exact Memory.read_write_same hw a v
    | succ i =>
      simp only [List.length_cons] at h
      have := ih (Memory.wf_write hw a v) (a := a + 1) (i := i) (by omega)
      rw [Memory.writeBytes, List.getElem_cons_succ, ← this]
      congr 1
      omega

theorem Memory.eq_of_read_eq_from {lo : Nat} {m m' : Memory} (hw : Memory.wfFrom lo m = true)
    (hw' : Memory.wfFrom lo m' = true) (h : ∀ a, m.read a = m'.read a) : m = m' := by
  induction m generalizing lo m' with
  | nil =>
    cases m' with
    | nil => rfl
    | cons c rest =>
      obtain ⟨b, w⟩ := c
      obtain ⟨-, h2, -⟩ := Memory.wfFrom_cons.mp hw'
      exact absurd (by simpa [Memory.read] using (h b).symm) h2
  | cons c rest ih =>
    obtain ⟨b, w⟩ := c
    obtain ⟨h1, h2, h3⟩ := Memory.wfFrom_cons.mp hw
    cases m' with
    | nil => exact absurd (by simpa [Memory.read] using h b) h2
    | cons c' rest' =>
      obtain ⟨b', w'⟩ := c'
      obtain ⟨h1', h2', h3'⟩ := Memory.wfFrom_cons.mp hw'
      have hb : b = b' := by
        rcases Nat.lt_trichotomy b b' with hlt | heq | hgt
        · refine absurd ?_ h2
          have := h b
          rwa [Memory.read, if_pos rfl, Memory.read, if_neg (by omega), Memory.read_below_first h3' (by omega)] at this
        · exact heq
        · refine absurd ?_ h2'
          have := (h b').symm
          rwa [Memory.read, if_pos rfl, Memory.read, if_neg (by omega), Memory.read_below_first h3 (by omega)] at this
      subst hb
      have hww : w = w' := by simpa [Memory.read] using h b
      subst hww
      rw [ih h3 h3']
      intro a
      by_cases ha : a = b
      · rw [Memory.read_below_first h3 (by omega), Memory.read_below_first h3' (by omega)]
      · simpa [Memory.read, ha] using h a

/-- Canonical memories that read alike are the same list. -/
theorem Memory.eq_of_read_eq {m m' : Memory} (hw : m.wf = true) (hw' : m'.wf = true)
    (h : ∀ a, m.read a = m'.read a) : m = m' :=
  Memory.eq_of_read_eq_from hw hw' h

end Sys2Proof.Machine
end

