-- ==== Sys2Proof/Laws/State.lean ====
section
/-! SUPPORT. One lemma per field per update of the state: what each named update writes and what it leaves. -/

namespace Sys2Proof.Machine

variable (s : State)

/-! `State.withInput`. -/

@[simp] theorem State.withInput_cfg (words : List CmdWord) : (s.withInput words).cfg = s.cfg := rfl
@[simp] theorem State.withInput_st (words : List CmdWord) : (s.withInput words).st = s.st := rfl
@[simp] theorem State.withInput_fb (words : List CmdWord) : (s.withInput words).fb = s.fb := rfl
@[simp] theorem State.withInput_line (words : List CmdWord) : (s.withInput words).line = s.line := rfl
@[simp] theorem State.withInput_fault (words : List CmdWord) : (s.withInput words).fault = s.fault := rfl
@[simp] theorem State.withInput_trace (words : List CmdWord) : (s.withInput words).trace = s.trace := rfl
@[simp] theorem State.withInput_chain (words : List CmdWord) : (s.withInput words).chain = s.chain := rfl
@[simp] theorem State.withInput_input (words : List CmdWord) : (s.withInput words).input = words := rfl
@[simp] theorem State.withInput_responses (words : List CmdWord) : (s.withInput words).responses = s.responses := rfl

/-! `State.withFb`. -/

@[simp] theorem State.withFb_cfg (fb : Memory) : (s.withFb fb).cfg = s.cfg := rfl
@[simp] theorem State.withFb_st (fb : Memory) : (s.withFb fb).st = s.st := rfl
@[simp] theorem State.withFb_fb (fb : Memory) : (s.withFb fb).fb = fb := rfl
@[simp] theorem State.withFb_line (fb : Memory) : (s.withFb fb).line = s.line := rfl
@[simp] theorem State.withFb_fault (fb : Memory) : (s.withFb fb).fault = s.fault := rfl
@[simp] theorem State.withFb_trace (fb : Memory) : (s.withFb fb).trace = s.trace := rfl
@[simp] theorem State.withFb_chain (fb : Memory) : (s.withFb fb).chain = s.chain := rfl
@[simp] theorem State.withFb_input (fb : Memory) : (s.withFb fb).input = s.input := rfl
@[simp] theorem State.withFb_responses (fb : Memory) : (s.withFb fb).responses = s.responses := rfl

/-! `State.withSt`. -/

@[simp] theorem State.withSt_cfg (st : BusState) : (s.withSt st).cfg = s.cfg := rfl
@[simp] theorem State.withSt_st (st : BusState) : (s.withSt st).st = st := rfl
@[simp] theorem State.withSt_fb (st : BusState) : (s.withSt st).fb = s.fb := rfl
@[simp] theorem State.withSt_line (st : BusState) : (s.withSt st).line = s.line := rfl
@[simp] theorem State.withSt_fault (st : BusState) : (s.withSt st).fault = s.fault := rfl
@[simp] theorem State.withSt_trace (st : BusState) : (s.withSt st).trace = s.trace := rfl
@[simp] theorem State.withSt_chain (st : BusState) : (s.withSt st).chain = s.chain := rfl
@[simp] theorem State.withSt_input (st : BusState) : (s.withSt st).input = s.input := rfl
@[simp] theorem State.withSt_responses (st : BusState) : (s.withSt st).responses = s.responses := rfl

/-! `State.withChain`. -/

@[simp] theorem State.withChain_cfg (chain : List Device) : (s.withChain chain).cfg = s.cfg := rfl
@[simp] theorem State.withChain_st (chain : List Device) : (s.withChain chain).st = s.st := rfl
@[simp] theorem State.withChain_fb (chain : List Device) : (s.withChain chain).fb = s.fb := rfl
@[simp] theorem State.withChain_line (chain : List Device) : (s.withChain chain).line = s.line := rfl
@[simp] theorem State.withChain_fault (chain : List Device) : (s.withChain chain).fault = s.fault := rfl
@[simp] theorem State.withChain_trace (chain : List Device) : (s.withChain chain).trace = s.trace := rfl
@[simp] theorem State.withChain_chain (chain : List Device) : (s.withChain chain).chain = chain := rfl
@[simp] theorem State.withChain_input (chain : List Device) : (s.withChain chain).input = s.input := rfl
@[simp] theorem State.withChain_responses (chain : List Device) : (s.withChain chain).responses = s.responses := rfl

/-! `State.respond`. -/

@[simp] theorem State.respond_cfg (r : Response) : (s.respond r).cfg = s.cfg := rfl
@[simp] theorem State.respond_st (r : Response) : (s.respond r).st = s.st := rfl
@[simp] theorem State.respond_fb (r : Response) : (s.respond r).fb = s.fb := rfl
@[simp] theorem State.respond_line (r : Response) : (s.respond r).line = s.line := rfl
@[simp] theorem State.respond_fault (r : Response) : (s.respond r).fault = s.fault := rfl
@[simp] theorem State.respond_trace (r : Response) : (s.respond r).trace = s.trace := rfl
@[simp] theorem State.respond_chain (r : Response) : (s.respond r).chain = s.chain := rfl
@[simp] theorem State.respond_input (r : Response) : (s.respond r).input = s.input := rfl
@[simp] theorem State.respond_responses (r : Response) : (s.respond r).responses = s.responses ++ [r] := rfl

/-! `State.raise`. -/

@[simp] theorem State.raise_cfg (c : FaultCode) : (s.raise c).cfg = s.cfg := rfl
@[simp] theorem State.raise_st (c : FaultCode) : (s.raise c).st = s.st := rfl
@[simp] theorem State.raise_fb (c : FaultCode) : (s.raise c).fb = s.fb := rfl
@[simp] theorem State.raise_line (c : FaultCode) : (s.raise c).line = s.line := rfl
@[simp] theorem State.raise_fault (c : FaultCode) : (s.raise c).fault = stickyFault s.fault c := rfl
@[simp] theorem State.raise_trace (c : FaultCode) : (s.raise c).trace = s.trace := rfl
@[simp] theorem State.raise_chain (c : FaultCode) : (s.raise c).chain = s.chain := rfl
@[simp] theorem State.raise_input (c : FaultCode) : (s.raise c).input = s.input := rfl
@[simp] theorem State.raise_responses (c : FaultCode) : (s.raise c).responses = s.responses ++ [.err c] := rfl

/-! `State.drive`. -/

@[simp] theorem State.drive_cfg (l : Line) (v : Bool) : (s.drive l v).cfg = s.cfg := rfl
@[simp] theorem State.drive_st (l : Line) (v : Bool) : (s.drive l v).st = s.st := rfl
@[simp] theorem State.drive_fb (l : Line) (v : Bool) : (s.drive l v).fb = s.fb := rfl
@[simp] theorem State.drive_line (l : Line) (v : Bool) : (s.drive l v).line = s.line.set l v := rfl
@[simp] theorem State.drive_fault (l : Line) (v : Bool) : (s.drive l v).fault = s.fault := rfl
@[simp] theorem State.drive_trace (l : Line) (v : Bool) : (s.drive l v).trace = s.trace ++ [{ line := l, level := v }] := rfl
@[simp] theorem State.drive_chain (l : Line) (v : Bool) : (s.drive l v).chain = reactTo l (s.line.get l) v s.line.data s.chain := rfl
@[simp] theorem State.drive_input (l : Line) (v : Bool) : (s.drive l v).input = s.input := rfl
@[simp] theorem State.drive_responses (l : Line) (v : Bool) : (s.drive l v).responses = s.responses := rfl

/-! `State.storePixel`. -/

@[simp] theorem State.storePixel_cfg (p : Place) (on : Bool) : (s.storePixel p on).cfg = s.cfg := rfl
@[simp] theorem State.storePixel_st (p : Place) (on : Bool) : (s.storePixel p on).st = s.st := rfl
@[simp] theorem State.storePixel_fb (p : Place) (on : Bool) : (s.storePixel p on).fb = s.fb.write (fbAddr p.m p.r) (setbit (s.fbByte p.m p.r) p.b on) := rfl
@[simp] theorem State.storePixel_line (p : Place) (on : Bool) : (s.storePixel p on).line = s.line := rfl
@[simp] theorem State.storePixel_fault (p : Place) (on : Bool) : (s.storePixel p on).fault = s.fault := rfl
@[simp] theorem State.storePixel_trace (p : Place) (on : Bool) : (s.storePixel p on).trace = s.trace := rfl
@[simp] theorem State.storePixel_chain (p : Place) (on : Bool) : (s.storePixel p on).chain = s.chain := rfl
@[simp] theorem State.storePixel_input (p : Place) (on : Bool) : (s.storePixel p on).input = s.input := rfl
@[simp] theorem State.storePixel_responses (p : Place) (on : Bool) : (s.storePixel p on).responses = s.responses := rfl

/-! `State.storeBlock`. -/

@[simp] theorem State.storeBlock_cfg (m : Nat) (bytes : List Byte) : (s.storeBlock m bytes).cfg = s.cfg := rfl
@[simp] theorem State.storeBlock_st (m : Nat) (bytes : List Byte) : (s.storeBlock m bytes).st = s.st := rfl
@[simp] theorem State.storeBlock_fb (m : Nat) (bytes : List Byte) : (s.storeBlock m bytes).fb = s.fb.writeBytes (fbAddr m 0) bytes := rfl
@[simp] theorem State.storeBlock_line (m : Nat) (bytes : List Byte) : (s.storeBlock m bytes).line = s.line := rfl
@[simp] theorem State.storeBlock_fault (m : Nat) (bytes : List Byte) : (s.storeBlock m bytes).fault = s.fault := rfl
@[simp] theorem State.storeBlock_trace (m : Nat) (bytes : List Byte) : (s.storeBlock m bytes).trace = s.trace := rfl
@[simp] theorem State.storeBlock_chain (m : Nat) (bytes : List Byte) : (s.storeBlock m bytes).chain = s.chain := rfl
@[simp] theorem State.storeBlock_input (m : Nat) (bytes : List Byte) : (s.storeBlock m bytes).input = s.input := rfl
@[simp] theorem State.storeBlock_responses (m : Nat) (bytes : List Byte) : (s.storeBlock m bytes).responses = s.responses := rfl

/-! `State.fillDisplay`. -/

@[simp] theorem State.fillDisplay_cfg (v : Byte) : (s.fillDisplay v).cfg = s.cfg := rfl
@[simp] theorem State.fillDisplay_st (v : Byte) : (s.fillDisplay v).st = s.st := rfl
@[simp] theorem State.fillDisplay_fb (v : Byte) : (s.fillDisplay v).fb = s.fb.writeBytes 0 (List.replicate (8 * s.cfg.n) v) := rfl
@[simp] theorem State.fillDisplay_line (v : Byte) : (s.fillDisplay v).line = s.line := rfl
@[simp] theorem State.fillDisplay_fault (v : Byte) : (s.fillDisplay v).fault = s.fault := rfl
@[simp] theorem State.fillDisplay_trace (v : Byte) : (s.fillDisplay v).trace = s.trace := rfl
@[simp] theorem State.fillDisplay_chain (v : Byte) : (s.fillDisplay v).chain = s.chain := rfl
@[simp] theorem State.fillDisplay_input (v : Byte) : (s.fillDisplay v).input = s.input := rfl
@[simp] theorem State.fillDisplay_responses (v : Byte) : (s.fillDisplay v).responses = s.responses := rfl

/-! `State.onEveryDevice`. -/

@[simp] theorem State.onEveryDevice_cfg (f : Device → Device) : (s.onEveryDevice f).cfg = s.cfg := rfl
@[simp] theorem State.onEveryDevice_st (f : Device → Device) : (s.onEveryDevice f).st = s.st := rfl
@[simp] theorem State.onEveryDevice_fb (f : Device → Device) : (s.onEveryDevice f).fb = s.fb := rfl
@[simp] theorem State.onEveryDevice_line (f : Device → Device) : (s.onEveryDevice f).line = s.line := rfl
@[simp] theorem State.onEveryDevice_fault (f : Device → Device) : (s.onEveryDevice f).fault = s.fault := rfl
@[simp] theorem State.onEveryDevice_trace (f : Device → Device) : (s.onEveryDevice f).trace = s.trace := rfl
@[simp] theorem State.onEveryDevice_chain (f : Device → Device) : (s.onEveryDevice f).chain = s.chain.map f := rfl
@[simp] theorem State.onEveryDevice_input (f : Device → Device) : (s.onEveryDevice f).input = s.input := rfl
@[simp] theorem State.onEveryDevice_responses (f : Device → Device) : (s.onEveryDevice f).responses = s.responses := rfl

/-! Two updates of the same part, and an update with what is there. -/

@[simp] theorem State.withInput_withInput (v w : List CmdWord) : (s.withInput v).withInput w = s.withInput w := rfl
@[simp] theorem State.withFb_withFb (v w : Memory) : (s.withFb v).withFb w = s.withFb w := rfl
@[simp] theorem State.withSt_withSt (v w : BusState) : (s.withSt v).withSt w = s.withSt w := rfl
@[simp] theorem State.withChain_withChain (v w : List Device) : (s.withChain v).withChain w = s.withChain w := rfl
@[simp] theorem State.withFb_self : s.withFb s.fb = s := rfl
@[simp] theorem State.withSt_self : s.withSt s.st = s := rfl
@[simp] theorem State.withChain_self : s.withChain s.chain = s := rfl
@[simp] theorem State.withInput_self : s.withInput s.input = s := rfl

/-! The levels of the lines. -/

@[simp] theorem Lines.get_set_same (ls : Lines) (l : Line) (v : Bool) : (ls.set l v).get l = v := by
  cases l <;> rfl

theorem Lines.get_set_other (ls : Lines) {l l' : Line} (v : Bool) (h : l' ≠ l) : (ls.set l v).get l' = ls.get l' := by
  cases l <;> cases l' <;> first | rfl | exact absurd rfl h

/-- Two states with the same parts are the same state. -/
theorem State.ext_fields {s t : State} (hcfg : s.cfg = t.cfg) (hst : s.st = t.st) (hfb : s.fb = t.fb)
    (hline : s.line = t.line) (hfault : s.fault = t.fault) (htrace : s.trace = t.trace) (hchain : s.chain = t.chain)
    (hinput : s.input = t.input) (hresp : s.responses = t.responses) : s = t := by
  cases s; cases t; simp_all

end Sys2Proof.Machine
end

