-- ==== Sys2Proof/Laws/Framebuffer.lean ====
section
/-! SUPPORT. The stores of the framebuffer commands: what each byte and each bit reads as after them, and that they
keep the framebuffer canonical and inside its size. -/

namespace Sys2Proof.Machine

/-- Two cells are the same address exactly when they are the same cell (rule R51). -/
theorem fbAddr_inj {m m' r r' : Nat} (hr : r < 8) (hr' : r' < 8) : fbAddr m r = fbAddr m' r' ↔ m = m' ∧ r = r' := by
  unfold fbAddr
  omega

/-- SETPX and INVPX store one bit; every other bit of the framebuffer reads as before (rules R161, R162). -/
theorem State.fbBit_storePixel {s : State} {p q : Place} (hw : s.fb.wf = true) (on : Bool) (hpr : p.r < 8)
    (hpb : p.b < 8) (hqr : q.r < 8) (hqb : q.b < 8) :
    (s.storePixel p on).fbBit q = if q = p then on else s.fbBit q := by
  unfold State.fbBit State.fbByte
  rw [State.storePixel_fb]
  by_cases ha : fbAddr q.m q.r = fbAddr p.m p.r
  · obtain ⟨h1, h2⟩ := (fbAddr_inj hqr hpr).mp ha
    rw [ha, Memory.read_write_same hw, getLsbD_setbit _ _ hpb hqb]
    by_cases hb : q.b = p.b
    · have : q = p := by cases p; cases q; simp_all
      rw [if_pos hb, if_pos this]
    · have : q ≠ p := fun h => hb (by rw [h])
      rw [if_neg hb, if_neg this, State.fbByte]
  · have : q ≠ p := fun h => ha (by rw [h])
    rw [Memory.read_write_other _ _ ha, if_neg this]

/-- Every byte but the one that holds the pixel reads as before. -/
theorem State.read_storePixel_other (s : State) (p : Place) (on : Bool) {a : Nat} (h : a ≠ fbAddr p.m p.r) :
    (s.storePixel p on).fb.read a = s.fb.read a :=
  Memory.read_write_other _ _ h

/-- A block store writes the eight cells of one module and no other (rules R88, R165, R166). -/
theorem State.fbByte_storeBlock {s : State} {m m' r : Nat} {bytes : List Byte} (hw : s.fb.wf = true)
    (hlen : bytes.length = 8) (hr : r < 8) :
    (s.storeBlock m bytes).fbByte m' r = if m' = m then bytes[r]'(by omega) else s.fbByte m' r := by
  unfold State.fbByte
  rw [State.storeBlock_fb]
  by_cases h : m' = m
  · subst h
    rw [if_pos rfl]
    exact Memory.read_writeBytes_inside hw (by omega)
  · rw [if_neg h]
    refine Memory.read_writeBytes_outside _ ?_
    unfold fbAddr
    omega

/-- Outside the eight cells of the module every address reads as before. -/
theorem State.read_storeBlock_outside (s : State) {m a : Nat} {bytes : List Byte}
    (h : a < fbAddr m 0 ∨ fbAddr m 0 + bytes.length ≤ a) : (s.storeBlock m bytes).fb.read a = s.fb.read a :=
  Memory.read_writeBytes_outside _ h

@[simp] theorem length_storedBlock (rot : Bool) (block : List Byte) : (storedBlock rot block).length = block.length := by
  cases rot <;> simp [storedBlock]

/-- What a stored block holds in row `r` (rule R88). -/
theorem getElem_storedBlock {rot : Bool} {block : List Byte} (hlen : block.length = 8) {r : Nat} (hr : r < 8) :
    (storedBlock rot block)[r]'(by simp; omega) =
      if rot then bitrev8 (block[7 - r]'(by omega)) else block[r]'(by omega) := by
  cases rot
  · rfl
  · simp only [storedBlock, if_true, List.getElem_map, List.getElem_reverse, hlen]

/-- The stores keep the framebuffer canonical. -/
theorem State.wf_storePixel {s : State} (hw : s.fb.wf = true) (p : Place) (on : Bool) :
    (s.storePixel p on).fb.wf = true := Memory.wf_write hw _ _

theorem State.wf_storeBlock {s : State} (hw : s.fb.wf = true) (m : Nat) (bytes : List Byte) :
    (s.storeBlock m bytes).fb.wf = true := Memory.wf_writeBytes hw _ _

theorem State.wf_fillDisplay {s : State} (hw : s.fb.wf = true) (v : Byte) : (s.fillDisplay v).fb.wf = true :=
  Memory.wf_writeBytes hw _ _

theorem State.wf_storeModules {s t : State} {rows : List Byte} {n : Nat} (hw : s.fb.wf = true)
    (h : s.storeModules rows n = some t) : t.fb.wf = true := by
  induction n generalizing t with
  | zero => simp only [State.storeModules, Option.some.injEq] at h; exact h ▸ hw
  | succ l ih =>
    simp only [State.storeModules] at h
    split at h
    · rename_i u m rot hu hm hrot
      injection h with h
      exact h ▸ State.wf_storeBlock (ih hu) _ _
    · cases h

/-- CLRD sets every byte of the framebuffer and none outside it (rule R164). -/
theorem State.read_fillDisplay {s : State} (hw : s.fb.wf = true) (v : Byte) (a : Nat) :
    (s.fillDisplay v).fb.read a = if a < 8 * s.cfg.n then v else s.fb.read a := by
  rw [State.fillDisplay_fb]
  by_cases h : a < 8 * s.cfg.n
  · have := Memory.read_writeBytes_inside (m := s.fb) hw (a := 0) (i := a)
      (bytes := List.replicate (8 * s.cfg.n) v) (by simpa using h)
    rw [Nat.zero_add] at this
    rw [this, if_pos h, List.getElem_replicate]
  · rw [if_neg h]
    exact Memory.read_writeBytes_outside _ (.inr (by simp; omega))

end Sys2Proof.Machine
end

