-- ==== Sys2Proof/Laws/Guards.lean ====
section
/-! SUPPORT. The guards of a command: what each answers when its check passes, when it fails, and every way it can
answer a next state. -/

namespace Sys2Proof.Machine

theorem State.whenConfigured_of_ne {s : State} (h : s.st ≠ .configError) (body : Result) :
    s.whenConfigured body = body := if_neg h

theorem State.whenConfigured_of_eq {s : State} (h : s.st = .configError) (body : Result) :
    s.whenConfigured body = .next (s.raise .configInvalid) := if_pos h

theorem State.whenConfigured_next {s t : State} {body : Result} (h : s.whenConfigured body = .next t) :
    (s.st = .configError ∧ t = s.raise .configInvalid) ∨ (s.st ≠ .configError ∧ body = .next t) := by
  by_cases hc : s.st = .configError
  · rw [State.whenConfigured_of_eq hc] at h
    exact .inl ⟨hc, by injection h with h; exact h.symm⟩
  · rw [State.whenConfigured_of_ne hc] at h
    exact .inr ⟨hc, h⟩

theorem State.whenBus_of_eq {s : State} {required : BusState} (h : s.st = required) (hr : required ≠ .configError)
    (done : State) : s.whenBus required done = .next (done.respond .ok) := by
  rw [State.whenBus, State.whenConfigured_of_ne (h ▸ hr), if_pos h]

theorem State.whenBus_of_ne {s : State} {required : BusState} (h : s.st ≠ required) (hc : s.st ≠ .configError)
    (done : State) : s.whenBus required done = .next (s.raise .busState) := by
  rw [State.whenBus, State.whenConfigured_of_ne hc, if_neg h]

/-- A bus command always answers a next state: done, or one of two faults taken. -/
theorem State.whenBus_next {s t : State} {required : BusState} {done : State}
    (h : s.whenBus required done = .next t) :
    (s.st = .configError ∧ t = s.raise .configInvalid) ∨
      (s.st ≠ .configError ∧ s.st = required ∧ t = done.respond .ok) ∨
      (s.st ≠ .configError ∧ s.st ≠ required ∧ t = s.raise .busState) := by
  rcases State.whenConfigured_next h with h | ⟨hc, h⟩
  · exact .inl h
  · split at h
    · exact .inr (.inl ⟨hc, ‹_›, by injection h with h; exact h.symm⟩)
    · exact .inr (.inr ⟨hc, ‹_›, by injection h with h; exact h.symm⟩)

theorem State.whenPixel_inside {s : State} {x y : Int} {p : Place} (hc : s.st ≠ .configError)
    (hin : s.cfg.hasPixel x y = true) (hp : s.cfg.pixelToPhysical x.toNat y.toNat = some p) (body : Place → Result) :
    s.whenPixel x y body = body p := by
  rw [State.whenPixel, State.whenConfigured_of_ne hc, if_pos hin, hp]

theorem State.whenPixel_outside {s : State} {x y : Int} (hc : s.st ≠ .configError)
    (hin : s.cfg.hasPixel x y = false) (body : Place → Result) :
    s.whenPixel x y body = .next (s.raise .coordRange) := by
  rw [State.whenPixel, State.whenConfigured_of_ne hc, if_neg (by simp [hin])]

/-- Every way a pixel command answers a next state. -/
theorem State.whenPixel_next {s t : State} {x y : Int} {body : Place → Result}
    (h : s.whenPixel x y body = .next t) :
    (s.st = .configError ∧ t = s.raise .configInvalid) ∨
      (s.st ≠ .configError ∧ s.cfg.hasPixel x y = false ∧ t = s.raise .coordRange) ∨
      (s.st ≠ .configError ∧ s.cfg.hasPixel x y = true ∧
        ∃ p, s.cfg.pixelToPhysical x.toNat y.toNat = some p ∧ body p = .next t) := by
  rcases State.whenConfigured_next h with h | ⟨hc, h⟩
  · exact .inl h
  · split at h
    · rename_i hin
      split at h
      · rename_i p hp
        exact .inr (.inr ⟨hc, hin, p, hp, h⟩)
      · cases h
    · rename_i hin
      exact .inr (.inl ⟨hc, by simpa using hin, by injection h with h; exact h.symm⟩)

theorem State.whenModule_inside {s : State} {l : Int} {m : Nat} {rot : Bool} (hc : s.st ≠ .configError)
    (hin : s.cfg.hasModule l = true) (hm : s.cfg.moduleToChain l.toNat = some m)
    (hrot : s.cfg.rotatedAt l.toNat = some rot) (body : Nat → Bool → Result) :
    s.whenModule l body = body m rot := by
  rw [State.whenModule, State.whenConfigured_of_ne hc, if_pos hin, hm, hrot]

theorem State.whenModule_outside {s : State} {l : Int} (hc : s.st ≠ .configError)
    (hin : s.cfg.hasModule l = false) (body : Nat → Bool → Result) :
    s.whenModule l body = .next (s.raise .moduleRange) := by
  rw [State.whenModule, State.whenConfigured_of_ne hc, if_neg (by simp [hin])]

/-- Every way a module command answers a next state. -/
theorem State.whenModule_next {s t : State} {l : Int} {body : Nat → Bool → Result}
    (h : s.whenModule l body = .next t) :
    (s.st = .configError ∧ t = s.raise .configInvalid) ∨
      (s.st ≠ .configError ∧ s.cfg.hasModule l = false ∧ t = s.raise .moduleRange) ∨
      (s.st ≠ .configError ∧ s.cfg.hasModule l = true ∧
        ∃ m rot, s.cfg.moduleToChain l.toNat = some m ∧ s.cfg.rotatedAt l.toNat = some rot ∧
          body m rot = .next t) := by
  rcases State.whenConfigured_next h with h | ⟨hc, h⟩
  · exact .inl h
  · split at h
    · rename_i hin
      split at h
      · rename_i m rot hm hrot
        exact .inr (.inr ⟨hc, hin, m, rot, hm, hrot, h⟩)
      · cases h
    · rename_i hin
      exact .inr (.inl ⟨hc, by simpa using hin, by injection h with h; exact h.symm⟩)

/-- Storing modules changes the framebuffer only. -/
theorem State.storeModules_eq {s t : State} {rows : List Byte} {n : Nat} (h : s.storeModules rows n = some t) :
    t = s.withFb t.fb := by
  induction n generalizing t with
  | zero => simp only [State.storeModules, Option.some.injEq] at h; subst h; rfl
  | succ l ih =>
    simp only [State.storeModules] at h
    split at h
    · rename_i u m rot hu hm hrot
      injection h with h
      subst h
      rw [ih hu]
      rfl
    · cases h

end Sys2Proof.Machine
end

