-- ==== Sys2Proof/Laws/Lines.lean ====
section
/-! SUPPORT. The line operations, each in one lemma that says everything it does: a bit transfer, a word transfer,
opening and closing a bracket, the words of a row and a whole flush. -/

namespace Sys2Proof.Machine

/-- `shift_bit` (rule R135): three line writes, CLK left high, DATA at the bit, the chain shifted once. -/
theorem State.shiftBit_eq (s : State) (v : Bool) :
    s.shiftBit v =
      { s with
        trace := s.trace ++ bitEvents v
        line := { sel := s.line.sel, clk := true, data := v }
        chain := shiftChain v s.chain } := by
  refine State.ext_fields rfl rfl rfl rfl rfl ?_ rfl rfl rfl
  simp [State.shiftBit, bitEvents]

/-- What sending the `n` low bits of `w` writes beside the chain. -/
theorem State.shiftBits_eq (w : WireWord) (n : Nat) (s : State) :
    State.shiftBits w (n + 1) s =
      { s with
        trace := s.trace ++ bitsEvents w (n + 1)
        line := { sel := s.line.sel, clk := true, data := w.getLsbD 0 }
        chain := (State.shiftBits w (n + 1) s).chain } := by
  induction n generalizing s with
  | zero => simp [State.shiftBits, State.shiftBit_eq, bitsEvents]
  | succ n ih =>
    rw [State.shiftBits, ih, State.shiftBit_eq]
    simp [bitsEvents]

theorem State.shiftBits_chain (w : WireWord) {n : Nat} (s : State) (chain : List Device) (hn : n ≤ 16)
    (h : s.chain = mixChain (16 - n) w chain) : (State.shiftBits w n s).chain = mixChain 16 w chain := by
  induction n generalizing s with
  | zero => exact h
  | succ n ih =>
    rw [State.shiftBits]
    refine ih _ (by omega) ?_
    have hstep := shiftChain_mixChain (j := 16 - (n + 1)) w chain (by omega)
    have h1 : 15 - (16 - (n + 1)) = n := by omega
    have h2 : 16 - (n + 1) + 1 = 16 - n := by omega
    rw [h1, h2] at hstep
    rw [State.shiftBit_eq, ← hstep, ← h]

/-- `shift_word` (rule R136): 48 line writes, CLK left high, DATA at the last bit, and the chain moved by one word. -/
theorem State.shiftWord_eq (s : State) (a : BitVec 4) (d : Byte) :
    s.shiftWord a d =
      { s with
        trace := s.trace ++ wordEvents (wireCode 0 a d)
        line := { sel := s.line.sel, clk := true, data := (wireCode 0 a d).getLsbD 0 }
        chain := pushWord (wireCode 0 a d) s.chain } := by
  have hchain := State.shiftBits_chain (wireCode 0 a d) s s.chain (le_refl 16) (mixChain_zero _ _).symm
  rw [mixChain_sixteen] at hchain
  rw [State.shiftWord, State.shiftBits_eq, hchain]
  rfl

/-- An accepted BEGIN (rule R131): whatever SEL stood at, the devices do nothing. -/
theorem State.openBracket_eq (s : State) :
    s.openBracket =
      { s with
        st := .transferring
        trace := s.trace ++ [{ line := .sel, level := selT }]
        line := { s.line with sel := selT } } := rfl

/-- An accepted END (rule R134): the devices commit if SEL stood at its transparent level. -/
theorem State.closeBracket_eq (s : State) :
    s.closeBracket =
      { s with
        st := .idle
        trace := s.trace ++ [{ line := .sel, level := selL }]
        line := { s.line with sel := selL }
        chain := if s.line.sel = selT then s.chain.map Device.latch else s.chain } := by
  refine State.ext_fields rfl rfl rfl rfl rfl rfl ?_ rfl rfl
  cases h : s.line.sel <;> simp [State.closeBracket, reactTo, risingEdge, selT, selL, Lines.get, h]

/-- The parts of the state that line writes never touch. -/
structure SameCore (s t : State) : Prop where
  cfg : t.cfg = s.cfg
  fb : t.fb = s.fb
  fault : t.fault = s.fault
  input : t.input = s.input
  responses : t.responses = s.responses

theorem SameCore.refl (s : State) : SameCore s s := ⟨rfl, rfl, rfl, rfl, rfl⟩

theorem SameCore.trans {s t u : State} (h : SameCore s t) (h' : SameCore t u) : SameCore s u :=
  ⟨h'.cfg.trans h.cfg, h'.fb.trans h.fb, h'.fault.trans h.fault, h'.input.trans h.input,
    h'.responses.trans h.responses⟩

theorem SameCore.shiftWord (s : State) (a : BitVec 4) (d : Byte) : SameCore s (s.shiftWord a d) := by
  rw [State.shiftWord_eq]; exact ⟨rfl, rfl, rfl, rfl, rfl⟩

theorem SameCore.openBracket (s : State) : SameCore s s.openBracket := ⟨rfl, rfl, rfl, rfl, rfl⟩

theorem SameCore.closeBracket (s : State) : SameCore s s.closeBracket := ⟨rfl, rfl, rfl, rfl, rfl⟩

theorem SameCore.sendRowWords (r n : Nat) (s : State) : SameCore s (State.sendRowWords r n s) := by
  induction n generalizing s with
  | zero => exact SameCore.refl s
  | succ m ih => exact (SameCore.shiftWord s _ _).trans (ih _)

theorem SameCore.flushRow (s : State) (r : Nat) : SameCore s (s.flushRow r) :=
  ((SameCore.openBracket s).trans (SameCore.sendRowWords r _ _)).trans (SameCore.closeBracket _)

theorem SameCore.flushRowsOf (rows : List Nat) (s : State) : SameCore s (rows.foldl State.flushRow s) := by
  induction rows generalizing s with
  | nil => exact SameCore.refl s
  | cons r rest ih => exact (SameCore.flushRow s r).trans (ih _)

/-- A flush reads the framebuffer and writes none of it (rules R25, R150). -/
theorem SameCore.flushRows (s : State) : SameCore s s.flushRows := SameCore.flushRowsOf _ s

@[simp] theorem State.length_sendRowWords_chain (r n : Nat) (s : State) :
    (State.sendRowWords r n s).chain.length = s.chain.length := by
  induction n generalizing s with
  | zero => rfl
  | succ m ih => simp [State.sendRowWords, ih, State.shiftWord_eq]

/-- The number of devices never changes (rule R66). -/
theorem State.length_closeBracket_chain (s : State) : s.closeBracket.chain.length = s.chain.length := by
  rw [State.closeBracket_eq]
  dsimp only
  split <;> simp

theorem State.length_flushRow_chain (s : State) (r : Nat) : (s.flushRow r).chain.length = s.chain.length := by
  simp [State.flushRow, State.length_closeBracket_chain, State.openBracket_eq]

theorem State.length_flushRows_chain (s : State) : s.flushRows.chain.length = s.chain.length := by
  have : ∀ (rows : List Nat) (s : State), (rows.foldl State.flushRow s).chain.length = s.chain.length := by
    intro rows
    induction rows with
    | nil => intro s; rfl
    | cons r rest ih => intro s; rw [List.foldl_cons, ih, State.length_flushRow_chain]
  exact this _ s

/-- Words of a row leave the bus state and SEL alone. -/
theorem State.sendRowWords_sel (r n : Nat) (s : State) :
    (State.sendRowWords r n s).st = s.st ∧ (State.sendRowWords r n s).line.sel = s.line.sel := by
  induction n generalizing s with
  | zero => exact ⟨rfl, rfl⟩
  | succ m ih => simp [State.sendRowWords, ih, State.shiftWord_eq]

/-- A row's bracket ends idle with SEL latching. -/
theorem State.flushRow_ends (s : State) (r : Nat) : (s.flushRow r).st = .idle ∧ (s.flushRow r).line.sel = selL :=
  ⟨rfl, rfl⟩

/-- A flush ends idle with SEL latching. -/
theorem State.flushRows_ends (s : State) : s.flushRows.st = .idle ∧ s.flushRows.line.sel = selL := ⟨rfl, rfl⟩

end Sys2Proof.Machine
end

