-- ==== Sys2Proof/Laws/PerInstr.lean ====
section
/-! SUPPORT. Facts about every instruction as syntax, one lemma per constructor. Family CodeLength: the code of an
instruction that exists is as long as the spec says, one wire word, or a header and its payload words (rule R111). -/

namespace Sys2Proof.Laws.CodeLength

/-- The payload words of a command (rule R111). -/
def payloadOf (n : Nat) : Instr → Nat
  | .setModuleRows _ _ => 1
  | .setDisplayRows _ => n
  | .beginTransfer | .sendWord _ _ | .sendRow _ _ _ | .endTransfer | .flush | .setPixel _ _ _ | .invertPixel _ _ | .getPixel _ _ | .clearDisplay _ | .clearModule _ _ => 0
  | .wNoop _ _ | .wRow0 _ _ | .wRow1 _ _ | .wRow2 _ _ | .wRow3 _ _ | .wRow4 _ _ | .wRow5 _ _ | .wRow6 _ _
  | .wRow7 _ _ | .wDecode _ _ | .wIntensity _ _ | .wScanlimit _ _ | .wShutdown _ _ | .wRsvd13 _ _ | .wRsvd14 _ _ | .wTest _ _ => 0

def Statement (i : Instr) : Prop :=
  ∀ n, i.wellBuilt n = true →
    match encode i with
    | .cmd64 words => words.length = 1 + payloadOf n i
    | .w16 _ => True

theorem beginTransfer : Statement .beginTransfer := fun _ _ => rfl
theorem sendWord (address : Int) (data : Int) : Statement (.sendWord address data) := fun _ _ => rfl
theorem sendRow (address : Int) (rowBits : Int) (order : BitOrder) : Statement (.sendRow address rowBits order) := fun _ _ => rfl
theorem endTransfer : Statement .endTransfer := fun _ _ => rfl
theorem flush : Statement .flush := fun _ _ => rfl
theorem setPixel (x : Int) (y : Int) (on : Bool) : Statement (.setPixel x y on) := fun _ _ => rfl
theorem invertPixel (x : Int) (y : Int) : Statement (.invertPixel x y) := fun _ _ => rfl
theorem getPixel (x : Int) (y : Int) : Statement (.getPixel x y) := fun _ _ => rfl
theorem clearDisplay (state : Bool) : Statement (.clearDisplay state) := fun _ _ => rfl
theorem clearModule (moduleIndex : Int) (state : Bool) : Statement (.clearModule moduleIndex state) := fun _ _ => rfl
theorem setModuleRows (moduleIndex : Int) (rows : List Byte) : Statement (.setModuleRows moduleIndex rows) := fun _ h => by
  have hr : rows.length = 8 * 1 := by simpa [Instr.wellBuilt] using h
  show (packRows rows).length + 1 = 1 + 1
  rw [(payloadBytes_packRows 1 rows hr).1]
theorem setDisplayRows (rows : List Byte) : Statement (.setDisplayRows rows) := fun n h => by
  have hr : rows.length = 8 * n := by simpa [Instr.wellBuilt] using h
  show (packRows rows).length + 1 = 1 + n
  rw [(payloadBytes_packRows n rows hr).1, Nat.add_comm]
theorem wNoop (pad : BitVec 4) (data : Byte) : Statement (.wNoop pad data) := fun _ _ => trivial
theorem wRow0 (pad : BitVec 4) (data : Byte) : Statement (.wRow0 pad data) := fun _ _ => trivial
theorem wRow1 (pad : BitVec 4) (data : Byte) : Statement (.wRow1 pad data) := fun _ _ => trivial
theorem wRow2 (pad : BitVec 4) (data : Byte) : Statement (.wRow2 pad data) := fun _ _ => trivial
theorem wRow3 (pad : BitVec 4) (data : Byte) : Statement (.wRow3 pad data) := fun _ _ => trivial
theorem wRow4 (pad : BitVec 4) (data : Byte) : Statement (.wRow4 pad data) := fun _ _ => trivial
theorem wRow5 (pad : BitVec 4) (data : Byte) : Statement (.wRow5 pad data) := fun _ _ => trivial
theorem wRow6 (pad : BitVec 4) (data : Byte) : Statement (.wRow6 pad data) := fun _ _ => trivial
theorem wRow7 (pad : BitVec 4) (data : Byte) : Statement (.wRow7 pad data) := fun _ _ => trivial
theorem wDecode (pad : BitVec 4) (data : Byte) : Statement (.wDecode pad data) := fun _ _ => trivial
theorem wIntensity (pad : BitVec 4) (data : Byte) : Statement (.wIntensity pad data) := fun _ _ => trivial
theorem wScanlimit (pad : BitVec 4) (data : Byte) : Statement (.wScanlimit pad data) := fun _ _ => trivial
theorem wShutdown (pad : BitVec 4) (data : Byte) : Statement (.wShutdown pad data) := fun _ _ => trivial
theorem wRsvd13 (pad : BitVec 4) (data : Byte) : Statement (.wRsvd13 pad data) := fun _ _ => trivial
theorem wRsvd14 (pad : BitVec 4) (data : Byte) : Statement (.wRsvd14 pad data) := fun _ _ => trivial
theorem wTest (pad : BitVec 4) (data : Byte) : Statement (.wTest pad data) := fun _ _ => trivial

end Sys2Proof.Laws.CodeLength
end

