-- ==== Sys2Proof/Laws/Step.lean ====
section
/-! SUPPORT. One step: every way it can answer, from what the host's stream holds. -/

namespace Sys2Proof.Machine

/-- A step that answers a next state waited, refused what it took, or ran the command it took. -/
theorem step_next {s t : State} (h : step s = .next t) :
    (s.fetch = .waiting ∧ t = s) ∨
      (∃ c rest, s.fetch = .rejected c rest ∧ t = (s.withInput rest).raise c) ∨
      (∃ i rest, s.fetch = .fetched i rest ∧ exec i (s.withInput rest) = .next t) := by
  unfold step at h
  split at h
  · exact .inl ⟨‹_›, by injection h with h; exact h.symm⟩
  · exact .inr (.inl ⟨_, _, ‹_›, by injection h with h; exact h.symm⟩)
  · exact .inr (.inr ⟨_, _, ‹_›, h⟩)

/-- What the stream holds decides the fetch outside `ConfigError` (rules R110, R111). -/
theorem State.fetch_of_decode {s : State} (hc : s.st ≠ .configError) :
    s.fetch =
      match decode s.cfg.n s.input with
      | .incomplete => .waiting
      | .illegal _ rest => .rejected .illegalCommand rest
      | .command i rest => .fetched i rest := by
  unfold State.fetch
  cases s.input with
  | nil => rfl
  | cons w rest =>
    dsimp only
    exact (if_neg hc).trans (by cases decode s.cfg.n (w :: rest) <;> rfl)

/-- LMX fetches a command only outside `ConfigError`, and only what the decoder found (rule R110). -/
theorem State.fetch_fetched {s : State} {i : Instr} {rest : List CmdWord} (h : s.fetch = .fetched i rest) :
    s.st ≠ .configError ∧ decode s.cfg.n s.input = .command i rest := by
  by_cases hc : s.st = .configError
  · unfold State.fetch at h
    split at h
    · cases h
    · rw [if_pos hc] at h; cases h
  · refine ⟨hc, ?_⟩
    rw [State.fetch_of_decode hc] at h
    split at h
    · cases h
    · cases h
    · rename_i hd
      rw [hd]
      injection h with h1 h2
      rw [h1, h2]

/-- In `ConfigError` any word is taken alone and refused (rules R111, R212). -/
theorem State.fetch_configError {s : State} (hc : s.st = .configError) {w : CmdWord} {rest : List CmdWord}
    (hin : s.input = w :: rest) : s.fetch = .rejected .configInvalid rest := by
  unfold State.fetch
  rw [hin]
  exact if_pos hc

end Sys2Proof.Machine
end

