-- ==== Sys2Proof/Machine/Assembler.lean ====
section
/-! DEFINITION. The assembler spelling of a command (rule R117): the mnemonic, then the operands in the order `a`, `b`,
`s`; a byte list in square brackets. Wire words have no assembler form. -/

namespace Sys2Proof.Machine

/-- A modifier bit, written `1` or `0`. -/
def bitText (b : Bool) : String := if b then "1" else "0"

/-- A `bit_order`, written out. -/
def orderText : BitOrder → String
  | .normal => "normal"
  | .reversed => "reversed"

/-- A byte list, in decimal. -/
def bytesText (bytes : List Byte) : String :=
  "[" ++ String.intercalate ", " (bytes.map (fun b => toString b.toNat)) ++ "]"

/-- The line of assembler text for a command (rule R117). -/
def asmText : Instr → Option String
  | .beginTransfer => some "BEGIN"
  | .sendWord address data => some ("SENDW " ++ toString address ++ ", " ++ toString data)
  | .sendRow address rowBits order =>
    some ("SENDR " ++ toString address ++ ", " ++ toString rowBits ++ ", " ++ orderText order)
  | .endTransfer => some "END"
  | .flush => some "FLUSH"
  | .setPixel x y on => some ("SETPX " ++ toString x ++ ", " ++ toString y ++ ", " ++ bitText on)
  | .invertPixel x y => some ("INVPX " ++ toString x ++ ", " ++ toString y)
  | .getPixel x y => some ("GETPX " ++ toString x ++ ", " ++ toString y)
  | .clearDisplay state => some ("CLRD " ++ bitText state)
  | .clearModule moduleIndex state => some ("CLRM " ++ toString moduleIndex ++ ", " ++ bitText state)
  | .setModuleRows moduleIndex rows => some ("SETMR " ++ toString moduleIndex ++ ", " ++ bytesText rows)
  | .setDisplayRows rows => some ("SETDR " ++ bytesText rows)
  | .wNoop _ _ | .wRow0 _ _ | .wRow1 _ _ | .wRow2 _ _ | .wRow3 _ _ | .wRow4 _ _ | .wRow5 _ _ | .wRow6 _ _
  | .wRow7 _ _ | .wDecode _ _ | .wIntensity _ _ | .wScanlimit _ _ | .wShutdown _ _ | .wRsvd13 _ _ | .wRsvd14 _ _
  | .wTest _ _ => none

end Sys2Proof.Machine
end

