-- ==== Sys2Proof/Tests/Slice0.lean ====
section
/-! SUPPORT. Tests. Expected values come from 95_test_vectors.md (the vector is named) or from the worked example of the
rule named. The theorems `witness_…` give, for each obligation with hypotheses, a state and operands that meet them. -/

namespace Sys2Proof.Tests

open Sys2Proof.Machine

set_option maxRecDepth 20000

/-! Small states. -/

/-- The 3×2 scenario of rule R92. -/
def offer32 : Offered :=
  { columns := 3, rows := 2, chainOrder := some [0, 1, 2, 5, 4, 3],
    rotated := some [false, false, false, true, true, true], intensity0 := 3 }

/-- A 2×1 tiling in chain order. -/
def offer21 : Offered :=
  { columns := 2, rows := 1, chainOrder := some [0, 1], rotated := some [false, false], intensity0 := 3 }

/-- Vector V120: one chain index twice. -/
def offerTwice : Offered := { offer32 with chainOrder := some [0, 1, 2, 5, 4, 4] }

/-- One table without the other. -/
def offerLone : Offered := { offer32 with chainOrder := none }

def blankDevice : Device :=
  { sr := 0, row0 := 0, row1 := 0, row2 := 0, row3 := 0, row4 := 0, row5 := 0, row6 := 0, row7 := 0, decode := 0,
    intensity := 0, scanlimit := 0, shutdown := 0, rsvd13 := 0, rsvd14 := 0, test := 0,
    written := ControlsWritten.none }

/-- A device as INIT leaves it (vector V93). -/
def runningDevice : Device :=
  { blankDevice with
    shutdown := 1, scanlimit := 7, intensity := 3,
    written := { ControlsWritten.none with
      decode := true, intensity := true, scanlimit := true, shutdown := true, test := true } }

/-- A state with this configuration, in this bus state, everything else clear. -/
def small (o : Offered) (st : BusState) : State :=
  { cfg := o.normalise, st := st, fb := [], line := { sel := decide (st = .idle), clk := true, data := false },
    fault := 0, trace := [], chain := List.replicate o.normalise.n blankDevice, input := [], responses := [] }

def idle11 : State := small Config.offered0 .idle
def open11 : State := small Config.offered0 .transferring
def idle21 : State := small offer21 .idle
def idle32 : State := small offer32 .idle
def open32 : State := small offer32 .transferring
def running32 : State := idle32.withChain (List.replicate 6 runningDevice)

/-- `ConfigError`, as reset leaves it. -/
def dead : State := { small offerTwice .configError with fault := 1, chain := [] }

/-- A state no run reaches: a configuration with empty tables that counts as valid. -/
def broken : State := { idle11 with cfg := { idle11.cfg with chainOrder := [] } }

/-- What a next state shows. -/
def view {α : Type} (f : State → α) : Result → Option α
  | .next t => some (f t)
  | .fault _ => none
  | .refused _ => none

def rows18 : List Byte := [0xB1, 0, 0, 0, 0, 0, 0, 0x12]

/-! Well-formedness: each check refuses an ill-formed term. -/

theorem test_setModuleRows_needs_eight_bytes : (Instr.setModuleRows 0 [1, 2, 3, 4, 5, 6, 7]).wellFormed 1 = false := by
  decide
theorem test_setDisplayRows_needs_all_bytes : (Instr.setDisplayRows rows18).wellFormed 2 = false := by decide
theorem test_sendWord_operands_fit :
    (Instr.sendWord 32768 0).wellFormed 1 = false ∧ (Instr.sendWord 0 (-32769)).wellFormed 1 = false := by decide
theorem test_sendRow_operands_fit :
    (Instr.sendRow 32768 0 .normal).wellFormed 1 = false ∧ (Instr.sendRow 0 32768 .normal).wellFormed 1 = false := by
  decide
theorem test_pixel_operands_fit :
    (Instr.setPixel (-32769) 0 true).wellFormed 1 = false ∧ (Instr.setPixel 0 32768 true).wellFormed 1 = false ∧
    (Instr.invertPixel 32768 0).wellFormed 1 = false ∧ (Instr.invertPixel 0 32768).wellFormed 1 = false ∧
    (Instr.getPixel 32768 0).wellFormed 1 = false ∧ (Instr.getPixel 0 32768).wellFormed 1 = false := by decide
theorem test_module_operands_fit :
    (Instr.clearModule 32768 true).wellFormed 1 = false ∧ (Instr.setModuleRows 32768 rows18).wellFormed 1 = false := by
  decide
theorem test_extreme_operands_are_wellFormed :
    (Instr.sendWord (-32768) 32767).wellFormed 1 = true ∧ (Instr.setModuleRows (-32768) rows18).wellFormed 1 = true := by
  decide

/-! Decoding: one word for every constructor, from the spec's encodings. -/

/-- Rule R131. -/
theorem test_decode_begin : decode 1 [0x0100000000000000#64] = .command .beginTransfer [] := by decide
/-- Vector V21. -/
theorem test_decode_sendw : decode 1 [0x0200FFFFFFFB0000#64] = .command (.sendWord (-1) (-5)) [] := by decide
/-- Vectors V24, V23. -/
theorem test_decode_sendr :
    decode 1 [0x0301000400B10000#64] = .command (.sendRow 4 0xB1 .reversed) [] ∧
    decode 1 [0x0300000400B10000#64] = .command (.sendRow 4 0xB1 .normal) [] := by decide
/-- Rule R134. -/
theorem test_decode_end : decode 1 [0x0400000000000000#64] = .command .endTransfer [] := by decide
/-- Vector V118. -/
theorem test_decode_flush : decode 1 [0x0800000000000000#64] = .command .flush [] := by decide
/-- Vectors V70, V71, V74. -/
theorem test_decode_setpx :
    decode 6 [0x10010017000F0000#64] = .command (.setPixel 23 15 true) [] ∧
    decode 6 [0x10000017000F0000#64] = .command (.setPixel 23 15 false) [] ∧
    decode 6 [0x1001FFFFFFFF0000#64] = .command (.setPixel (-1) (-1) true) [] := by decide
/-- Vector V75. -/
theorem test_decode_invpx : decode 6 [0x1100000C00030000#64] = .command (.invertPixel 12 3) [] := by decide
/-- Vector V77. -/
theorem test_decode_getpx : decode 6 [0x12000017000F0000#64] = .command (.getPixel 23 15) [] := by decide
/-- Vector V77 and rule R164. -/
theorem test_decode_clrd :
    decode 6 [0x1801000000000000#64] = .command (.clearDisplay true) [] ∧
    decode 6 [0x1800000000000000#64] = .command (.clearDisplay false) [] := by decide
/-- Vectors V78, V79. -/
theorem test_decode_clrm :
    decode 6 [0x1901000300000000#64] = .command (.clearModule 3 true) [] ∧
    decode 6 [0x1900FFFF00000000#64] = .command (.clearModule (-1) false) [] := by decide
/-- Vector V80, with another word behind it. -/
theorem test_decode_setmr :
    decode 6 [0x1A00000100000000#64, 0x12000000000000B1#64, 0#64] = .command (.setModuleRows 1 rows18) [0#64] := by
  decide
/-- The layout of vector V84, for two modules. -/
theorem test_decode_setdr :
    decode 2 [0x1B00000000000000#64, 0x0000000000000081#64, 0x12000000000000B1#64] =
      .command (.setDisplayRows ([0x81, 0, 0, 0, 0, 0, 0, 0] ++ rows18)) [] := by decide

/-- Rule R102's table, `addr` in bits 11:8; the padding differs from 0 to show that it is read but never refused. -/
theorem test_decode_wire_rows :
    decodeWire 0x0000#16 = .wNoop 0 0 ∧ decodeWire 0x0101#16 = .wRow0 0 1 ∧ decodeWire 0xF2A5#16 = .wRow1 15 0xA5 ∧
    decodeWire 0x0380#16 = .wRow2 0 0x80 ∧ decodeWire 0x048D#16 = .wRow3 0 0x8D ∧ decodeWire 0x1500#16 = .wRow4 1 0 ∧
    decodeWire 0x0600#16 = .wRow5 0 0 ∧ decodeWire 0x0700#16 = .wRow6 0 0 ∧ decodeWire 0x0880#16 = .wRow7 0 0x80 := by
  decide
theorem test_decode_wire_controls :
    decodeWire 0x0900#16 = .wDecode 0 0 ∧ decodeWire 0x0A0F#16 = .wIntensity 0 15 ∧
    decodeWire 0x0B07#16 = .wScanlimit 0 7 ∧ decodeWire 0x0C01#16 = .wShutdown 0 1 ∧
    decodeWire 0x0D11#16 = .wRsvd13 0 0x11 ∧ decodeWire 0x0E22#16 = .wRsvd14 0 0x22 ∧
    decodeWire 0x0FFF#16 = .wTest 0 0xFF := by decide

/-- Vectors V110 to V117: illegal words, the payload taken with them. -/
theorem test_decode_illegal :
    decode 1 [0x0000000000000000#64] = .illegal .unknownOpcode [] ∧
    decode 1 [0xFFFFFFFFFFFFFFFF#64] = .illegal .unknownOpcode [] ∧
    decode 1 [0x0101000000000000#64] = .illegal .unusedField [] ∧
    decode 1 [0x0200000900000001#64] = .illegal .mustBeZero [] ∧
    decode 1 [0x0202000900000000#64] = .illegal .mustBeZero [] ∧
    decode 1 [0x1101000000000000#64] = .illegal .unusedField [] ∧
    decode 1 [0x1A00000000010000#64, 0#64] = .illegal .unusedField [] ∧
    decode 1 [0x0500000000000000#64, 0#64] = .illegal .unknownOpcode [0#64] := by decide

/-- Every other field that a command leaves unused (rule R106). -/
theorem test_decode_unused_fields :
    decode 1 [0x0100000100000000#64] = .illegal .unusedField [] ∧
    decode 1 [0x0400000000010000#64] = .illegal .unusedField [] ∧
    decode 1 [0x0801000000000000#64] = .illegal .unusedField [] ∧
    decode 1 [0x1801000100000000#64] = .illegal .unusedField [] ∧
    decode 1 [0x1901000000010000#64] = .illegal .unusedField [] ∧
    decode 1 [0x1B00000100000000#64, 0#64] = .illegal .unusedField [] := by decide

/-- A header whose payload has not come yet (rule R111). -/
theorem test_decode_incomplete :
    decode 2 [0x1B00000000000000#64, 0#64] = .incomplete ∧ decode 1 [] = .incomplete := by decide

/-- The example of rule R112: the list `[0xB1, 0, 0, 0, 0, 0, 0, 0x12]` is the payload word `0x12000000000000B1`. -/
theorem test_encode_setmr :
    encode (.setModuleRows 3 rows18) = .cmd64 [0x1A00000300000000#64, 0x12000000000000B1#64] := by decide

theorem test_table_word_setdr :
    decodeTableWord 64 0x1B00000000000000 = some (.setDisplayRows [0, 0, 0, 0, 0, 0, 0, 0]) := by decide
theorem test_table_word_wire : decodeTableWord 16 0x0A0F = some (.wIntensity 0 15) := by decide

/-! Operands: vectors V1 to V12 and V60 to V66. -/

theorem test_bitrev8 :
    bitrev8 0x01 = 0x80 ∧ bitrev8 0x0F = 0xF0 ∧ bitrev8 0xB1 = 0x8D ∧ bitrev8 0x12 = 0x48 ∧ bitrev8 0x34 = 0x2C := by
  decide
theorem test_clamp :
    clamp (-1) 0 15 = 0 ∧ clamp 16 0 15 = 15 ∧ clamp 15 0 15 = 15 ∧ clamp 256 0 255 = 255 ∧
    clamp (-32768) 0 255 = 0 := by decide
theorem test_pixelToPhysical :
    idle32.cfg.pixelToPhysical 12 3 = some ⟨1, 3, 4⟩ ∧ idle32.cfg.pixelToPhysical 0 8 = some ⟨5, 7, 7⟩ ∧
    idle32.cfg.pixelToPhysical 8 8 = some ⟨4, 7, 7⟩ ∧ idle32.cfg.pixelToPhysical 9 10 = some ⟨4, 5, 6⟩ ∧
    idle32.cfg.pixelToPhysical 23 15 = some ⟨3, 0, 0⟩ := by decide
/-- Vectors V64, V65: a permutation that is not its own inverse. -/
theorem test_translation_both_ways :
    let cfg : Cfg :=
      { columns := 2, rows := 2, chainOrder := [1, 2, 3, 0], rotated := [false, true, false, true], intensity0 := 0,
        tablesPresent := true }
    cfg.pixelToPhysical 8 0 = some ⟨2, 7, 7⟩ ∧ cfg.pixelToPhysical 15 15 = some ⟨0, 0, 0⟩ ∧
    cfg.chainInv 0 = some 3 ∧ cfg.chainInv 1 = some 0 ∧ cfg.physicalToPixel ⟨0, 0, 0⟩ = some (15, 15) ∧
    cfg.physicalToPixel ⟨2, 7, 7⟩ = some (8, 0) := by decide
theorem test_transmitPosition : idle32.cfg.transmitPosition 0 = 5 ∧ idle32.cfg.transmitPosition 5 = 0 := by decide

/-! Configuration and reset: vectors V120 to V126. -/

theorem test_invalid_configurations :
    offerTwice.normalise.valid = false ∧
    { offer32 with chainOrder := some [0, 1, 2, 5, 4] : Offered }.normalise.valid = false ∧
    { offer32 with rotated := some [false, false, false, true, true] : Offered }.normalise.valid = false ∧
    { offer21 with chainOrder := some [0, 2] : Offered }.normalise.valid = false ∧
    { offer32 with columns := 0 : Offered }.normalise.valid = false := by decide
theorem test_lone_table_is_one_tile : offerLone.normalise.valid = true ∧ offerLone.normalise.n = 1 := by decide
theorem test_intensity_is_clamped : { offer32 with intensity0 := 99 : Offered }.normalise.intensity0 = 15 := by decide
theorem test_reset_memory_is_canonical : State.reset.fb.wf = true := by decide
theorem test_reset_fields :
    State.reset.st = .idle ∧ State.reset.fault = 0 ∧ State.reset.trace = [] ∧ State.reset.chain.length = 1 := by decide

/-! The bus commands. -/

/-- Vector V33. -/
theorem test_begin :
    view (fun t => (t.st, t.line.sel, t.trace)) (exec .beginTransfer idle11) =
      some (.transferring, false, [{ line := .sel, level := false }]) := by decide
/-- Vector V34. -/
theorem test_begin_twice :
    view (fun t => (t.st, t.trace, t.fault, t.responses)) (exec .beginTransfer open11) =
      some (.transferring, [], 3, [.err .busState]) := by decide
/-- Vector V20: saturation, not wrap-around. -/
theorem test_sendw_saturates : view (fun t => t.sr? 0) (exec (.sendWord 16 256) open11) = some (some 0x0FFF) := by decide
/-- Vector V31. -/
theorem test_sendw_idle : view (fun t => (t.trace, t.fault)) (exec (.sendWord 1 1) idle11) = some ([], 3) := by decide
/-- Vector V24. -/
theorem test_sendr_reversed :
    view (fun t => t.sr? 0) (exec (.sendRow 4 0xB1 .reversed) open11) = some (some 0x048D) := by decide
/-- Vector V25: clamped before it is reversed. -/
theorem test_sendr_clamps_first :
    view (fun t => t.sr? 0) (exec (.sendRow 12 511 .reversed) open11) = some (some 0x0CFF) := by decide
/-- Vector V40: each device commits its own word. -/
theorem test_end_commits :
    view (fun t => (t.reg? 0 2, t.reg? 1 1, t.reg? 0 1, t.st))
      (exec .endTransfer { small offer21 .transferring with
        chain := [{ blankDevice with sr := 0x02BB }, { blankDevice with sr := 0x01AA }] }) =
      some (some 0xBB, some 0xAA, some 0, .idle) := by decide
/-- Vector V30: nothing is committed. -/
theorem test_end_idle :
    view (fun t => (t.trace, t.reg? 0 1, t.responses))
      (exec .endTransfer { idle11 with chain := [{ blankDevice with sr := 0x01AA }] }) =
      some ([], some 0, [.err .busState]) := by decide
/-- The example of rule R150. -/
theorem test_flush_one_module :
    view (fun t => (t.reg? 0 1, t.reg? 0 2, t.reg? 0 8, t.trace.length))
      (exec .flush (idle11.withFb [(0, 0x01), (7, 0x80)])) = some (some 0x01, some 0, some 0x80, 400) := by decide
/-- Vector V53. -/
theorem test_flush_in_bracket :
    view (fun t => (t.st, t.trace, t.responses)) (exec .flush open32) = some (.transferring, [], [.err .busState]) := by
  decide

/-! The framebuffer commands. -/

/-- Vector V70, and vector V67's address for another pixel. -/
theorem test_setpx :
    view (fun t => t.fb) (exec (.setPixel 23 15 true) idle32) = some [(24, 0x01)] ∧
    view (fun t => t.fb) (exec (.setPixel 8 8 true) idle32) = some [(39, 0x80)] := by decide
/-- Vectors V72, V73, V74. -/
theorem test_setpx_outside :
    view (fun t => (t.fb, t.fault)) (exec (.setPixel 24 0 true) idle32) = some ([], 4) ∧
    view (fun t => (t.fb, t.fault)) (exec (.setPixel 0 16 true) idle32) = some ([], 4) ∧
    view (fun t => (t.fb, t.fault)) (exec (.setPixel (-1) (-1) true) idle32) = some ([], 4) := by decide
/-- Vector V75. -/
theorem test_invpx :
    view (fun t => t.fb) (exec (.invertPixel 12 3) idle32) = some [(11, 0x10)] ∧
    view (fun t => t.fb) (exec (.invertPixel 12 3) (idle32.withFb [(11, 0x10)])) = some [] := by decide
/-- The example of rule R163. -/
theorem test_getpx :
    view (fun t => t.responses) (exec (.getPixel 8 8) (idle32.withFb [(39, 0x80)])) = some [.val true] ∧
    view (fun t => t.responses) (exec (.getPixel 9 8) (idle32.withFb [(39, 0x80)])) = some [.val false] := by decide
/-- Rule R164 for one module. -/
theorem test_clrd :
    view (fun t => t.fb) (exec (.clearDisplay true) idle11) =
      some [(0, 0xFF), (1, 0xFF), (2, 0xFF), (3, 0xFF), (4, 0xFF), (5, 0xFF), (6, 0xFF), (7, 0xFF)] ∧
    view (fun t => t.fb) (exec (.clearDisplay false) (idle32.withFb [(0, 1), (47, 2)])) = some [] := by decide
/-- Vector V78: the logical module, not the chain index. -/
theorem test_clrm :
    view (fun t => t.fb) (exec (.clearModule 3 true) idle32) =
      some [(40, 0xFF), (41, 0xFF), (42, 0xFF), (43, 0xFF), (44, 0xFF), (45, 0xFF), (46, 0xFF), (47, 0xFF)] := by decide
/-- Vector V79. -/
theorem test_clrm_outside :
    view (fun t => (t.fb, t.fault)) (exec (.clearModule 6 true) idle32) = some ([], 5) ∧
    view (fun t => (t.fb, t.fault)) (exec (.clearModule (-1) false) idle32) = some ([], 5) := by decide
/-- Vectors V80, V81. -/
theorem test_setmr :
    view (fun t => t.fb) (exec (.setModuleRows 1 rows18) idle32) = some [(8, 0xB1), (15, 0x12)] ∧
    view (fun t => t.fb) (exec (.setModuleRows 3 rows18) idle32) = some [(40, 0x48), (47, 0x8D)] := by decide
/-- Vector V83. -/
theorem test_setmr_outside :
    view (fun t => (t.fb, t.fault)) (exec (.setModuleRows 6 [1, 2, 3, 4, 5, 6, 7, 8]) idle32) = some ([], 5) := by decide
/-- Vector V84. -/
theorem test_setdr :
    view (fun t => t.fb)
      (exec (.setDisplayRows ([0x81] ++ List.replicate 23 0 ++ rows18 ++ List.replicate 16 0)) idle32) =
      some [(0, 0x81), (40, 0x48), (47, 0x8D)] := by decide

/-! The wire words, one each (rule R102). -/

theorem test_wire_noop : view (fun t => t.chain) (exec (.wNoop 0 7) idle11) = some [blankDevice] := by decide
theorem test_wire_row0 : view (fun t => t.reg? 0 1) (exec (.wRow0 0 0xA5) idle11) = some (some 0xA5) := by decide
theorem test_wire_row1 : view (fun t => t.reg? 0 2) (exec (.wRow1 0 0xA5) idle11) = some (some 0xA5) := by decide
theorem test_wire_row2 : view (fun t => t.reg? 0 3) (exec (.wRow2 0 0xA5) idle11) = some (some 0xA5) := by decide
theorem test_wire_row3 : view (fun t => t.reg? 0 4) (exec (.wRow3 0 0xA5) idle11) = some (some 0xA5) := by decide
theorem test_wire_row4 : view (fun t => t.reg? 0 5) (exec (.wRow4 0 0xA5) idle11) = some (some 0xA5) := by decide
theorem test_wire_row5 : view (fun t => t.reg? 0 6) (exec (.wRow5 0 0xA5) idle11) = some (some 0xA5) := by decide
theorem test_wire_row6 : view (fun t => t.reg? 0 7) (exec (.wRow6 0 0xA5) idle11) = some (some 0xA5) := by decide
theorem test_wire_row7 : view (fun t => t.reg? 0 8) (exec (.wRow7 0 0xA5) idle11) = some (some 0xA5) := by decide
theorem test_wire_decode : view (fun t => t.reg? 0 9) (exec (.wDecode 0 0xA5) idle11) = some (some 0xA5) := by decide
theorem test_wire_intensity : view (fun t => t.reg? 0 10) (exec (.wIntensity 0 0xA5) idle11) = some (some 0xA5) := by
  decide
theorem test_wire_scanlimit : view (fun t => t.reg? 0 11) (exec (.wScanlimit 0 0xA5) idle11) = some (some 0xA5) := by
  decide
theorem test_wire_shutdown : view (fun t => t.reg? 0 12) (exec (.wShutdown 0 0xA5) idle11) = some (some 0xA5) := by
  decide
theorem test_wire_rsvd13 : view (fun t => t.reg? 0 13) (exec (.wRsvd13 0 0xA5) idle11) = some (some 0xA5) := by decide
theorem test_wire_rsvd14 : view (fun t => t.reg? 0 14) (exec (.wRsvd14 0 0xA5) idle11) = some (some 0xA5) := by decide
theorem test_wire_test : view (fun t => t.reg? 0 15) (exec (.wTest 0 0xA5) idle11) = some (some 0xA5) := by decide

/-! Steps, the display, the pseudo-commands, the assembler. -/

theorem test_step_runs_placed_command :
    view (fun t => (t.fb, t.input)) (step (State.reset.withFetchWord 64 0x1001000000000000)) = some ([(0, 1)], []) := by
  decide
theorem test_step_runs_placed_wire_word :
    view (fun t => (t.reg? 0 10, t.input)) (step (State.reset.withFetchWord 16 0x0A07)) = some (some 7, []) := by decide
/-- Vector V116: one response for two words. -/
theorem test_step_illegal_payload :
    view (fun t => (t.input, t.responses, t.fault)) (step (idle11.withInput [0x1A00000000010000#64, 0#64])) =
      some ([], [.err .illegalCommand], 2) := by decide
/-- Rule R243 (2): four of the five steps are not enough, and neither is a value outside `0..15`. -/
theorem test_normal_operation_needs_an_intensity :
    runningDevice.normalOperation .presumed = true ∧
    { runningDevice with written := { runningDevice.written with intensity := false } : Device }.normalOperation
      .presumed = false ∧
    { runningDevice with intensity := 16 : Device }.normalOperation .presumed = false := by decide
/-- Rule R8: the register numbers are parameters, and INIT uses those it is given. -/
theorem test_startup_takes_the_parameters :
    let p : DriverParams := { DriverParams.presumed with regTest := 13, testOff := 5 }
    p.wellFormed = true ∧
    (startupSteps { idle11.cfg with driver := p }).take 3 = [.beginTransfer, .sendWord 13 5, .endTransfer] := by decide
/-- Rule R81: outside the display there is no pixel to show. -/
theorem test_no_pixel_outside : running32.pixelLit 24 0 = none ∧ running32.pixelLit 0 16 = none := by decide
theorem test_led_follows_row_register :
    (running32.withChain [{ runningDevice with row0 := 0x02 }]).ledLit 0 0 1 = some true ∧
    (running32.withChain [{ runningDevice with row0 := 0x02 }]).ledLit 0 0 0 = some false := by decide
/-- Vectors V92, V94. -/
theorem test_pseudo_commands :
    targetCommands idle32.cfg 1 10 7 =
      some [.beginTransfer, .sendWord 0 0, .sendWord 0 0, .sendWord 0 0, .sendWord 0 0, .sendWord 10 7, .sendWord 0 0,
        .endTransfer] ∧
    Pseudo.expand idle21.cfg (.intens 20) =
      some [.beginTransfer, .sendWord 10 15, .sendWord 10 15, .endTransfer] := by decide
/-- Vectors V97, V98, V99, V100. -/
theorem test_drawLine :
    (drawLineCommands idle32.cfg 0 0 5 2) =
      [.setPixel 0 0 true, .setPixel 1 0 true, .setPixel 2 1 true, .setPixel 3 1 true, .setPixel 4 2 true,
        .setPixel 5 2 true] ∧
    (drawLineCommands idle32.cfg 0 0 2 5) =
      [.setPixel 0 0 true, .setPixel 0 1 true, .setPixel 1 2 true, .setPixel 1 3 true, .setPixel 2 4 true,
        .setPixel 2 5 true] ∧
    (drawLineCommands idle32.cfg 22 14 26 18) = [.setPixel 22 14 true, .setPixel 23 15 true] ∧
    (drawLineCommands idle32.cfg (-2) 0 2 0) = [.setPixel 0 0 true, .setPixel 1 0 true, .setPixel 2 0 true] := by decide
/-- Rule R117's forms. -/
theorem test_assembler : asmText (.setPixel (-1) 10 true) = some "SETPX -1, 10, 1" := by decide

/-! Witnesses: for each obligation with hypotheses, a state and operands that meet all of them, at the ends of the
ranges they name. -/

/-- The largest tiling `CMD64` addresses in one direction (rule R109). -/
def widest : Cfg :=
  { columns := 4096, rows := 8, chainOrder := [], rotated := [], intensity0 := 0, tablesPresent := true }

theorem inv_idle32 : idle32.Inv where
  cfgValid := by decide
  intensity := by decide
  fbCanonical := by decide
  fbInside := by decide
  chainLength := by decide
  bracketOpen := by decide
  bracketClosed := by decide
  lineFollowsTrace := fun _ _ h => by cases h
  faultCode := by decide
  deadState := by decide

theorem inv_running32 : running32.Inv where
  cfgValid := by decide
  intensity := by decide
  fbCanonical := by decide
  fbInside := by decide
  chainLength := by decide
  bracketOpen := by decide
  bracketClosed := by decide
  lineFollowsTrace := fun _ _ h => by cases h
  faultCode := by decide
  deadState := by decide

theorem witness_ResetLeavesTheStatedValues :
    (offer32.normalise.valid = true ∧ 5 < offer32.normalise.n ∧ 7 < 8) ∧ offerTwice.normalise.valid = false := by decide
theorem witness_NormalisationFollowsTheSentinelAndTheClamp :
    offerLone.chainOrder = none ∧
    (offer32.chainOrder = some [0, 1, 2, 5, 4, 3] ∧ offer32.rotated = some [false, false, false, true, true, true]) ∧
    { offer32 with intensity0 := -1 : Offered }.intensity0 < 0 ∧
    15 < { offer32 with intensity0 := 16 : Offered }.intensity0 ∧
    (0 ≤ { offer32 with intensity0 := 15 : Offered }.intensity0 ∧
      { offer32 with intensity0 := 15 : Offered }.intensity0 ≤ 15) := by decide
theorem witness_ChainOrderIsABijection :
    idle32.cfg.valid = true ∧ 5 < idle32.cfg.n ∧ idle32.cfg.chainAt 5 = some 3 := by decide
theorem witness_CoordinatesFitTheirOperandsWithinTheLimits :
    widest.c ≤ 4096 ∧ widest.r ≤ 4096 ∧ widest.n ≤ 32768 ∧ widest.hasPixel 32767 63 = true ∧
    widest.hasModule 32767 = true := by decide
theorem witness_PixelTranslationFollowsTheFourSteps :
    idle32.cfg.valid = true ∧ 23 < 8 * idle32.cfg.c ∧ 15 < 8 * idle32.cfg.r := by decide
theorem witness_TranslationIsABijection :
    idle32.cfg.valid = true ∧ 23 < 8 * idle32.cfg.c ∧ 15 < 8 * idle32.cfg.r ∧
    ((⟨5, 7, 7⟩ : Place).m < idle32.cfg.n ∧ (⟨5, 7, 7⟩ : Place).r < 8 ∧ (⟨5, 7, 7⟩ : Place).b < 8) ∧
    idle32.cfg.pixelToPhysical 0 0 = some ⟨0, 0, 0⟩ ∧ idle32.cfg.pixelToPhysical 23 15 = some ⟨3, 0, 0⟩ := by decide
theorem witness_BracketLeavesTheLastWordsInTheChain :
    idle21.st = .idle ∧ idle21.chain.length = idle21.cfg.n ∧
    (∀ i ∈ [Instr.sendWord 3 0xCC], (sentWord i).isSome = true) ∧
    (∀ i ∈ [Instr.sendWord 4 1, .sendRow 5 2 .reversed, .sendWord 6 3], (sentWord i).isSome = true) ∧
    1 < idle21.cfg.n := by decide
theorem witness_BeginOpensABracket : idle11.st = .idle ∧ open11.st = .transferring := by decide
theorem witness_SendWordShiftsTheClampedWord : open11.st = .transferring ∧ idle11.st = .idle := by decide
theorem witness_SendRowShiftsTheByteInItsOrder : open32.st = .transferring ∧ idle32.st = .idle := by decide
theorem witness_EndCommitsEveryDevice :
    (open32.st = .transferring ∧ open32.line.sel = false ∧ open32.sr? 5 = some 0) ∧ idle32.st = .idle := by decide
theorem witness_BusCommandsAreRejectedInTheOtherState : open32.st = .transferring ∧ idle32.st = .idle := by decide
theorem witness_LatchRunsTheHeldWireWord :
    open32.st = .transferring ∧ open32.line.sel = false ∧ open32.sr? 5 = some 0 := by decide
theorem witness_FlushSendsEightBrackets : idle32.st = .idle ∧ 7 < 8 ∧ 5 < idle32.cfg.n := by decide
theorem witness_FlushShowsTheFramebuffer :
    idle32.st = .idle ∧ idle32.chain.length = idle32.cfg.n ∧ 5 < idle32.cfg.n ∧ 7 < 8 ∧ 9 ≤ 9 := by decide
theorem witness_FlushLatchesRowByRow :
    idle32.chain.length = idle32.cfg.n ∧ 8 ≤ 8 ∧ 5 < idle32.cfg.n ∧ 7 < 8 := by decide
theorem witness_FlushTwiceLeavesTheDevicesAlike :
    idle32.st = .idle ∧ idle32.chain.length = idle32.cfg.n := by decide
theorem witness_PixelSetAndFlushedIsShown :
    running32.Inv ∧ running32.st = .idle ∧ running32.cfg.hasPixel 23 15 = true ∧
    (∀ d ∈ running32.chain, d.normalOperation running32.cfg.driver = true) ∧
    (0 < running32.cfg.w ∧ 0 < running32.cfg.h ∧ (0 ≠ (23 : Int).toNat ∨ 0 ≠ (15 : Int).toNat) ∧
      running32.cfg.pixelToPhysical 0 0 = some ⟨0, 0, 0⟩) :=
  ⟨inv_running32, by decide⟩
theorem witness_SetPixelStoresOneBit :
    (idle32.st ≠ .configError ∧ idle32.cfg.valid = true ∧ idle32.fb.wf = true) ∧
    ((0 : Int) ≤ 23 ∧ 23 < (idle32.cfg.w : Int) ∧ (0 : Int) ≤ 15 ∧ 15 < (idle32.cfg.h : Int)) ∧
    ((-1 : Int) < 0 ∧ (idle32.cfg.w : Int) ≤ 24 ∧ (idle32.cfg.h : Int) ≤ 16) := by decide
theorem witness_InvertPixelFlipsOneBit :
    (idle32.st ≠ .configError ∧ idle32.cfg.valid = true ∧ idle32.fb.wf = true) ∧
    ((0 : Int) ≤ 23 ∧ 23 < (idle32.cfg.w : Int) ∧ (0 : Int) ≤ 15 ∧ 15 < (idle32.cfg.h : Int)) ∧
    (idle32.cfg.w : Int) ≤ 24 := by decide
theorem witness_GetPixelAnswersTheStoredBit :
    (open32.st ≠ .configError ∧ open32.cfg.valid = true) ∧
    ((0 : Int) ≤ 23 ∧ 23 < (open32.cfg.w : Int) ∧ (0 : Int) ≤ 15 ∧ 15 < (open32.cfg.h : Int)) ∧
    (open32.cfg.h : Int) ≤ 16 := by decide
theorem witness_ClearDisplaySetsEveryByte :
    idle32.st ≠ .configError ∧ idle32.fb.wf = true ∧ 5 < idle32.cfg.n ∧ 7 < 8 ∧ 8 * idle32.cfg.n ≤ 48 := by decide
theorem witness_ClearModuleSetsOneBlock :
    (idle32.st ≠ .configError ∧ idle32.cfg.valid = true ∧ idle32.fb.wf = true) ∧
    ((0 : Int) ≤ 5 ∧ 5 < (idle32.cfg.n : Int)) ∧ ((-1 : Int) < 0 ∧ (idle32.cfg.n : Int) ≤ 6) := by decide
theorem witness_SetModuleRowsStoresTheBlock :
    (idle32.st ≠ .configError ∧ idle32.cfg.valid = true ∧ idle32.fb.wf = true ∧ rows18.length = 8) ∧
    ((0 : Int) ≤ 5 ∧ 5 < (idle32.cfg.n : Int)) ∧ ((-1 : Int) < 0 ∧ (idle32.cfg.n : Int) ≤ 6) := by decide
theorem witness_SetDisplayRowsStoresEveryBlock :
    idle21.st ≠ .configError ∧ idle21.cfg.valid = true ∧ idle21.fb.wf = true ∧
    (rows18 ++ rows18).length = 8 * idle21.cfg.n ∧ 1 < idle21.cfg.n ∧ 7 < 8 ∧ 8 * idle21.cfg.n ≤ 16 := by decide
theorem witness_SetDisplayRowsEqualsModuleStoresInAnyOrder :
    idle21.st ≠ .configError ∧ idle21.cfg.valid = true ∧ idle21.fb.wf = true ∧
    (rows18 ++ rows18).length = 8 * idle21.cfg.n ∧ [1, 0].Perm (List.range idle21.cfg.n) := by decide
theorem witness_SourcePropertiesOfTheFramebufferCommands :
    idle32.Inv ∧ idle32.st ≠ .configError ∧ (5 < idle32.cfg.n ∧ 7 < 8) ∧ idle32.cfg.hasPixel 0 0 = true ∧
    idle32.cfg.hasPixel 23 15 = true ∧ ((0 : Int) ≠ 23 ∨ (0 : Int) ≠ 15) ∧ rows18.length = 8 :=
  ⟨inv_idle32, by decide⟩
theorem witness_FramebufferCommandsTouchNoLine :
    (∃ t, exec (.setPixel 23 15 true) idle32 = .next t) ∧
    (idle32.st ≠ .configError ∧ BusState.transferring ≠ .configError) ∧
    (∃ t, exec (.setPixel 24 0 true) idle32 = .next t ∧ t.responses = idle32.responses ++ [.err .coordRange]) :=
  ⟨⟨_, rfl⟩, by decide, ⟨_, rfl, rfl⟩⟩
theorem witness_FramebufferChangesOnlyByItsCommands :
    ∃ t, exec (.setPixel 23 15 true) idle32 = .next t ∧ t.fb ≠ idle32.fb := ⟨_, rfl, by decide⟩
theorem witness_StoresAreIdempotentAndInversionAnInvolution :
    idle32.fb.wf = true ∧
    (∃ t u, exec (.clearModule 5 true) idle32 = .next t ∧ exec (.clearModule 5 true) t = .next u) ∧
    (∃ t u, exec (.invertPixel 23 15) idle32 = .next t ∧ exec (.invertPixel 23 15) t = .next u) :=
  ⟨by decide, ⟨_, _, rfl, rfl⟩, ⟨_, _, rfl, rfl⟩⟩
theorem witness_CoordinatesOutsideAreRejected :
    idle32.st ≠ .configError ∧ (-1 : Int) < 0 ∧ (idle32.cfg.w : Int) ≤ 24 ∧ (idle32.cfg.h : Int) ≤ 16 := by decide
theorem witness_ModuleIndexOutsideIsRejected :
    idle32.st ≠ .configError ∧ rows18.length = 8 ∧ (-1 : Int) < 0 ∧ (idle32.cfg.n : Int) ≤ 6 := by decide
theorem witness_ConfigErrorRefusesEverything :
    offerTwice.normalise.valid = false ∧ dead.st = .configError ∧ isCommand .flush = true ∧
    ((dead.withInput [0x1A00000000000000#64, 0#64]).st = .configError ∧
      (dead.withInput [0x1A00000000000000#64, 0#64]).input = 0x1A00000000000000#64 :: [0#64]) := by decide
theorem witness_FaultsArePrecise :
    (isCommand (.clearModule 6 true) = true ∧ ∃ t, exec (.clearModule 6 true) idle32 = .next t ∧
      t.responses = idle32.responses ++ [.err .moduleRange]) ∧
    (∃ t, step (idle32.withInput [0#64]) = .next t ∧
      t.responses = (idle32.withInput [0#64]).responses ++ [.err .illegalCommand]) :=
  ⟨⟨by decide, _, rfl, rfl⟩, ⟨_, rfl, rfl⟩⟩
theorem witness_EachCommandRaisesOnlyItsOwnFaults :
    (isCommand (.getPixel 0 0) = true ∧ ∃ t, exec (.getPixel 0 0) idle32 = .next t ∧
      t.responses = idle32.responses ++ [.val false]) ∧
    (isCommand .flush = true ∧ ∃ t, exec .flush open32 = .next t ∧
      t.responses = open32.responses ++ [.err .busState]) ∧
    (isCommand (.getPixel 24 0) = true ∧ ∃ t, exec (.getPixel 24 0) idle32 = .next t ∧
      t.responses = idle32.responses ++ [.err .coordRange]) ∧
    (isCommand (.clearModule 6 true) = true ∧ ∃ t, exec (.clearModule 6 true) idle32 = .next t ∧
      t.responses = idle32.responses ++ [.err .moduleRange]) :=
  ⟨⟨by decide, _, rfl, rfl⟩, ⟨by decide, _, rfl, rfl⟩, ⟨by decide, _, rfl, rfl⟩, ⟨by decide, _, rfl, rfl⟩⟩
theorem witness_EveryExistingCommandCompletes :
    idle32.cfg.valid = true ∧ (Instr.setModuleRows 5 rows18).wellBuilt idle32.cfg.n = true ∧
    (Instr.setDisplayRows rows18).wellBuilt idle32.cfg.n = false ∧ idle32.st ≠ .configError := by decide
theorem witness_FaultRegisterKeepsItsFirstCode :
    (∃ t, step (dead.withInput [0#64]) = .next t ∧ (dead.withInput [0#64]).fault ≠ 0) ∧
    (∃ t, step (idle32.withInput [0#64]) = .next t ∧ (idle32.withInput [0#64]).fault = 0 ∧
      t.responses = (idle32.withInput [0#64]).responses ++ [.err .illegalCommand] ∧
      t.fault ≠ (idle32.withInput [0#64]).fault) :=
  ⟨⟨_, rfl, by decide⟩, ⟨_, rfl, by decide, rfl, by decide⟩⟩
theorem witness_DecodeOfEncodeIsTheInstruction :
    ((Instr.setModuleRows (-32768) rows18).wellFormed 1 = true ∧
      encode (.setModuleRows (-32768) rows18) = .cmd64 [0x1A00800000000000#64, 0x12000000000000B1#64]) ∧
    ((Instr.wTest 15 0xFF).wellFormed 1 = true ∧ encode (.wTest 15 0xFF) = .w16 0xFFFF#16) := by decide
theorem witness_EncodeOfDecodeIsTheWords :
    decode 2 [0x1B00000000000000#64, 0x0000000000000081#64, 0x12000000000000B1#64, 5#64] =
      .command (.setDisplayRows ([0x81, 0, 0, 0, 0, 0, 0, 0] ++ rows18)) [5#64] := by decide
theorem witness_IllegalWordsAreConsumedAndRejected :
    (idle32.withInput [0x1A00000000010000#64, 7#64, 9#64]).st ≠ .configError ∧
    (idle32.withInput [0x1A00000000010000#64, 7#64, 9#64]).input = 0x1A00000000010000#64 :: ([7#64] ++ [9#64]) ∧
    [7#64].length =
      (if (0x1A00000000010000#64).toNat / 2 ^ 56 = 0x1A then 1
        else if (0x1A00000000010000#64).toNat / 2 ^ 56 = 0x1B then idle32.cfg.n else 0) ∧
    (∀ row ∈ commandRows, 0x1A00000000010000#64 &&& row.2 ≠ row.1) :=
  ⟨by decide, rfl, by rfl, by simp [commandRows]⟩
theorem witness_IllegalWordsAreConsumedAndRejected_display :
    (idle21.withInput [0x1B01000000000000#64, 7#64, 9#64]).st ≠ .configError ∧
    (idle21.withInput [0x1B01000000000000#64, 7#64, 9#64]).input = 0x1B01000000000000#64 :: ([7#64, 9#64] ++ []) ∧
    [7#64, 9#64].length =
      (if (0x1B01000000000000#64).toNat / 2 ^ 56 = 0x1A then 1
        else if (0x1B01000000000000#64).toNat / 2 ^ 56 = 0x1B then idle21.cfg.n else 0) ∧
    (∀ row ∈ commandRows, 0x1B01000000000000#64 &&& row.2 ≠ row.1) :=
  ⟨by decide, rfl, by rfl, by simp [commandRows]⟩
theorem witness_StepRunsTheDecodedCommand :
    idle11.st ≠ .configError ∧
    decode idle11.cfg.n (idle11.withInput [0x0800000000000000#64, 0#64]).input = .command .flush [0#64] ∧
    decode idle11.cfg.n (idle11.withInput [0x1A00000000000000#64]).input = .incomplete := by decide
theorem witness_EveryStepKeepsTheInvariant : idle32.Inv ∧ ∃ t, step idle32 = .next t := ⟨inv_idle32, _, rfl⟩
theorem witness_ConfigurationNeverChanges :
    (∃ t, exec .flush idle11 = .next t) ∧ ∃ t, step (idle11.withInput [0x0100000000000000#64]) = .next t :=
  ⟨⟨_, rfl⟩, ⟨_, rfl⟩⟩
theorem witness_LinesAreTheOnlyWayOut :
    ∃ t, step (idle11.withInput [0x0100000000000000#64]) = .next t ∧ t.trace ≠ idle11.trace := ⟨_, rfl, by decide⟩
theorem witness_DevicesNeverInfluenceTheCore :
    (∃ t, step (idle11.withInput [0x0100000000000000#64]) = .next t) ∧
    ∃ why, step (broken.withInput [0x1000000000000000#64]) = .fault why := ⟨⟨_, rfl⟩, ⟨_, rfl⟩⟩
theorem witness_BusStateMovesOnlyByBeginAndEnd :
    (∃ t, exec .beginTransfer idle11 = .next t) ∧ ∃ t, exec .endTransfer open11 = .next t := ⟨⟨_, rfl⟩, ⟨_, rfl⟩⟩
theorem witness_RegistersChangeOnlyAtTheLatch :
    isCommand (.sendWord 1 0xAA) = true ∧ Instr.sendWord 1 0xAA ≠ .endTransfer ∧ Instr.sendWord 1 0xAA ≠ .flush ∧
    ∃ t, exec (.sendWord 1 0xAA) open11 = .next t := ⟨by decide, by decide, by decide, _, rfl⟩
theorem witness_BroadcastWritesEveryDevice :
    idle21.st = .idle ∧ idle21.chain.length = idle21.cfg.n ∧ 1 < idle21.cfg.n := by decide
theorem witness_TargetWritesOneDevice :
    idle32.st = .idle ∧ idle32.cfg.valid = true ∧ idle32.chain.length = idle32.cfg.n ∧
    idle32.cfg.hasModule 6 = false ∧ idle32.cfg.hasModule 5 = true ∧ 5 < idle32.cfg.n := by decide
theorem witness_StartupLeavesNormalOperation :
    idle32.Inv ∧ idle32.st = .idle ∧ idle32.cfg.driver.wellFormed = true := ⟨inv_idle32, by decide⟩
theorem witness_DisplayIsUndescribedUntilStartupIsDone :
    (∃ d, d ∈ (State.resetWith offer32).chain) ∧ idle32.st = .idle ∧ idle32.chain.length = idle32.cfg.n ∧
    idle32.cfg.driver.wellFormed = true ∧
    (∀ d ∈ idle32.chain, d.written.has idle32.cfg.driver.regIntensity = false) ∧ 5 < idle32.cfg.n ∧ 7 < 8 :=
  ⟨⟨_, List.mem_cons_self⟩, by decide⟩
theorem witness_DrawLineStaysInside :
    idle32.cfg.valid = true ∧ Instr.setPixel 23 15 true ∈ drawLineCommands idle32.cfg 22 14 26 18 := by decide

end Sys2Proof.Tests
end

/-! What each instruction answers, said once for all of `exec`, and the scope of LMX derived from it: no instruction
writes the configuration (rule R9), and line writes are the only way to the lines and the devices (rules R13, R30). -/

namespace Sys2Proof.Machine

/-! The decoder finds commands only. -/

theorem Header.accept_isCommand {h : Header} {useS useA useB : Bool} {i j : Instr} (hi : isCommand i = true)
    (hj : h.accept useS useA useB i = .ok j) : isCommand j = true := by
  unfold Header.accept at hj
  split at hj
  · cases hj
  · split at hj
    · cases hj
    · injection hj with hj
      exact hj ▸ hi

theorem decodeHeader_isCommand {h : Header} {payload : List CmdWord} {i : Instr}
    (hd : decodeHeader h payload = .ok i) : isCommand i = true := by
  unfold decodeHeader at hd
  split at hd
  case h_13 => cases hd
  all_goals exact Header.accept_isCommand rfl hd

/-- No header stands for a wire word (rules R100, R106). -/
theorem decode_isCommand {n : Nat} {words rest : List CmdWord} {i : Instr}
    (hd : decode n words = .command i rest) : isCommand i = true := by
  cases words with
  | nil => cases hd
  | cons w ws =>
    dsimp only [decode] at hd
    split at hd
    · cases hd
    · split at hd
      · rename_i hok
        injection hd with hi
        exact hi ▸ decodeHeader_isCommand hok
      · cases hd

/-! Every way an instruction answers a next state. -/

/-- The six commands that may write the framebuffer (rules R24, R34). -/
def Instr.storesFramebuffer : Instr → Bool
  | .setPixel _ _ _ | .invertPixel _ _ | .clearDisplay _ | .clearModule _ _ | .setModuleRows _ _
  | .setDisplayRows _ => true
  | _ => false

/-- What an instruction can make of `s`: a command is rejected, or moves the lines (rules R131 to R134, R150), or stores
to the framebuffer (rules R161 to R167), or reads a pixel (rule R163); a wire word commits in every device (log 5). -/
inductive Effect (s : State) : Instr → State → Prop
  | raised {i : Instr} (hi : isCommand i = true) (c : FaultCode) : Effect s i (s.raise c)
  | opened (hst : s.st = .idle) : Effect s .beginTransfer (s.openBracket.respond .ok)
  | sentWord (address data : Int) (hst : s.st = .transferring) :
      Effect s (.sendWord address data) ((s.shiftWord (busAddress address) (busData data)).respond .ok)
  | sentRow (address rowBits : Int) (order : BitOrder) (hst : s.st = .transferring) :
      Effect s (.sendRow address rowBits order)
        ((s.shiftWord (busAddress address) (rowData rowBits order)).respond .ok)
  | closed (hst : s.st = .transferring) : Effect s .endTransfer (s.closeBracket.respond .ok)
  | flushed (hst : s.st = .idle) : Effect s .flush (s.flushRows.respond .ok)
  | stored {i : Instr} (hi : Instr.storesFramebuffer i = true) (fb : Memory) :
      Effect s i ((s.withFb fb).respond .ok)
  | viewed (x y : Int) (bit : Bool) : Effect s (.getPixel x y) (s.respond (.val bit))
  | committed {i : Instr} (hi : isCommand i = false) : Effect s i (s.onEveryDevice (Device.commit · i))

section Guards

variable {s t : State} {i : Instr}

theorem Effect.of_whenConfigured {body : Result} (hi : isCommand i = true)
    (hbody : body = .next t → Effect s i t) (h : s.whenConfigured body = .next t) : Effect s i t := by
  rcases State.whenConfigured_next h with ⟨-, rfl⟩ | ⟨-, h⟩
  · exact .raised hi _
  · exact hbody h

theorem Effect.of_whenBus {required : BusState} {done : State} (hi : isCommand i = true)
    (hdone : s.st = required → Effect s i (done.respond .ok)) (h : s.whenBus required done = .next t) :
    Effect s i t := by
  rcases State.whenBus_next h with ⟨-, rfl⟩ | ⟨-, hst, rfl⟩ | ⟨-, -, rfl⟩
  · exact .raised hi _
  · exact hdone hst
  · exact .raised hi _

theorem Effect.of_whenPixel {x y : Int} {body : Place → Result} (hi : isCommand i = true)
    (hbody : ∀ p, body p = .next t → Effect s i t) (h : s.whenPixel x y body = .next t) : Effect s i t := by
  rcases State.whenPixel_next h with ⟨-, rfl⟩ | ⟨-, -, rfl⟩ | ⟨-, -, p, -, h⟩
  · exact .raised hi _
  · exact .raised hi _
  · exact hbody p h

theorem Effect.of_whenModule {l : Int} {body : Nat → Bool → Result} (hi : isCommand i = true)
    (hbody : ∀ m rot, body m rot = .next t → Effect s i t) (h : s.whenModule l body = .next t) : Effect s i t := by
  rcases State.whenModule_next h with ⟨-, rfl⟩ | ⟨-, -, rfl⟩ | ⟨-, -, m, rot, -, -, h⟩
  · exact .raised hi _
  · exact .raised hi _
  · exact hbody m rot h

end Guards

theorem Effect.of_setModuleRows {s t : State} {l : Int} {rows : List Byte}
    (h : execSetModuleRows l rows s = .next t) : Effect s (.setModuleRows l rows) t := by
  refine .of_whenConfigured rfl (fun h => ?_) h
  split at h
  · exact .of_whenModule rfl (fun _ _ h => by cases h; exact .stored rfl _) h
  · cases h

theorem Effect.of_setDisplayRows {s t : State} {rows : List Byte}
    (h : execSetDisplayRows rows s = .next t) : Effect s (.setDisplayRows rows) t := by
  refine .of_whenConfigured rfl (fun h => ?_) h
  split at h
  · split at h
    · rename_i u hu
      cases h
      rw [State.storeModules_eq hu]
      exact .stored rfl _
    · cases h
  · cases h

/-- An instruction that answers a next state has one of the effects of its kind. -/
theorem exec_next {i : Instr} {s t : State} (h : exec i s = .next t) : Effect s i t := by
  cases i with
  | beginTransfer => exact .of_whenBus rfl .opened h
  | sendWord address data => exact .of_whenBus rfl (.sentWord address data) h
  | sendRow address rowBits order => exact .of_whenBus rfl (.sentRow address rowBits order) h
  | endTransfer => exact .of_whenBus rfl .closed h
  | flush => exact .of_whenBus rfl .flushed h
  | setPixel x y on => exact .of_whenPixel rfl (fun _ h => by cases h; exact .stored rfl _) h
  | invertPixel x y => exact .of_whenPixel rfl (fun _ h => by cases h; exact .stored rfl _) h
  | getPixel x y => exact .of_whenPixel rfl (fun _ h => by cases h; exact .viewed x y _) h
  | clearDisplay state => exact .of_whenConfigured rfl (fun h => by cases h; exact .stored rfl _) h
  | clearModule l state => exact .of_whenModule rfl (fun _ _ h => by cases h; exact .stored rfl _) h
  | setModuleRows l rows => exact .of_setModuleRows h
  | setDisplayRows rows => exact .of_setDisplayRows h
  | wNoop pad data | wRow0 pad data | wRow1 pad data | wRow2 pad data | wRow3 pad data | wRow4 pad data
  | wRow5 pad data | wRow6 pad data | wRow7 pad data | wDecode pad data | wIntensity pad data
  | wScanlimit pad data | wShutdown pad data | wRsvd13 pad data | wRsvd14 pad data | wTest pad data =>
    cases h
    exact .committed rfl

/-! The configuration. -/

/-- No instruction writes `CFG` (rule R9). -/
theorem Effect.cfg_eq {s t : State} {i : Instr} (h : Effect s i t) : t.cfg = s.cfg := by
  cases h with
  | raised | viewed | stored | committed => rfl
  | opened => exact (State.respond_cfg _ _).trans (SameCore.openBracket s).cfg
  | sentWord | sentRow => exact (State.respond_cfg _ _).trans (SameCore.shiftWord s _ _).cfg
  | closed => exact (State.respond_cfg _ _).trans (SameCore.closeBracket s).cfg
  | flushed => exact (State.respond_cfg _ _).trans (SameCore.flushRows s).cfg

/-- Settles O51: no effect of an instruction touches `CFG`, and a step runs an instruction, waits, or takes a fault. -/
theorem configurationNeverChanges : Obligations.ConfigurationNeverChanges := by
  refine ⟨fun i s t h => (exec_next h).cfg_eq, fun s t h => ?_⟩
  rcases step_next h with ⟨-, rfl⟩ | ⟨c, rest, -, rfl⟩ | ⟨i, rest, -, hexec⟩
  · rfl
  · rfl
  · exact (exec_next hexec).cfg_eq

/-! Line writes. -/

theorem replay_append (start : Lines × List Device) (events more : List Event) :
    replay start (events ++ more) = replay (replay start events) more :=
  List.foldl_append

/-- From `s` to `t` the trace grows by some line writes, and replaying these on the lines and the devices of `s` gives
those of `t` (rules R13, R30). -/
def Replayed (s t : State) : Prop :=
  ∃ events, t.trace = s.trace ++ events ∧ (t.line, t.chain) = replay (s.line, s.chain) events

theorem Replayed.of_unchanged {s t : State} (htrace : t.trace = s.trace) (hline : t.line = s.line)
    (hchain : t.chain = s.chain) : Replayed s t :=
  ⟨[], by rw [htrace, List.append_nil], by rw [hline, hchain]; rfl⟩

theorem Replayed.refl (s : State) : Replayed s s := .of_unchanged rfl rfl rfl

theorem Replayed.trans {s t u : State} (h : Replayed s t) (h' : Replayed t u) : Replayed s u := by
  obtain ⟨events, htrace, hreplay⟩ := h
  obtain ⟨more, htrace', hreplay'⟩ := h'
  refine ⟨events ++ more, ?_, ?_⟩
  · rw [htrace', htrace, List.append_assoc]
  · rw [hreplay', hreplay, replay_append]

theorem Replayed.respond {s t : State} (h : Replayed s t) (r : Response) : Replayed s (t.respond r) := h

theorem Replayed.drive (s : State) (l : Line) (v : Bool) : Replayed s (s.drive l v) :=
  ⟨[{ line := l, level := v }], rfl, rfl⟩

theorem Replayed.shiftBit (s : State) (v : Bool) : Replayed s (s.shiftBit v) :=
  ((Replayed.drive s .clk false).trans (.drive _ .data v)).trans (.drive _ .clk true)

theorem Replayed.shiftBits (w : WireWord) (n : Nat) (s : State) : Replayed s (State.shiftBits w n s) := by
  induction n generalizing s with
  | zero => exact .refl s
  | succ n ih => exact (Replayed.shiftBit s _).trans (ih _)

theorem Replayed.shiftWord (s : State) (a : BitVec 4) (d : Byte) : Replayed s (s.shiftWord a d) :=
  .shiftBits _ 16 s

theorem Replayed.openBracket (s : State) : Replayed s s.openBracket := Replayed.drive s .sel selT

theorem Replayed.closeBracket (s : State) : Replayed s s.closeBracket := Replayed.drive s .sel selL

theorem Replayed.sendRowWords (r n : Nat) (s : State) : Replayed s (State.sendRowWords r n s) := by
  induction n generalizing s with
  | zero => exact .refl s
  | succ m ih => exact (Replayed.shiftWord s _ _).trans (ih _)

theorem Replayed.flushRow (s : State) (r : Nat) : Replayed s (s.flushRow r) :=
  ((Replayed.openBracket s).trans (.sendRowWords r _ _)).trans (.closeBracket _)

theorem Replayed.flushRowsOf (rows : List Nat) (s : State) : Replayed s (rows.foldl State.flushRow s) := by
  induction rows generalizing s with
  | nil => exact .refl s
  | cons r rest ih => exact (Replayed.flushRow s r).trans (ih _)

theorem Replayed.flushRows (s : State) : Replayed s s.flushRows := .flushRowsOf _ s

/-- A command reaches the lines and the devices by line writes alone. A wire word is no command: its commit in the
devices stands in no trace (log 5). -/
theorem Effect.replayed {s t : State} {i : Instr} (hi : isCommand i = true) (h : Effect s i t) : Replayed s t := by
  cases h with
  | raised | viewed | stored => exact .of_unchanged rfl rfl rfl
  | opened => exact (Replayed.openBracket s).respond _
  | sentWord | sentRow => exact (Replayed.shiftWord s _ _).respond _
  | closed => exact (Replayed.closeBracket s).respond _
  | flushed => exact (Replayed.flushRows s).respond _
  | committed hwire => rw [hwire] at hi; cases hi

/-- Settles O52: a step runs only what the decoder finds, which is a command, and every command is built from line
writes or leaves trace, lines and devices alone. -/
theorem linesAreTheOnlyWayOut : Obligations.LinesAreTheOnlyWayOut := by
  intro s t h
  rcases step_next h with ⟨-, rfl⟩ | ⟨c, rest, -, rfl⟩ | ⟨i, rest, hfetch, hexec⟩
  · exact Replayed.refl _
  · exact Replayed.of_unchanged rfl rfl rfl
  · obtain ⟨-, hdecode⟩ := State.fetch_fetched hfetch
    have htaken : Replayed s (s.withInput rest) := .of_unchanged rfl rfl rfl
    exact htaken.trans ((exec_next hexec).replayed (decode_isCommand hdecode))

end Sys2Proof.Machine

/-! Configuration and reset: rule R22 as its conditions, `chain_order` and its inverse on a valid configuration (rules
R21, R83), the two normalisations (rule R23), and what reset leaves (rule R35). -/

namespace Sys2Proof

/-- Settles O3: `Nodup` is that equal entries stand at equal places. -/
theorem configurationIsValidExactlyAsRequired : Obligations.ConfigurationIsValidExactlyAsRequired := by
  intro cfg
  have hinj : cfg.chainOrder.Nodup ↔ ∀ i j : Nat, i < cfg.chainOrder.length → j < cfg.chainOrder.length →
      cfg.chainOrder[i]? = cfg.chainOrder[j]? → i = j := by
    constructor
    · intro hnodup i j hi _ h
      exact (List.getElem?_inj hi hnodup).mp h
    · intro h
      refine List.nodup_iff_getElem?_ne_getElem?.mpr fun i j hij hj heq => ?_
      exact absurd (h i j (hij.trans hj) hj heq) hij.ne
  rw [Cfg.valid_iff, hinj]

/-- On a valid configuration `chainAt` is the entry of the table (rule R83). -/
theorem Cfg.chainAt_eq_some_iff {cfg : Cfg} (h : cfg.valid = true) {l m : Nat} :
    cfg.chainAt l = some m ↔ cfg.chainOrder[l]? = some (m : Int) := by
  by_cases hl : l < cfg.n
  · obtain ⟨k, hk, -, hget⟩ := Cfg.chainAt_of_lt h hl
    simp [hk, hget]
  · have hnone : cfg.chainOrder[l]? = none :=
      List.getElem?_eq_none (by rw [Cfg.valid_length_chainOrder h]; omega)
    simp [Cfg.chainAt, hnone]

/-- The inverse table gives the one place of a chain index (rules R21, R83). -/
theorem Cfg.chainInv_eq_some_iff {cfg : Cfg} (h : cfg.valid = true) {l m : Nat} :
    cfg.chainInv m = some l ↔ cfg.chainOrder[l]? = some (m : Int) := by
  obtain ⟨-, -, -, -, -, hnodup⟩ := (Cfg.valid_iff cfg).mp h
  rw [Cfg.chainInv, List.findIdx?_eq_some_iff_getElem, List.getElem?_eq_some_iff]
  constructor
  · rintro ⟨hl, hget, -⟩
    exact ⟨hl, of_decide_eq_true hget⟩
  · rintro ⟨hl, hget⟩
    refine ⟨hl, decide_eq_true hget, fun j hj => ?_⟩
    have hne : cfg.chainOrder[j] ≠ cfg.chainOrder[l] := fun heq => hj.ne ((hnodup.getElem_inj_iff).mp heq)
    simpa [hget] using hne

/-- Every chain index stands in the table: `N` different entries in `0..N-1` leave none out (rules R21, R22). -/
theorem Cfg.exists_chainOrder_eq {cfg : Cfg} (h : cfg.valid = true) {m : Nat} (hm : m < cfg.n) :
    ∃ l, l < cfg.n ∧ cfg.chainOrder[l]? = some (m : Int) := by
  have hn := Cfg.valid_n h
  have hlen := Cfg.valid_length_chainOrder h
  obtain ⟨-, -, -, -, hrange, hnodup⟩ := (Cfg.valid_iff cfg).mp h
  have hsub : cfg.chainOrder.toFinset ⊆ Finset.Ico (0 : Int) cfg.n := fun v hv => by
    rw [Finset.mem_Ico, hn]
    exact hrange v (List.mem_toFinset.mp hv)
  have hcard : (Finset.Ico (0 : Int) cfg.n).card ≤ cfg.chainOrder.toFinset.card := by
    rw [List.toFinset_card_of_nodup hnodup, hlen, Int.card_Ico]
    omega
  have hmem : (m : Int) ∈ cfg.chainOrder.toFinset := by
    rw [Finset.eq_of_subset_of_card_le hsub hcard, Finset.mem_Ico]
    omega
  obtain ⟨l, hl, hget⟩ := List.mem_iff_getElem.mp (List.mem_toFinset.mp hmem)
  exact ⟨l, hlen ▸ hl, List.getElem?_eq_some_iff.mpr ⟨hl, hget⟩⟩

/-- Settles O4: both tables are read off `chain_order`, whose entries cover `0..N-1` without repetition. -/
theorem chainOrderIsABijection : Obligations.ChainOrderIsABijection := by
  intro cfg h
  refine ⟨fun l hl => ?_, fun m hm => ?_, fun _ _ _ => Cfg.chainAt_injective h⟩
  · obtain ⟨m, hat, hm, hget⟩ := Cfg.chainAt_of_lt h hl
    exact ⟨m, hat, hm, (Cfg.chainInv_eq_some_iff h).mpr hget⟩
  · obtain ⟨l, hl, hget⟩ := Cfg.exists_chainOrder_eq h hm
    exact ⟨l, hl, (Cfg.chainInv_eq_some_iff h).mpr hget, (Cfg.chainAt_eq_some_iff h).mpr hget⟩

/-- A chain index that the lookup gives is one of `0..N-1`, for a rejected configuration too. -/
theorem Cfg.lt_of_chainAt {cfg : Cfg} {l m : Nat} (h : cfg.chainAt l = some m) : m < cfg.n := by
  unfold Cfg.chainAt at h
  split at h
  · split at h
    · cases h; omega
    · cases h
  · cases h

/-- Without both tables the configuration is one unrotated module (rule R23). -/
theorem Offered.normalise_of_table_missing {o : Offered} (h : o.chainOrder = none ∨ o.rotated = none) :
    o.normalise =
      { columns := 1, rows := 1, chainOrder := [0], rotated := [false], intensity0 := clamp o.intensity0 0 15,
        tablesPresent := false, driver := o.driver } := by
  unfold Offered.normalise
  split
  · simp_all
  · rfl

/-- With both tables they and the counts are kept as offered (rule R23). -/
theorem Offered.normalise_of_tables {o : Offered} {order : List Int} {rot : List Bool}
    (horder : o.chainOrder = some order) (hrot : o.rotated = some rot) :
    o.normalise =
      { columns := o.columns, rows := o.rows, chainOrder := order, rotated := rot,
        intensity0 := clamp o.intensity0 0 15, tablesPresent := true, driver := o.driver } := by
  simp [Offered.normalise, horder, hrot]

/-- Either way the intensity saturates (rule R23). -/
@[simp] theorem Offered.normalise_intensity0 (o : Offered) : o.normalise.intensity0 = clamp o.intensity0 0 15 := by
  unfold Offered.normalise
  split <;> rfl

theorem clamp_of_lt {v lo : Int} (h : v < lo) (hi : Int) : clamp v lo hi = lo := if_pos h

theorem clamp_of_gt {v lo hi : Int} (hlo : lo ≤ v) (h : hi < v) : clamp v lo hi = hi := by
  rw [clamp, if_neg (by omega), if_pos h]

theorem clamp_of_mem {v lo hi : Int} (hlo : lo ≤ v) (hhi : v ≤ hi) : clamp v lo hi = v := by
  rw [clamp, if_neg (by omega), if_neg (by omega)]

theorem clamp_mem {lo hi : Int} (h : lo ≤ hi) (v : Int) : lo ≤ clamp v lo hi ∧ clamp v lo hi ≤ hi := by
  unfold clamp
  split
  · omega
  · split <;> omega

/-- Settles O2: the tables decide between the two forms, the intensity is the clamp in both. -/
theorem normalisationFollowsTheSentinelAndTheClamp : Obligations.NormalisationFollowsTheSentinelAndTheClamp := by
  intro o
  refine ⟨fun hmissing => ?_, fun order rot horder hrot => ?_, fun hlow => ?_, fun hhigh => ?_, fun h0 h15 => ?_⟩
  · rw [Offered.normalise_of_table_missing hmissing]
    exact ⟨rfl, rfl, rfl, rfl, rfl, by simp [Cfg.valid_iff]⟩
  · rw [Offered.normalise_of_tables horder hrot]
    exact ⟨rfl, rfl, rfl, rfl, rfl⟩
  · rw [Offered.normalise_intensity0, clamp_of_lt hlow]
  · rw [Offered.normalise_intensity0, clamp_of_gt (by omega) hhigh]
  · rw [Offered.normalise_intensity0, clamp_of_mem h0 h15]

end Sys2Proof

namespace Sys2Proof.Machine

/-- Reset with a configuration that rule R22 accepts (rules R35, R66). -/
theorem State.resetWith_of_valid {o : Offered} (h : o.normalise.valid = true) :
    State.resetWith o =
      { cfg := o.normalise, st := .idle, fb := [], line := Lines.powerOn, fault := 0, trace := [],
        chain := (List.range o.normalise.n).map Device.powerOn, input := [], responses := [] } := if_pos h

/-- Reset with a configuration that rule R22 rejects (rule R35). -/
theorem State.resetWith_of_invalid {o : Offered} (h : o.normalise.valid = false) :
    State.resetWith o =
      { cfg := o.normalise, st := .configError, fb := [], line := Lines.powerOn, fault := 1, trace := [],
        chain := [], input := [], responses := [] } := if_neg (by simp [h])

/-- Settles O1: the two ways reset ends, field by field. -/
theorem resetLeavesTheStatedValues : Obligations.ResetLeavesTheStatedValues := by
  intro o
  cases h : o.normalise.valid with
  | true =>
    rw [State.resetWith_of_valid h]
    exact ⟨rfl, rfl, fun _ => ⟨rfl, rfl, fun _ _ _ _ => rfl⟩, nofun⟩
  | false =>
    rw [State.resetWith_of_invalid h]
    exact ⟨rfl, rfl, nofun, fun _ => ⟨rfl, rfl⟩⟩

/-- The codes of rule R211 are 1 to 5. -/
theorem FaultCode.number_le (c : FaultCode) : c.number.toNat ≤ 5 := by cases c <;> decide

/-- Settles O5: an accepted configuration starts `Idle` with `N` devices, a rejected one dead with `FAULT = 1`; both
with no cell listed and no line written. -/
theorem invariantHoldsAfterReset : Obligations.InvariantHoldsAfterReset := by
  intro o
  have hintensity : 0 ≤ o.normalise.intensity0 ∧ o.normalise.intensity0 ≤ 15 := by
    rw [Offered.normalise_intensity0]
    exact clamp_mem (by decide) _
  cases h : o.normalise.valid with
  | true =>
    rw [State.resetWith_of_valid h]
    exact
      { cfgValid := fun _ => h
        intensity := hintensity
        fbCanonical := rfl
        fbInside := rfl
        chainLength := fun _ => by simp
        bracketOpen := nofun
        bracketClosed := nofun
        lineFollowsTrace := nofun
        faultCode := Nat.zero_le _
        deadState := nofun }
  | false =>
    rw [State.resetWith_of_invalid h]
    exact
      { cfgValid := fun hlive => absurd rfl hlive
        intensity := hintensity
        fbCanonical := rfl
        fbInside := rfl
        chainLength := fun hlive => absurd rfl hlive
        bracketOpen := nofun
        bracketClosed := nofun
        lineFollowsTrace := nofun
        faultCode := FaultCode.number_le .configInvalid
        deadState := fun _ => ⟨rfl, rfl⟩ }

/-! What a step keeps, clause by clause of `State.Inv`. -/

/-! The bus state (rule R26). -/

/-- `ST` stays, or moves as BEGIN and END move it. -/
theorem Effect.st_transition {s t : State} {i : Instr} (h : Effect s i t) :
    t.st = s.st ∨ (i = .beginTransfer ∧ s.st = .idle ∧ t.st = .transferring) ∨
      (i = .endTransfer ∧ s.st = .transferring ∧ t.st = .idle) := by
  cases h with
  | raised | stored | viewed | committed => exact .inl rfl
  | opened hst => exact .inr (.inl ⟨rfl, hst, rfl⟩)
  | sentWord | sentRow => rw [State.shiftWord_eq]; exact .inl rfl
  | closed hst => exact .inr (.inr ⟨rfl, hst, rfl⟩)
  | flushed hst => exact .inl (s.flushRows_ends.1.trans hst.symm)

/-- Settles O54: the transition of each effect. -/
theorem busStateMovesOnlyByBeginAndEnd : Obligations.BusStateMovesOnlyByBeginAndEnd :=
  fun _ _ _ h => (exec_next h).st_transition

theorem Effect.configError_iff {s t : State} {i : Instr} (h : Effect s i t) :
    t.st = .configError ↔ s.st = .configError := by
  rcases h.st_transition with hst | ⟨-, hs, ht⟩ | ⟨-, hs, ht⟩
  · rw [hst]
  · simp [hs, ht]
  · simp [hs, ht]

/-- A step neither enters nor leaves `ConfigError` (rules R26, R212). -/
theorem step_configError_iff {s t : State} (h : step s = .next t) : t.st = .configError ↔ s.st = .configError := by
  rcases step_next h with ⟨-, rfl⟩ | ⟨c, rest, -, rfl⟩ | ⟨i, rest, -, hexec⟩
  · rfl
  · rfl
  · exact (exec_next hexec).configError_iff

/-! FAULT (rules R28, R216). -/

theorem stickyFault_zero (c : FaultCode) : stickyFault 0 c = c.number := if_pos rfl

theorem stickyFault_of_ne {fault : BitVec 8} (h : fault ≠ 0) (c : FaultCode) : stickyFault fault c = fault := if_neg h

/-- Between `s` and `t` one fault was taken, or `FAULT` stayed and no error was answered. -/
def FaultTaken (s t : State) : Prop :=
  (∃ c, t.fault = stickyFault s.fault c ∧ t.responses = s.responses ++ [.err c]) ∨
    (t.fault = s.fault ∧ ∀ c, t.responses ≠ s.responses ++ [.err c])

theorem FaultTaken.raise (s : State) (c : FaultCode) : FaultTaken s (s.raise c) := .inl ⟨c, rfl, rfl⟩

theorem FaultTaken.unanswered {s t : State} (hfault : t.fault = s.fault) (hresp : t.responses = s.responses) :
    FaultTaken s t :=
  .inr ⟨hfault, fun c => by simp [hresp]⟩

theorem FaultTaken.respond {s t : State} (h : SameCore s t) {r : Response} (hr : ∀ c, r ≠ .err c) :
    FaultTaken s (t.respond r) :=
  .inr ⟨h.fault, fun c => by simpa [h.responses] using hr c⟩

/-- Only a rejected command takes a fault; any other answers no error, and a wire word answers nothing (log 5). -/
theorem Effect.faultTaken {s t : State} {i : Instr} (h : Effect s i t) : FaultTaken s t := by
  cases h with
  | raised hi c => exact .raise s c
  | opened => exact .respond (SameCore.openBracket s) nofun
  | sentWord | sentRow => exact .respond (SameCore.shiftWord s _ _) nofun
  | closed => exact .respond (SameCore.closeBracket s) nofun
  | flushed => exact .respond (SameCore.flushRows s) nofun
  | stored => exact .inr ⟨rfl, fun c => by simp⟩
  | viewed => exact .respond (SameCore.refl s) nofun
  | committed => exact .unanswered rfl rfl

theorem step_faultTaken {s t : State} (h : step s = .next t) : FaultTaken s t := by
  rcases step_next h with ⟨-, rfl⟩ | ⟨c, rest, -, rfl⟩ | ⟨i, rest, -, hexec⟩
  · exact .unanswered rfl rfl
  · exact FaultTaken.raise (s.withInput rest) c
  · exact (exec_next hexec).faultTaken

/-- Settles O42: a step takes one fault, and then the sticky update says what `FAULT` becomes, or it takes none. -/
theorem faultRegisterKeepsItsFirstCode : Obligations.FaultRegisterKeepsItsFirstCode := by
  intro s t h
  rcases step_faultTaken h with ⟨c, hfault, hresp⟩ | ⟨hfault, hresp⟩
  · by_cases h0 : s.fault = 0
    · rw [h0, stickyFault_zero] at hfault
      refine ⟨fun hne => absurd h0 hne, fun c' _ hresp' => ?_, fun _ => ⟨h0, c, hresp, hfault⟩⟩
      have hc : c = c' := by simpa [hresp] using hresp'
      rw [hfault, hc]
    · rw [stickyFault_of_ne h0] at hfault
      exact ⟨fun _ => hfault, fun _ hzero => absurd hzero h0, fun hne => absurd hfault hne⟩
  · exact ⟨fun _ => hfault, fun c _ hresp' => absurd hresp' (hresp c), fun hne => absurd hfault hne⟩

/-- `FAULT` keeps holding a code of rule R211 or 0. -/
theorem step_faultCode {s t : State} (h : step s = .next t) (hs : s.fault.toNat ≤ 5) : t.fault.toNat ≤ 5 := by
  obtain ⟨-, -, hchange⟩ := faultRegisterKeepsItsFirstCode s t h
  by_cases heq : t.fault = s.fault
  · rw [heq]; exact hs
  · obtain ⟨-, c, -, hc⟩ := hchange heq
    rw [hc]; exact c.number_le

/-- `ConfigError` is dead: no line is written there (rule R212). -/
theorem step_trace_of_configError {s t : State} (hst : s.st = .configError) (h : step s = .next t) :
    t.trace = s.trace := by
  rcases step_next h with ⟨-, rfl⟩ | ⟨c, rest, -, rfl⟩ | ⟨i, rest, hfetch, -⟩
  · rfl
  · rfl
  · exact absurd hst (State.fetch_fetched hfetch).1

/-! The framebuffer (rules R24, R25). -/

/-- An instruction that is none of the six stores leaves the framebuffer. -/
theorem Effect.fb_eq {s t : State} {i : Instr} (h : Effect s i t) (hi : Instr.storesFramebuffer i = false) :
    t.fb = s.fb := by
  cases h with
  | raised | viewed | committed => rfl
  | opened => exact (State.respond_fb _ _).trans (SameCore.openBracket s).fb
  | sentWord | sentRow => exact (State.respond_fb _ _).trans (SameCore.shiftWord s _ _).fb
  | closed => exact (State.respond_fb _ _).trans (SameCore.closeBracket s).fb
  | flushed => exact (State.respond_fb _ _).trans (SameCore.flushRows s).fb
  | stored hstores => rw [hstores] at hi; cases hi

/-- Settles O34: every other instruction has an effect that leaves the framebuffer. -/
theorem framebufferChangesOnlyByItsCommands : Obligations.FramebufferChangesOnlyByItsCommands := by
  intro i s t h hne
  have hstores : Instr.storesFramebuffer i = true := by
    by_contra hother
    exact hne ((exec_next h).fb_eq (Bool.eq_false_of_not_eq_true hother))
  cases i with
  | setPixel x y on => exact .inl ⟨x, y, on, rfl⟩
  | invertPixel x y => exact .inr (.inl ⟨x, y, rfl⟩)
  | clearDisplay on => exact .inr (.inr (.inl ⟨on, rfl⟩))
  | clearModule l on => exact .inr (.inr (.inr (.inl ⟨l, on, rfl⟩)))
  | setModuleRows l rows => exact .inr (.inr (.inr (.inr (.inl ⟨l, rows, rfl⟩))))
  | setDisplayRows rows => exact .inr (.inr (.inr (.inr (.inr ⟨rows, rfl⟩))))
  | _ => cases hstores

/-- The framebuffer is canonical and holds no cell outside its `8 * N` bytes (rule R25). -/
def State.FbFits (s : State) : Prop := s.fb.wf = true ∧ s.fb.below (8 * s.cfg.n) = true

theorem State.FbFits.of_eq {s t : State} (hs : s.FbFits) (hfb : t.fb = s.fb) (hcfg : t.cfg = s.cfg) : t.FbFits := by
  unfold State.FbFits
  rw [hfb, hcfg]
  exact hs

theorem State.FbFits.storePixel {s : State} (hs : s.FbFits) {x y : Nat} {p : Place}
    (hp : s.cfg.pixelToPhysical x y = some p) (on : Bool) : (s.storePixel p on).FbFits := by
  obtain ⟨hm, hr, -⟩ := Cfg.pixelToPhysical_bounds hp
  exact ⟨State.wf_storePixel hs.1 p on, Memory.below_write hs.2 (by unfold fbAddr; omega) _⟩

theorem State.FbFits.storeBlock {s : State} (hs : s.FbFits) {m : Nat} (hm : m < s.cfg.n) {bytes : List Byte}
    (hlen : bytes.length ≤ 8) : (s.storeBlock m bytes).FbFits :=
  ⟨State.wf_storeBlock hs.1 m bytes, Memory.below_writeBytes hs.2 (by rw [State.storeBlock_cfg, fbAddr]; omega)⟩

theorem State.FbFits.fillDisplay {s : State} (hs : s.FbFits) (v : Byte) : (s.fillDisplay v).FbFits :=
  ⟨State.wf_fillDisplay hs.1 v, Memory.below_writeBytes hs.2 (by simp)⟩

theorem State.FbFits.storeModules {s t : State} (hs : s.FbFits) {rows : List Byte} {n : Nat}
    (h : s.storeModules rows n = some t) : t.FbFits := by
  induction n generalizing t with
  | zero => cases h; exact hs
  | succ l ih =>
    simp only [State.storeModules] at h
    split at h
    · rename_i u m rot hu hm hrot
      cases h
      have hcfg : u.cfg = s.cfg := by rw [State.storeModules_eq hu]; rfl
      have hlt : m < u.cfg.n := by rw [hcfg]; exact Cfg.lt_of_chainAt hm
      exact (ih hu).storeBlock hlt (by simp)
    · cases h

section Guards

variable {s t : State}

theorem State.FbFits.of_whenConfigured {body : Result} (hs : s.FbFits) (hbody : body = .next t → t.FbFits)
    (h : s.whenConfigured body = .next t) : t.FbFits := by
  rcases State.whenConfigured_next h with ⟨-, rfl⟩ | ⟨-, h⟩
  · exact hs
  · exact hbody h

theorem State.FbFits.of_whenPixel {x y : Int} {body : Place → Result} (hs : s.FbFits)
    (hbody : ∀ p, s.cfg.pixelToPhysical x.toNat y.toNat = some p → body p = .next t → t.FbFits)
    (h : s.whenPixel x y body = .next t) : t.FbFits := by
  rcases State.whenPixel_next h with ⟨-, rfl⟩ | ⟨-, -, rfl⟩ | ⟨-, -, p, hp, h⟩
  · exact hs
  · exact hs
  · exact hbody p hp h

theorem State.FbFits.of_whenModule {l : Int} {body : Nat → Bool → Result} (hs : s.FbFits)
    (hbody : ∀ m rot, m < s.cfg.n → body m rot = .next t → t.FbFits)
    (h : s.whenModule l body = .next t) : t.FbFits := by
  rcases State.whenModule_next h with ⟨-, rfl⟩ | ⟨-, -, rfl⟩ | ⟨-, -, m, rot, hm, -, h⟩
  · exact hs
  · exact hs
  · exact hbody m rot (Cfg.lt_of_chainAt hm) h

theorem State.FbFits.setModuleRows {l : Int} {rows : List Byte} (hs : s.FbFits)
    (h : execSetModuleRows l rows s = .next t) : t.FbFits := by
  refine .of_whenConfigured hs (fun h => ?_) h
  split at h
  · rename_i hlen
    refine .of_whenModule hs (fun m rot hm h => ?_) h
    cases h
    exact hs.storeBlock hm (by simp [hlen])
  · cases h

theorem State.FbFits.setDisplayRows {rows : List Byte} (hs : s.FbFits)
    (h : execSetDisplayRows rows s = .next t) : t.FbFits := by
  refine .of_whenConfigured hs (fun h => ?_) h
  split at h
  · split at h
    · rename_i u hu
      cases h
      have hfits : u.FbFits := hs.storeModules hu
      exact hfits
    · cases h
  · cases h

end Guards

/-- Every instruction keeps the framebuffer canonical and inside its size: the six stores write inside it, the others
not at all. -/
theorem exec_fbFits {i : Instr} {s t : State} (hs : s.FbFits) (h : exec i s = .next t) : t.FbFits := by
  cases hstores : Instr.storesFramebuffer i with
  | false => exact hs.of_eq ((exec_next h).fb_eq hstores) (exec_next h).cfg_eq
  | true =>
    cases i with
    | setPixel x y on => exact .of_whenPixel hs (fun p hp h => by cases h; exact hs.storePixel hp _) h
    | invertPixel x y => exact .of_whenPixel hs (fun p hp h => by cases h; exact hs.storePixel hp _) h
    | clearDisplay state => exact .of_whenConfigured hs (fun h => by cases h; exact hs.fillDisplay _) h
    | clearModule l state =>
      exact .of_whenModule hs (fun m rot hm h => by cases h; exact hs.storeBlock hm (by simp)) h
    | setModuleRows l rows => exact hs.setModuleRows h
    | setDisplayRows rows => exact hs.setDisplayRows h
    | _ => cases hstores

theorem step_fbFits {s t : State} (hs : s.FbFits) (h : step s = .next t) : t.FbFits := by
  rcases step_next h with ⟨-, rfl⟩ | ⟨c, rest, -, rfl⟩ | ⟨i, rest, -, hexec⟩
  · exact hs
  · exact hs
  · exact exec_fbFits (s := s.withInput rest) hs hexec

/-! SEL and the bus state (rule R137). -/

/-- SEL is transparent inside a bracket and latching outside one, once it has been written. -/
def State.SelFollowsBus (s : State) : Prop :=
  (s.st = .transferring → s.line.sel = selT) ∧
    (s.st = .idle → (lastLevel .sel s.trace).isSome = true → s.line.sel = selL)

/-- BEGIN and END set SEL with the state; a word inside a bracket leaves both; a flush ends as END does. -/
theorem Effect.selFollowsBus {s t : State} {i : Instr} (h : Effect s i t) (hs : s.SelFollowsBus) :
    t.SelFollowsBus := by
  cases h with
  | raised | stored | viewed | committed => exact hs
  | opened => exact ⟨fun _ => rfl, nofun⟩
  | sentWord _ _ hst | sentRow _ _ _ hst =>
    rw [State.shiftWord_eq]
    exact ⟨fun _ => hs.1 hst, fun hidle => by cases hst.symm.trans hidle⟩
  | closed => exact ⟨nofun, fun _ _ => rfl⟩
  | flushed => exact ⟨nofun, fun _ _ => rfl⟩

theorem step_selFollowsBus {s t : State} (hs : s.SelFollowsBus) (h : step s = .next t) : t.SelFollowsBus := by
  rcases step_next h with ⟨-, rfl⟩ | ⟨c, rest, -, rfl⟩ | ⟨i, rest, -, hexec⟩
  · exact hs
  · exact hs
  · exact (exec_next hexec).selFollowsBus (s := s.withInput rest) hs

/-! The lines, the trace and the number of devices: facts of replaying line writes, which is all a step does to them. -/

/-- The level a line stands at is that of its last event (rule R30). -/
def LinesFollow (line : Lines) (trace : List Event) : Prop := ∀ l v, lastLevel l trace = some v → line.get l = v

theorem lastLevel_append_same (trace : List Event) (e : Event) : lastLevel e.line (trace ++ [e]) = some e.level := by
  simp [lastLevel]

theorem lastLevel_append_other (trace : List Event) {e : Event} {l : Line} (h : e.line ≠ l) :
    lastLevel l (trace ++ [e]) = lastLevel l trace := by
  simp [lastLevel, h]

theorem LinesFollow.set {line : Lines} {trace : List Event} (h : LinesFollow line trace) (e : Event) :
    LinesFollow (line.set e.line e.level) (trace ++ [e]) := by
  intro l v hlast
  by_cases hl : e.line = l
  · subst hl
    rw [lastLevel_append_same] at hlast
    rw [Lines.get_set_same]
    exact Option.some.inj hlast
  · rw [lastLevel_append_other _ hl] at hlast
    rw [Lines.get_set_other _ _ (Ne.symm hl)]
    exact h l v hlast

theorem LinesFollow.replay {start : Lines × List Device} {trace : List Event} (h : LinesFollow start.1 trace)
    (events : List Event) : LinesFollow (replay start events).1 (trace ++ events) := by
  induction events generalizing start trace with
  | nil => rwa [List.append_nil]
  | cons e rest ih =>
    rw [List.append_cons]
    exact ih (start := replayEvent start e) (h.set e)

/-- The devices shift or commit, and stay as many (rules R66 to R68). -/
@[simp] theorem length_reactTo (l : Line) (old new data : Bool) (chain : List Device) :
    (reactTo l old new data chain).length = chain.length := by
  cases l with
  | sel | clk => dsimp only [reactTo]; split <;> simp
  | data => rfl

theorem length_replay (start : Lines × List Device) (events : List Event) :
    (replay start events).2.length = start.2.length := by
  induction events generalizing start with
  | nil => rfl
  | cons e rest ih => exact (ih _).trans (length_reactTo _ _ _ _ _)

theorem step_length_chain {s t : State} (h : step s = .next t) : t.chain.length = s.chain.length := by
  obtain ⟨events, -, hreplay⟩ := linesAreTheOnlyWayOut s t h
  exact (congrArg (·.2.length) hreplay).trans (length_replay _ events)

theorem step_linesFollow {s t : State} (hs : LinesFollow s.line s.trace) (h : step s = .next t) :
    LinesFollow t.line t.trace := by
  obtain ⟨events, htrace, hreplay⟩ := linesAreTheOnlyWayOut s t h
  have hline : t.line = (replay (s.line, s.chain) events).1 := congrArg Prod.fst hreplay
  rw [hline, htrace]
  exact LinesFollow.replay (start := (s.line, s.chain)) hs events

/-- Settles O50: one lemma for each clause; `CFG` never changes and `ConfigError` is never entered or left, so the
clauses about them carry over. -/
theorem everyStepKeepsTheInvariant : Obligations.EveryStepKeepsTheInvariant := by
  intro s t hs h
  have hcfg : t.cfg = s.cfg := configurationNeverChanges.2 s t h
  have hdead : t.st = .configError ↔ s.st = .configError := step_configError_iff h
  obtain ⟨hwf, hbelow⟩ : t.FbFits := step_fbFits ⟨hs.fbCanonical, hs.fbInside⟩ h
  obtain ⟨hopen, hclosed⟩ : t.SelFollowsBus := step_selFollowsBus ⟨hs.bracketOpen, hs.bracketClosed⟩ h
  obtain ⟨hsticky, -⟩ := faultRegisterKeepsItsFirstCode s t h
  exact
    { cfgValid := fun hlive => hcfg ▸ hs.cfgValid (hlive ∘ hdead.mpr)
      intensity := hcfg ▸ hs.intensity
      fbCanonical := hwf
      fbInside := hbelow
      chainLength := fun hlive => by rw [step_length_chain h, hcfg, hs.chainLength (hlive ∘ hdead.mpr)]
      bracketOpen := hopen
      bracketClosed := hclosed
      lineFollowsTrace := step_linesFollow hs.lineFollowsTrace h
      faultCode := step_faultCode h hs.faultCode
      deadState := fun hst => by
        obtain ⟨hfault, htrace⟩ := hs.deadState (hdead.mp hst)
        have hne : s.fault ≠ 0 := by rw [hfault]; decide
        exact ⟨(hsticky hne).trans hfault, (step_trace_of_configError (hdead.mp hst) h).trans htrace⟩ }

end Sys2Proof.Machine

/-! The chain and the latch: a word sent moves every shift register one device on and no register (rules R63, R67), an
END commits in every device the word it holds (rule R68), and so what a whole bracket leaves in the chain (rule R69). -/

namespace Sys2Proof.Machine

/-! The devices by place. -/

theorem State.reg?_eq_bind (s : State) (k a : Nat) : s.reg? k a = (s.chain[k]?).bind (Device.reg? · a) := by
  unfold State.reg?
  cases s.chain[k]? <;> rfl

theorem State.reg?_of_getElem? {s : State} {k : Nat} {d : Device} (hd : s.chain[k]? = some d) (a : Nat) :
    s.reg? k a = d.reg? a := by
  rw [State.reg?_eq_bind, hd, Option.bind_some]

theorem State.reg?_congr {s t : State} (h : t.chain = s.chain) (k a : Nat) : t.reg? k a = s.reg? k a := by
  rw [State.reg?_eq_bind, State.reg?_eq_bind, h]

@[simp] theorem State.respond_reg? (s : State) (r : Response) (k a : Nat) : (s.respond r).reg? k a = s.reg? k a := rfl
@[simp] theorem State.respond_sr? (s : State) (r : Response) (k : Nat) : (s.respond r).sr? k = s.sr? k := rfl
@[simp] theorem State.openBracket_reg? (s : State) (k a : Nat) : s.openBracket.reg? k a = s.reg? k a := rfl
@[simp] theorem State.openBracket_sr? (s : State) (k : Nat) : s.openBracket.sr? k = s.sr? k := rfl

/-- `ENV.SR` as one list. -/
theorem State.sr?_eq_getElem? (s : State) (k : Nat) : s.sr? k = (s.chain.map Device.sr)[k]? := List.getElem?_map.symm

theorem State.exists_of_sr? {s : State} {k : Nat} {w : WireWord} (h : s.sr? k = some w) :
    ∃ d, s.chain[k]? = some d ∧ d.sr = w :=
  Option.map_eq_some_iff.mp h

/-! A word sent. -/

/-- A word pushed in stands before the words held, and the last one falls out (rule R67). -/
theorem map_sr_pushWord (w : WireWord) (chain : List Device) :
    (pushWord w chain).map Device.sr = (w :: chain.map Device.sr).take chain.length := by
  induction chain generalizing w with
  | nil => rfl
  | cons d rest ih => simp [pushWord, ih]

theorem pushWord_reg? (w : WireWord) (chain : List Device) (k a : Nat) :
    ((pushWord w chain)[k]?).bind (Device.reg? · a) = (chain[k]?).bind (Device.reg? · a) := by
  induction chain generalizing w k with
  | nil => rfl
  | cons d rest ih =>
    cases k with
    | zero => rfl
    | succ k => exact ih d.sr k

@[simp] theorem State.shiftWord_st (s : State) (addr : BitVec 4) (v : Byte) : (s.shiftWord addr v).st = s.st := by
  rw [State.shiftWord_eq]

@[simp] theorem State.shiftWord_sel (s : State) (addr : BitVec 4) (v : Byte) :
    (s.shiftWord addr v).line.sel = s.line.sel := by
  rw [State.shiftWord_eq]

@[simp] theorem State.shiftWord_chain (s : State) (addr : BitVec 4) (v : Byte) :
    (s.shiftWord addr v).chain = pushWord (wireCode 0 addr v) s.chain := by
  rw [State.shiftWord_eq]

/-- Shifting changes no register (rules R63, R67). -/
@[simp] theorem State.shiftWord_reg? (s : State) (addr : BitVec 4) (v : Byte) (k a : Nat) :
    (s.shiftWord addr v).reg? k a = s.reg? k a := by
  rw [State.reg?_eq_bind, State.reg?_eq_bind, State.shiftWord_chain, pushWord_reg?]

/-- Of the commands only END and FLUSH reach a register (rule R63). -/
theorem Effect.reg?_eq {s t : State} {i : Instr} (h : Effect s i t) (hi : isCommand i = true)
    (hend : i ≠ .endTransfer) (hflush : i ≠ .flush) (k a : Nat) : t.reg? k a = s.reg? k a := by
  cases h with
  | raised | opened | stored | viewed => exact State.reg?_congr rfl k a
  | sentWord | sentRow => rw [State.respond_reg?, State.shiftWord_reg?]
  | closed => exact absurd rfl hend
  | flushed => exact absurd rfl hflush
  | committed hwire => rw [hwire] at hi; cases hi

/-- Settles O55: every other command leaves the chain, or shifts words through it. -/
theorem registersChangeOnlyAtTheLatch : Obligations.RegistersChangeOnlyAtTheLatch :=
  fun _ _ _ hi hend hflush h => (exec_next h).reg?_eq hi hend hflush

/-! The latch. -/

theorem isCommand_decodeWire (w : WireWord) : isCommand (decodeWire w) = false := by
  unfold decodeWire
  split <;> rfl

/-- A wire word, run as an instruction, commits in every device (log 5). -/
theorem exec_of_not_isCommand {i : Instr} (hi : isCommand i = false) (s : State) :
    exec i s = .next (s.onEveryDevice (Device.commit · i)) := by
  cases i with
  | wNoop pad data | wRow0 pad data | wRow1 pad data | wRow2 pad data | wRow3 pad data | wRow4 pad data
  | wRow5 pad data | wRow6 pad data | wRow7 pad data | wDecode pad data | wIntensity pad data
  | wScanlimit pad data | wShutdown pad data | wRsvd13 pad data | wRsvd14 pad data | wTest pad data => rfl
  | _ => cases hi

theorem exec_beginTransfer {s : State} (hst : s.st = .idle) :
    exec .beginTransfer s = .next (s.openBracket.respond .ok) :=
  State.whenBus_of_eq hst nofun _

theorem exec_endTransfer {s : State} (hst : s.st = .transferring) :
    exec .endTransfer s = .next (s.closeBracket.respond .ok) :=
  State.whenBus_of_eq hst nofun _

/-- With SEL at its transparent level an END latches every device (rules R68, R134). -/
theorem State.closeBracket_chain {s : State} (hsel : s.line.sel = selT) :
    s.closeBracket.chain = s.chain.map Device.latch := by
  rw [State.closeBracket_eq]
  exact if_pos hsel

/-- Settles O17: END latches device `k`, and a latch is the commit of the wire word held, which the meaning of that
word is in every device. -/
theorem latchRunsTheHeldWireWord : Obligations.LatchRunsTheHeldWireWord := by
  intro s k w hst hsel hw
  refine ⟨_, _, exec_endTransfer hst, exec_of_not_isCommand (isCommand_decodeWire w) s, ?_⟩
  obtain ⟨d, hd, rfl⟩ := State.exists_of_sr? hw
  rw [State.respond_chain, State.closeBracket_chain hsel, State.onEveryDevice_chain, List.getElem?_map,
    List.getElem?_map, hd]
  rfl

theorem wordAddress_eq (w : WireWord) : wordAddress w = (w.extractLsb' 8 4).toNat := by
  simp [wordAddress, Nat.shiftRight_eq_div_pow]

theorem wordData_eq (w : WireWord) : wordData w = w.extractLsb' 0 8 := by
  apply BitVec.eq_of_toNat_eq
  simp [wordData]

/-- END leaves every shift register (rule R68). -/
@[simp] theorem State.closeBracket_sr? (s : State) (k : Nat) : s.closeBracket.sr? k = s.sr? k := by
  have hsr : Device.sr ∘ Device.latch = Device.sr := funext Device.latch_sr
  rw [State.sr?_eq_getElem?, State.sr?_eq_getElem?, State.closeBracket_eq]
  dsimp only
  split
  · rw [List.map_map, hsr]
  · rfl

/-- A latch commits in device `k` the word it holds (rule R68). -/
theorem State.closeBracket_reg? {s : State} (hsel : s.line.sel = selT) {k : Nat} {w : WireWord}
    (hw : s.sr? k = some w) (a : Nat) :
    s.closeBracket.reg? k a = if a = wordAddress w ∧ a ≠ 0 then some (wordData w) else s.reg? k a := by
  obtain ⟨d, hd, rfl⟩ := State.exists_of_sr? hw
  have hlatched : s.closeBracket.chain[k]? = some d.latch := by
    rw [State.closeBracket_chain hsel, List.getElem?_map, hd, Option.map_some]
  rw [State.reg?_of_getElem? hlatched, State.reg?_of_getElem? hd, Device.latch_reg?, wordAddress_eq, wordData_eq]

/-! The words of the bus commands. -/

theorem toNat_busAddress (address : Int) : (busAddress address).toNat = (clamp address 0 15).toNat := by
  obtain ⟨hlo, hhi⟩ := clamp_mem (lo := 0) (hi := 15) (by decide) address
  rw [busAddress, BitVec.toNat_ofInt]
  omega

theorem toNat_busData (data : Int) : (busData data).toNat = (clamp data 0 255).toNat := by
  obtain ⟨hlo, hhi⟩ := clamp_mem (lo := 0) (hi := 255) (by decide) data
  rw [busData, BitVec.toNat_ofInt]
  omega

/-- The word of a clamped address and a byte, as the number of rule R136. -/
theorem wireCode_busAddress (address : Int) (v : Byte) :
    wireCode 0 (busAddress address) v = BitVec.ofNat 16 (256 * (clamp address 0 15).toNat + v.toNat) := by
  rw [← toNat_busAddress, ← toNat_wireCode, BitVec.ofNat_toNat, BitVec.setWidth_eq]

theorem busWord_toNat (address : Int) (v : Byte) : busWord address v.toNat = wireCode 0 (busAddress address) v := by
  have hclamp : clamp (v.toNat : Int) 0 255 = v.toNat := clamp_of_mem (by omega) (by have := v.isLt; omega)
  rw [wireCode_busAddress, busWord, hclamp, Int.toNat_natCast]

theorem busWord_eq (address data : Int) : busWord address data = wireCode 0 (busAddress address) (busData data) := by
  rw [wireCode_busAddress, toNat_busData]
  rfl

theorem rowWord_eq (address rowBits : Int) (order : BitOrder) :
    rowWord address rowBits order = wireCode 0 (busAddress address) (rowData rowBits order) := by
  cases order with
  | normal => exact busWord_eq address rowBits
  | reversed => rw [rowWord, ← toNat_busData, BitVec.ofNat_toNat, BitVec.setWidth_eq, busWord_toNat, rowData]

/-- SENDW and SENDR, as the one thing they do (rules R132, R133). -/
theorem exec_of_sentWord {s : State} {i : Instr} {w : WireWord} (hst : s.st = .transferring)
    (hi : sentWord i = some w) :
    ∃ addr v, wireCode 0 addr v = w ∧ exec i s = .next ((s.shiftWord addr v).respond .ok) := by
  cases i with
  | sendWord address data =>
    cases hi
    exact ⟨_, _, (busWord_eq _ _).symm, State.whenBus_of_eq hst nofun _⟩
  | sendRow address rowBits order =>
    cases hi
    exact ⟨_, _, (rowWord_eq _ _ _).symm, State.whenBus_of_eq hst nofun _⟩
  | _ => cases hi

/-! A bracket. -/

/-- From `s` to `t` these words were sent inside a bracket, the first one first: the last one stands in device 0, and
no register moved (rules R63, R67, R69). -/
structure WordsSent (s t : State) (words : List WireWord) : Prop where
  st : t.st = s.st
  sel : t.line.sel = s.line.sel
  held : t.chain.map Device.sr = (words.reverse ++ s.chain.map Device.sr).take s.chain.length
  registers : ∀ k a, t.reg? k a = s.reg? k a

theorem WordsSent.nil (s : State) : WordsSent s s [] :=
  ⟨rfl, rfl, by simp, fun _ _ => rfl⟩

theorem WordsSent.length_chain {s t : State} {words : List WireWord} (h : WordsSent s t words) :
    t.chain.length = s.chain.length := by
  simpa using congrArg List.length h.held

theorem WordsSent.shiftWord (s : State) (addr : BitVec 4) (v : Byte) :
    WordsSent s ((s.shiftWord addr v).respond .ok) [wireCode 0 addr v] where
  st := by rw [State.respond_st, State.shiftWord_st]
  sel := by rw [State.respond_line, State.shiftWord_sel]
  held := by rw [State.respond_chain, State.shiftWord_chain]; exact map_sr_pushWord _ _
  registers k a := by rw [State.respond_reg?, State.shiftWord_reg?]

theorem WordsSent.trans {s t u : State} {words more : List WireWord} (h : WordsSent s t words)
    (h' : WordsSent t u more) : WordsSent s u (words ++ more) where
  st := h'.st.trans h.st
  sel := h'.sel.trans h.sel
  held := by
    rw [h'.held, h.held, h.length_chain, List.reverse_append, List.append_assoc, List.take_append,
      List.take_take, Nat.min_eq_left (Nat.sub_le _ _), ← List.take_append]
  registers k a := (h'.registers k a).trans (h.registers k a)

theorem runCommands_append {commands more : List Instr} {s t : State} (h : runCommands commands s = .next t) :
    runCommands (commands ++ more) s = runCommands more t := by
  induction commands generalizing s with
  | nil => cases h; rfl
  | cons i rest ih =>
    rw [runCommands] at h
    split at h
    case h_1 u hu => rw [List.cons_append, runCommands, hu]; exact ih h
    all_goals cases h

theorem runCommands_cons {i : Instr} {rest : List Instr} {s t : State} (h : exec i s = .next t) :
    runCommands (i :: rest) s = runCommands rest t := by
  rw [runCommands, h]

/-- Inside a bracket any sends complete, and have sent their words. -/
theorem runCommands_sends {s : State} {sends : List Instr} (hst : s.st = .transferring)
    (hsends : ∀ i ∈ sends, (sentWord i).isSome = true) :
    ∃ words t, sends.map sentWord = words.map some ∧ runCommands sends s = .next t ∧
      WordsSent s t words := by
  induction sends generalizing s with
  | nil => exact ⟨[], s, rfl, rfl, .nil s⟩
  | cons i rest ih =>
    obtain ⟨hi, hrest⟩ := List.forall_mem_cons.mp hsends
    obtain ⟨w, hw⟩ := Option.isSome_iff_exists.mp hi
    obtain ⟨addr, v, rfl, hexec⟩ := exec_of_sentWord hst hw
    have hsent := WordsSent.shiftWord s addr v
    obtain ⟨words, t, hwords, hrun, hsents⟩ := ih (hsent.st.trans hst) hrest
    refine ⟨_ :: words, t, ?_, (runCommands_cons hexec).trans hrun, hsent.trans hsents⟩
    rw [List.map_cons, List.map_cons, hw, hwords]

/-- The last words sent stand first, the latest in device 0, and after them the words held before (rule R69). -/
theorem WordsSent.sr?_eq {s t : State} {words : List WireWord} (h : WordsSent s t words) {k : Nat}
    (hk : k < s.chain.length) :
    (∀ hnew : k < words.length, t.sr? k = some words[words.length - 1 - k]) ∧
      (words.length ≤ k → t.sr? k = s.sr? (k - words.length)) := by
  rw [State.sr?_eq_getElem?, h.held, List.getElem?_take_of_lt hk]
  constructor
  · intro hnew
    rw [List.getElem?_append_left (by simpa using hnew), List.getElem?_reverse hnew, List.getElem?_eq_getElem]
  · intro hold
    rw [List.getElem?_append_right (by simpa using hold), List.length_reverse, State.sr?_eq_getElem?]

/-- Settles O11: BEGIN opens the bracket with SEL transparent, the sends send their words, and END commits in each
device the word it then holds. -/
theorem bracketLeavesTheLastWordsInTheChain : Obligations.BracketLeavesTheLastWordsInTheChain := by
  intro s sends hst hlen hsends
  have hbegin := exec_beginTransfer hst
  obtain ⟨words, t, hwords, hrun, hsent⟩ := runCommands_sends (s := s.openBracket.respond .ok) rfl hsends
  have hend : exec .endTransfer t = .next (t.closeBracket.respond .ok) := exec_endTransfer hsent.st
  have hsel : t.line.sel = selT := hsent.sel
  refine ⟨t.closeBracket.respond .ok, ?_, fun k hk => ?_⟩
  · rw [runCommands_cons hbegin, runCommands_append hrun, runCommands_cons hend, runCommands]
  · have hcount : sends.length = words.length := by simpa using congrArg List.length hwords
    obtain ⟨hnew, hold⟩ := hsent.sr?_eq (k := k) (hk.trans_eq hlen.symm)
    rw [State.respond_sr?, State.closeBracket_sr?]
    refine ⟨fun h => ?_, fun h => ?_, fun w a hw => ?_⟩
    · have hword : ∀ j (hj : j < sends.length), sentWord sends[j] = some (words[j]'(hcount ▸ hj)) := by
        intro j hj
        have hget := List.getElem_of_eq hwords (i := j) (by rwa [List.length_map])
        rwa [List.getElem_map, List.getElem_map] at hget
      simp only [hnew (hcount ▸ h), hword, hcount]
    · rw [hold (hcount ▸ h), hcount, State.respond_sr?, State.openBracket_sr?]
    · rw [State.respond_reg?, State.closeBracket_reg? hsel hw, hsent.registers k a, State.respond_reg?,
        State.openBracket_reg?]

end Sys2Proof.Machine

/-! Address translation: the four steps and their inverse as equations over the two tables (rules R80, R85), and the
bijection of the display onto the places (rule R86). -/

namespace Sys2Proof

/-- The coordinate of a cell on one axis of an 8×8 module, seen through the module's rotation (rule R84). -/
def mirror (rot : Bool) (v : Nat) : Nat := if rot then 7 - v else v

theorem mirror_lt (rot : Bool) {v : Nat} (hv : v < 8) : mirror rot v < 8 := by
  cases rot
  · exact hv
  · exact Nat.lt_succ_of_le (Nat.sub_le 7 v)

/-- Mirroring is self-inverse (rule R86 (b)). -/
theorem mirror_mirror (rot : Bool) {v : Nat} (hv : v < 8) : mirror rot (mirror rot v) = v := by
  cases rot
  · rfl
  · exact Nat.sub_sub_self (Nat.le_of_lt_succ hv)

/-- The four steps, given what the tables hold at `L` (rule R80). -/
theorem Cfg.pixelToPhysical_of_tables {cfg : Cfg} {x y m : Nat} {rot : Bool}
    (hm : cfg.chainAt (cfg.logicalModule x y) = some m) (hrot : cfg.rotatedAt (cfg.logicalModule x y) = some rot) :
    cfg.pixelToPhysical x y = some { m := m, r := mirror rot (y % 8), b := mirror rot (x % 8) } := by
  simp only [Cfg.pixelToPhysical, hm, hrot]
  cases rot <;> rfl

/-- The inverse, given the logical module of the chain index and its rotation (rule R85). -/
theorem Cfg.physicalToPixel_of_tables {cfg : Cfg} {p : Place} {l : Nat} {rot : Bool}
    (hl : cfg.chainInv p.m = some l) (hrot : cfg.rotatedAt l = some rot) :
    cfg.physicalToPixel p = some (8 * (l % cfg.c) + mirror rot p.b, 8 * (l / cfg.c) + mirror rot p.r) := by
  simp only [Cfg.physicalToPixel, hl, hrot, mirror]

/-- The column of the logical module is read back from its index (rules R82, R85). -/
theorem Cfg.logicalModule_mod {cfg : Cfg} {x : Nat} (hx : x < 8 * cfg.c) (y : Nat) :
    cfg.logicalModule x y % cfg.c = x / 8 := by
  rw [Cfg.logicalModule, Nat.mul_add_mod_self_right, Nat.mod_eq_of_lt (Nat.div_lt_of_lt_mul hx)]

/-- The row of the logical module is read back from its index (rules R82, R85). -/
theorem Cfg.logicalModule_div {cfg : Cfg} {x : Nat} (hx : x < 8 * cfg.c) (y : Nat) :
    cfg.logicalModule x y / cfg.c = y / 8 := by
  have hcol : x / 8 < cfg.c := Nat.div_lt_of_lt_mul hx
  rw [Cfg.logicalModule, Nat.mul_comm, Nat.mul_add_div (Nat.zero_lt_of_lt hcol), Nat.div_eq_of_lt hcol, Nat.add_zero]

/-- Pixels share a logical module exactly when they lie in the same column and row of modules (rule R82). -/
theorem Cfg.logicalModule_eq_iff {cfg : Cfg} {x x' : Nat} (hx : x < 8 * cfg.c) (hx' : x' < 8 * cfg.c) (y y' : Nat) :
    cfg.logicalModule x y = cfg.logicalModule x' y' ↔ x / 8 = x' / 8 ∧ y / 8 = y' / 8 := by
  constructor
  · intro h
    rw [← Cfg.logicalModule_mod hx y, ← Cfg.logicalModule_div hx y, h]
    exact ⟨Cfg.logicalModule_mod hx' y', Cfg.logicalModule_div hx' y'⟩
  · rintro ⟨hcol, hrow⟩
    rw [Cfg.logicalModule, Cfg.logicalModule, hcol, hrow]

/-- The cell `(i, j)` of logical module `l` lies in that module (rule R85 against R82). -/
theorem Cfg.logicalModule_cell (cfg : Cfg) (l : Nat) {i j : Nat} (hi : i < 8) (hj : j < 8) :
    cfg.logicalModule (8 * (l % cfg.c) + i) (8 * (l / cfg.c) + j) = l := by
  have hdiv : ∀ {k v : Nat}, v < 8 → (8 * k + v) / 8 = k := by omega
  rw [Cfg.logicalModule, hdiv hi, hdiv hj, Nat.div_add_mod']

/-- The cells of the logical modules are pixels of the display. -/
theorem Cfg.cell_inside {cfg : Cfg} {l : Nat} (hl : l < cfg.n) {i j : Nat} (hi : i < 8) (hj : j < 8) :
    8 * (l % cfg.c) + i < 8 * cfg.c ∧ 8 * (l / cfg.c) + j < 8 * cfg.r := by
  have hcol : l % cfg.c < cfg.c := Nat.mod_lt l (Nat.pos_of_mul_pos_right (Nat.zero_lt_of_lt hl))
  have hrow : l / cfg.c < cfg.r := Nat.div_lt_of_lt_mul hl
  omega

/-- Settles O7: both tables have a usable entry at `L`, and the four steps are read off the definition. -/
theorem pixelTranslationFollowsTheFourSteps : Obligations.PixelTranslationFollowsTheFourSteps := by
  intro cfg x y h hx hy
  have hl := Cfg.logicalModule_lt hx hy
  obtain ⟨m, hat, hm, hget⟩ := Cfg.chainAt_of_lt h hl
  obtain ⟨rot, hrot⟩ := Cfg.rotatedAt_of_lt h hl
  refine ⟨m, rot, hget, hrot, hm, ?_⟩
  rw [Cfg.pixelToPhysical_of_tables hat hrot]
  cases rot <;> rfl

/-- The pixel is found again from its place (rule R86 (a), (b)). -/
theorem Cfg.physicalToPixel_pixelToPhysical {cfg : Cfg} (h : cfg.valid = true) {x y : Nat} {p : Place}
    (hx : x < 8 * cfg.c) (hy : y < 8 * cfg.r) (hp : cfg.pixelToPhysical x y = some p) :
    cfg.physicalToPixel p = some (x, y) := by
  have hl := Cfg.logicalModule_lt hx hy
  obtain ⟨m, hat, -, hget⟩ := Cfg.chainAt_of_lt h hl
  obtain ⟨rot, hrot⟩ := Cfg.rotatedAt_of_lt h hl
  have hinv : cfg.chainInv m = some (cfg.logicalModule x y) := (Cfg.chainInv_eq_some_iff h).mpr hget
  have hcell : ∀ v : Nat, 8 * (v / 8) + mirror rot (mirror rot (v % 8)) = v := fun v => by
    rw [mirror_mirror rot (Nat.mod_lt v (by decide)), Nat.div_add_mod]
  cases (Cfg.pixelToPhysical_of_tables hat hrot).symm.trans hp
  rw [Cfg.physicalToPixel_of_tables hinv hrot, Cfg.logicalModule_mod hx, Cfg.logicalModule_div hx, hcell, hcell]

/-- Every place is that of a pixel, the one the inverse gives (rule R86 (a)). -/
theorem Cfg.exists_pixelToPhysical_eq {cfg : Cfg} (h : cfg.valid = true) {p : Place} (hm : p.m < cfg.n)
    (hr : p.r < 8) (hb : p.b < 8) :
    ∃ x y, cfg.physicalToPixel p = some (x, y) ∧ x < 8 * cfg.c ∧ y < 8 * cfg.r ∧
      cfg.pixelToPhysical x y = some p := by
  obtain ⟨l, hl, hget⟩ := Cfg.exists_chainOrder_eq h hm
  obtain ⟨rot, hrot⟩ := Cfg.rotatedAt_of_lt h hl
  have hi := mirror_lt rot hb
  have hj := mirror_lt rot hr
  have hlm := cfg.logicalModule_cell l hi hj
  obtain ⟨hx, hy⟩ := Cfg.cell_inside hl hi hj
  refine ⟨_, _, Cfg.physicalToPixel_of_tables ((Cfg.chainInv_eq_some_iff h).mpr hget) hrot, hx, hy, ?_⟩
  rw [Cfg.pixelToPhysical_of_tables (hlm.symm ▸ (Cfg.chainAt_eq_some_iff h).mpr hget) (hlm.symm ▸ hrot),
    Nat.mul_add_mod, Nat.mul_add_mod, Nat.mod_eq_of_lt hi, Nat.mod_eq_of_lt hj, mirror_mirror rot hb,
    mirror_mirror rot hr]

/-- Two pixels have one chain index exactly when they lie in one logical module (rule R86 (c)). -/
theorem Cfg.pixelToPhysical_m_eq_iff {cfg : Cfg} (h : cfg.valid = true) {x y x' y' : Nat} {p p' : Place}
    (hx : x < 8 * cfg.c) (hy : y < 8 * cfg.r) (hx' : x' < 8 * cfg.c) (hy' : y' < 8 * cfg.r)
    (hp : cfg.pixelToPhysical x y = some p) (hp' : cfg.pixelToPhysical x' y' = some p') :
    p.m = p'.m ↔ x / 8 = x' / 8 ∧ y / 8 = y' / 8 := by
  obtain ⟨q, hq, -, -, -, hat⟩ := Cfg.pixelToPhysical_inside h hx hy
  obtain ⟨q', hq', -, -, -, hat'⟩ := Cfg.pixelToPhysical_inside h hx' hy'
  cases hp.symm.trans hq
  cases hp'.symm.trans hq'
  rw [← Cfg.logicalModule_eq_iff hx hx']
  constructor
  · intro hm
    exact Cfg.chainAt_injective h hat (hm ▸ hat')
  · intro hl
    exact Option.some_inj.mp (hat.symm.trans ((congrArg cfg.chainAt hl).trans hat'))

/-- Settles O8: the three clauses of rule R86. -/
theorem translationIsABijection : Obligations.TranslationIsABijection := by
  intro cfg h
  refine ⟨fun x y hx hy => ?_, fun p hm hr hb => Cfg.exists_pixelToPhysical_eq h hm hr hb,
    fun x y x' y' p p' hx hy hx' hy' hp hp' => Cfg.pixelToPhysical_m_eq_iff h hx hy hx' hy' hp hp'⟩
  obtain ⟨p, hp, hm, hr, hb, -⟩ := Cfg.pixelToPhysical_inside h hx hy
  exact ⟨p, hp, hm, hr, hb, Cfg.physicalToPixel_pixelToPhysical h hx hy hp⟩

end Sys2Proof

/-! The encoding: a header is legal when it fits one of the twelve formats of the opcode map (rules R106, R110, R113),
and what the decoder takes from the stream is what the encoder writes (rules R104, R105, R110 to R112, R116). -/

namespace Sys2Proof

/-! The formats of rule R106. -/

/-- The must-be-zero fields and the fields among `s`, `a`, `b` that a command has no use for are zero (rules R110,
R113). -/
def Header.Clear (h : Header) (useS useA useB : Bool) : Prop :=
  h.mz = 0 ∧ h.cz = 0 ∧ (useS = false → h.s = false) ∧ (useA = false → h.a = 0) ∧ (useB = false → h.b = 0)

theorem Header.accept_eq_ok_iff {h : Header} {useS useA useB : Bool} {i j : Instr} :
    h.accept useS useA useB i = .ok j ↔ h.Clear useS useA useB ∧ i = j := by
  unfold Header.accept Header.Clear
  split
  · simp only [reduceCtorEq, false_iff]
    tauto
  · split <;>
    · rename_i hunused
      simp only [Bool.or_eq_true, Bool.and_eq_true, Bool.not_eq_true', bne_iff_ne, Bool.eq_false_iff] at hunused ⊢
      simp only [reduceCtorEq, false_iff, Except.ok.injEq]
      tauto

/-- A line of the opcode map: the `op` value, and which of the fields `s`, `a`, `b` the command has (rule R106). -/
structure HeaderFormat where
  op   : BitVec 8
  useS : Bool
  useA : Bool
  useB : Bool

/-- The twelve lines of the opcode map (rule R106). -/
def headerFormats : List HeaderFormat :=
  [⟨0x01, false, false, false⟩, ⟨0x02, false, true, true⟩, ⟨0x03, true, true, true⟩, ⟨0x04, false, false, false⟩,
   ⟨0x08, false, false, false⟩, ⟨0x10, true, true, true⟩, ⟨0x11, false, true, true⟩, ⟨0x12, false, true, true⟩,
   ⟨0x18, true, false, false⟩, ⟨0x19, true, true, false⟩, ⟨0x1A, false, true, false⟩, ⟨0x1B, false, false, false⟩]

/-- The header has the format's `op` and nothing in a field that must be zero (rules R110, R113). -/
def Header.Fits (h : Header) (f : HeaderFormat) : Prop := h.op = f.op ∧ h.Clear f.useS f.useA f.useB

theorem Header.op_eq_of_toNat {h : Header} {k : Nat} (hk : h.op.toNat = k) : h.op = BitVec.ofNat 8 k := by
  rw [← hk, BitVec.ofNat_toNat, BitVec.setWidth_eq]

/-- The decoder builds an accepted command by the format of its `op`. -/
theorem decodeHeader_of_op {h : Header} {f : HeaderFormat} (hf : f ∈ headerFormats) (hop : h.op = f.op)
    (payload : List CmdWord) : ∃ i, decodeHeader h payload = h.accept f.useS f.useA f.useB i := by
  simp only [headerFormats, List.mem_cons, List.not_mem_nil, or_false] at hf
  rcases hf with rfl | rfl | rfl | rfl | rfl | rfl | rfl | rfl | rfl | rfl | rfl | rfl <;>
  · simp only [decodeHeader, hop]
    exact ⟨_, rfl⟩

/-- An accepted header has an `op` of the opcode map. -/
theorem exists_format_of_decodeHeader {h : Header} {payload : List CmdWord} {i : Instr}
    (hd : decodeHeader h payload = .ok i) : ∃ f ∈ headerFormats, h.op = f.op := by
  unfold decodeHeader at hd
  split at hd
  case h_13 => cases hd
  all_goals
    rename_i hk
    rw [Header.op_eq_of_toNat hk]
    decide

/-- A header is legal exactly when it fits a line of the opcode map (rules R106, R110, R113). -/
theorem decodeHeader_isOk_iff {h : Header} {payload : List CmdWord} :
    (∃ i, decodeHeader h payload = .ok i) ↔ ∃ f ∈ headerFormats, h.Fits f := by
  constructor
  · rintro ⟨i, hd⟩
    obtain ⟨f, hf, hop⟩ := exists_format_of_decodeHeader hd
    obtain ⟨j, hj⟩ := decodeHeader_of_op hf hop payload
    exact ⟨f, hf, hop, (Header.accept_eq_ok_iff.mp (hj.symm.trans hd)).1⟩
  · rintro ⟨f, hf, hop, hclear⟩
    obtain ⟨j, hj⟩ := decodeHeader_of_op hf hop payload
    exact ⟨j, hj.trans (Header.accept_eq_ok_iff.mpr ⟨hclear, rfl⟩)⟩

/-! The rows of the opcode table, field by field. -/

theorem Header.toWord_injective {h h' : Header} (heq : h.toWord = h'.toWord) : h = h' := by
  rw [← Header.ofWord_toWord h, heq, Header.ofWord_toWord]

/-- The bitwise conjunction of two headers, field by field. -/
def Header.and (h h' : Header) : Header :=
  { op := h.op &&& h'.op, mz := h.mz &&& h'.mz, s := h.s && h'.s, a := h.a &&& h'.a, b := h.b &&& h'.b,
    cz := h.cz &&& h'.cz }

theorem Header.toWord_and (h h' : Header) : h.toWord &&& h'.toWord = (h.and h').toWord := by
  change (_ : BitVec (8 + 7 + 1 + 16 + 16 + 16)) &&& _ = _
  simp only [Header.toWord, Header.and, BitVec.and_append, ← BitVec.ofBool_and_ofBool]

/-- The mask of a field: no bit of a field in use is compared, every bit of one that must be zero is. -/
def fieldMask (w : Nat) (used : Bool) : BitVec w := if used then 0 else BitVec.allOnes w

theorem and_fieldMask_eq_zero_iff {w : Nat} (v : BitVec w) (used : Bool) :
    v &&& fieldMask w used = 0 ↔ (used = false → v = 0) := by
  cases used <;> simp [fieldMask]

/-- The bits a table row compares: `op`, and every field that must be zero. -/
def HeaderFormat.mask (f : HeaderFormat) : Header :=
  { op := BitVec.allOnes 8, mz := BitVec.allOnes 7, s := !f.useS, a := fieldMask 16 f.useA, b := fieldMask 16 f.useB,
    cz := BitVec.allOnes 16 }

/-- What a table row compares them with: the `op`, and zeros. -/
def HeaderFormat.bits (f : HeaderFormat) : Header := { op := f.op, mz := 0, s := false, a := 0, b := 0, cz := 0 }

/-- The CMD64 rows of the opcode table are those of the opcode map (rules R104, R106). -/
theorem commandRows_eq : Machine.commandRows = headerFormats.map fun f => (f.bits.toWord, f.mask.toWord) := by decide

/-- A word matches a row of the table exactly when its header fits that line of the opcode map. -/
theorem and_mask_eq_bits_iff (w : CmdWord) (f : HeaderFormat) :
    w &&& f.mask.toWord = f.bits.toWord ↔ (Header.ofWord w).Fits f := by
  obtain ⟨h, rfl⟩ : ∃ h : Header, w = h.toWord := ⟨_, (Header.toWord_ofWord w).symm⟩
  have hfields : h.toWord &&& f.mask.toWord = f.bits.toWord ↔ h.and f.mask = f.bits := by
    rw [Header.toWord_and]
    exact ⟨Header.toWord_injective, congrArg _⟩
  rw [hfields, Header.ofWord_toWord]
  have hs : (h.s && !f.useS) = false ↔ (f.useS = false → h.s = false) := by cases f.useS <;> simp
  simp only [Header.Fits, Header.Clear, Header.and, HeaderFormat.mask, HeaderFormat.bits, Header.mk.injEq,
    BitVec.and_allOnes, and_fieldMask_eq_zero_iff, hs]
  tauto

/-- Settles O45: a header is legal when it fits a line of the opcode map, and the table's rows are those lines. -/
theorem legalHeadersAreTheTableRows : Obligations.LegalHeadersAreTheTableRows := by
  intro w payload
  simp only [decodeHeader_isOk_iff, commandRows_eq, List.mem_map, exists_exists_and_eq_and, and_mask_eq_bits_iff]

/-! Decoding and encoding a command. -/

/-- The decoder finds a command exactly when the stream begins with a legal header and the payload its `op` calls for
(rules R110, R111). -/
theorem decode_eq_command_iff {n : Nat} {stream rest : List CmdWord} {i : Instr} :
    decode n stream = .command i rest ↔
      ∃ w payload, stream = w :: (payload ++ rest) ∧ payload.length = payloadWords n (Header.ofWord w).op ∧
        decodeHeader (Header.ofWord w) payload = .ok i := by
  constructor
  · intro hd
    cases stream with
    | nil => cases hd
    | cons w ws =>
      dsimp only [decode] at hd
      split at hd
      · cases hd
      · rename_i hlen
        split at hd
        · rename_i hok
          cases hd
          exact ⟨w, _, by rw [List.take_append_drop], List.length_take_of_le (Nat.le_of_not_lt hlen), hok⟩
        · cases hd
  · rintro ⟨w, payload, rfl, hlen, hok⟩
    dsimp only [decode]
    rw [if_neg (by simp [hlen]), List.take_left' hlen, List.drop_left' hlen, hok]

theorem ofWord_headerCode (op : BitVec 8) (s : Bool) (a b : Int) :
    Header.ofWord (headerCode op s a b) =
      { op, mz := 0, s, a := BitVec.ofInt 16 a, b := BitVec.ofInt 16 b, cz := 0 } :=
  Header.ofWord_toWord _

/-- The header the encoder writes reads back as its operands, where these fit (rules R104, R108). -/
theorem decode_headerCode {n : Nat} {op : BitVec 8} {s : Bool} {a b : Int} {payload rest : List CmdWord}
    (i : Int → Int → Instr) (ha : fits16 a = true) (hb : fits16 b = true)
    (hlen : payload.length = payloadWords n op)
    (hok : decodeHeader { op, mz := 0, s, a := BitVec.ofInt 16 a, b := BitVec.ofInt 16 b, cz := 0 } payload =
      .ok (i (BitVec.ofInt 16 a).toInt (BitVec.ofInt 16 b).toInt)) :
    decode n (headerCode op s a b :: (payload ++ rest)) = .command (i a b) rest := by
  rw [toInt_ofInt_fits16 ha, toInt_ofInt_fits16 hb] at hok
  have hheader := ofWord_headerCode op s a b
  exact decode_eq_command_iff.mpr ⟨_, payload, rfl, by rw [hheader]; exact hlen, by rw [hheader]; exact hok⟩

/-- Decoding what the encoder writes for a command gives the command (rules R106, R108, R112). -/
theorem decode_encode {n : Nat} {i : Instr} {words : List CmdWord} (hwf : i.wellFormed n = true)
    (hwords : encode i = .cmd64 words) (rest : List CmdWord) : decode n (words ++ rest) = .command i rest := by
  obtain ⟨hbuilt, hfits⟩ := Bool.and_eq_true_iff.mp hwf
  have hzero : fits16 0 = true := rfl
  cases i with
  | beginTransfer | endTransfer | flush | clearDisplay state =>
    cases hwords
    exact decode_headerCode (payload := []) (fun _ _ => _) hzero hzero rfl rfl
  | sendWord a b | setPixel a b on | invertPixel a b | getPixel a b =>
    cases hwords
    obtain ⟨ha, hb⟩ := Bool.and_eq_true_iff.mp hfits
    apply decode_headerCode (payload := []) _ ha hb rfl rfl
  | sendRow a b order =>
    cases hwords
    obtain ⟨ha, hb⟩ := Bool.and_eq_true_iff.mp hfits
    refine decode_headerCode (payload := []) (.sendRow · · order) ha hb rfl ?_
    cases order <;> rfl
  | clearModule l state =>
    cases hwords
    exact decode_headerCode (payload := []) (fun l _ => .clearModule l state) hfits hzero rfl rfl
  | setModuleRows l rows =>
    cases hwords
    obtain ⟨hlen, hrows⟩ := payloadBytes_packRows 1 rows (eq_of_beq hbuilt)
    exact decode_headerCode (fun l _ => .setModuleRows l rows) hfits hzero hlen
      (congrArg (fun bytes => Except.ok (Instr.setModuleRows (BitVec.ofInt 16 l).toInt bytes)) hrows)
  | setDisplayRows rows =>
    cases hwords
    obtain ⟨hlen, hrows⟩ := payloadBytes_packRows n rows (eq_of_beq hbuilt)
    exact decode_headerCode (fun _ _ => .setDisplayRows rows) hzero hzero hlen
      (congrArg (fun bytes => Except.ok (Instr.setDisplayRows bytes)) hrows)
  | _ => cases hwords

/-- The payload words a header calls for are packed from the bytes they were read as (rules R111, R112). -/
theorem packRows_flatMap_payloadBytes (payload : List CmdWord) :
    packRows (payload.flatMap payloadBytes) = payload := by
  induction payload with
  | nil => rfl
  | cons p rest ih => rw [List.flatMap_cons, packRows_payloadBytes, ih]

@[simp] theorem length_payloadBytes (p : CmdWord) : (payloadBytes p).length = 8 := rfl

@[simp] theorem BitOrder.toBit_ofBit (s : Bool) : (BitOrder.ofBit s).toBit = s := by cases s <;> rfl

/-- A header with its must-be-zero fields zero is the one the encoder writes for its operands (rules R104, R108). -/
theorem headerCode_toInt {h : Header} (hmz : h.mz = 0) (hcz : h.cz = 0) :
    headerCode h.op h.s h.a.toInt h.b.toInt = h.toWord := by
  rw [headerCode, BitVec.ofInt_toInt, BitVec.ofInt_toInt, ← hmz, ← hcz]

/-- A decoded command exists and its operands fit (rules R108, R116). -/
theorem wellFormed_of_decodeHeader {n : Nat} {h : Header} {payload : List CmdWord} {i : Instr}
    (hlen : payload.length = payloadWords n h.op) (hok : decodeHeader h payload = .ok i) : i.wellFormed n = true := by
  unfold decodeHeader at hok
  split at hok
  case h_13 => cases hok
  all_goals
    rename_i hop
    rw [Header.op_eq_of_toNat hop] at hlen
    obtain ⟨-, rfl⟩ := Header.accept_eq_ok_iff.mp hok
    simp [Instr.wellFormed, Instr.wellBuilt, Instr.encodable, fits16_toInt, hlen, payloadWords, Nat.mul_comm]

/-- A decoded command is encoded as the header and the payload it was decoded from (rules R104, R106, R112). -/
theorem encode_of_decodeHeader {n : Nat} {h : Header} {payload : List CmdWord} {i : Instr}
    (hlen : payload.length = payloadWords n h.op) (hok : decodeHeader h payload = .ok i) :
    encode i = .cmd64 (h.toWord :: payload) := by
  unfold decodeHeader at hok
  split at hok
  case h_13 => cases hok
  all_goals
    rename_i hop
    obtain ⟨⟨hmz, hcz, hs, ha, hb⟩, rfl⟩ := Header.accept_eq_ok_iff.mp hok
    rw [Header.op_eq_of_toNat hop] at hlen
    rw [← headerCode_toInt hmz hcz, Header.op_eq_of_toNat hop]
  case h_11 | h_12 => simp [encode, packRows_flatMap_payloadBytes, hs, ha, hb]
  all_goals
    cases List.eq_nil_of_length_eq_zero hlen
    simp [encode, hs, ha, hb]

/-! Decoding and encoding a wire word. -/

/-- Decoding the wire word of an instruction gives the instruction (rules R101, R102). -/
theorem decodeWire_encode {i : Instr} {w : WireWord} (hw : encode i = .w16 w) : decodeWire w = i := by
  cases i <;> cases hw <;>
  · simp only [decodeWire, wireCode_fields]
    rfl

/-- A wire word is the word of the instruction it decodes to (rules R101, R102). -/
theorem encode_decodeWire (w : WireWord) : encode (decodeWire w) = .w16 w := by
  have hcode : ∀ {addr : BitVec 4}, w.extractLsb' 8 4 = addr →
      Code.w16 (wireCode (w.extractLsb' 12 4) addr (w.extractLsb' 0 8)) = .w16 w := by
    rintro addr rfl
    rw [wireCode_extract]
  unfold decodeWire
  split
  case h_16 =>
    have hlt := (w.extractLsb' 8 4).isLt
    have haddr : (w.extractLsb' 8 4).toNat = 15 := by grind
    exact hcode (addr := 15) (BitVec.eq_of_toNat_eq haddr)
  all_goals
    rename_i haddr
    exact hcode (BitVec.eq_of_toNat_eq haddr)

/-- Settles O43: a header built from operands that fit reads back as the operands, and packed bytes read back as the
bytes. -/
theorem decodeOfEncodeIsTheInstruction : Obligations.DecodeOfEncodeIsTheInstruction :=
  fun _ _ rest hwf => ⟨fun _ hwords => decode_encode hwf hwords rest, fun _ => decodeWire_encode⟩

/-- Settles O44: the header and the payload the decoder takes are those the encoder writes for what it finds. -/
theorem encodeOfDecodeIsTheWords : Obligations.EncodeOfDecodeIsTheWords := by
  refine ⟨fun n stream rest i hd => ?_, encode_decodeWire⟩
  obtain ⟨w, payload, rfl, hlen, hok⟩ := decode_eq_command_iff.mp hd
  refine ⟨wellFormed_of_decodeHeader hlen hok, w :: payload, ?_, rfl⟩
  rw [encode_of_decodeHeader hlen hok, Header.toWord_ofWord]

/-! Operands within the limits (rule R109). -/

/-- Settles O6: within the limits `W`, `H` and `N` are at most 32768. -/
theorem coordinatesFitTheirOperandsWithinTheLimits : Obligations.CoordinatesFitTheirOperandsWithinTheLimits := by
  intro cfg hc hr hn
  have hfits : ∀ {v : Int} {limit : Nat}, 0 ≤ v → v < limit → limit ≤ 32768 → fits16 v = true := by
    intro v limit h0 hlt hlimit
    simp only [fits16, Bool.and_eq_true, decide_eq_true_eq]
    omega
  have hw : cfg.w ≤ 32768 := Nat.mul_le_mul_left 8 hc
  have hh : cfg.h ≤ 32768 := Nat.mul_le_mul_left 8 hr
  constructor
  · intro x y hin
    obtain ⟨hx0, hx, hy0, hy⟩ := (Cfg.hasPixel_iff cfg x y).mp hin
    exact ⟨hfits hx0 hx hw, hfits hy0 hy hh⟩
  · intro l hin
    obtain ⟨hl0, hl⟩ := (Cfg.hasModule_iff cfg l).mp hin
    exact hfits hl0 hl hn

end Sys2Proof

/-! Every command that exists completes (rules R116, R211, R222), and what the wire words, the response word and the
step are in terms of the decoder's instructions (rules R102, R105, R118). -/

namespace Sys2Proof.Machine

/-- The answer is a next state. -/
def Completes (r : Result) : Prop := ∃ t, r = .next t

theorem completes_next (t : State) : Completes (.next t) := ⟨t, rfl⟩

section Guards

variable {s : State}

theorem completes_whenConfigured {body : Result} (hbody : s.st ≠ .configError → Completes body) :
    Completes (s.whenConfigured body) := by
  by_cases hc : s.st = .configError
  · rw [State.whenConfigured_of_eq hc]
    exact completes_next _
  · rw [State.whenConfigured_of_ne hc]
    exact hbody hc

theorem completes_whenBus (required : BusState) (done : State) : Completes (s.whenBus required done) := by
  refine completes_whenConfigured fun _ => ?_
  split <;> exact completes_next _

theorem completes_whenPixel (hvalid : s.cfg.valid = true) (x y : Int) {body : Place → Result}
    (hbody : ∀ p, Completes (body p)) : Completes (s.whenPixel x y body) := by
  refine completes_whenConfigured fun _ => ?_
  split
  · rename_i hin
    obtain ⟨hx0, hx, hy0, hy⟩ := (Cfg.hasPixel_iff s.cfg x y).mp hin
    obtain ⟨p, hp, -⟩ := Cfg.pixelToPhysical_inside hvalid ((Int.toNat_lt hx0).mpr hx) ((Int.toNat_lt hy0).mpr hy)
    rw [hp]
    exact hbody p
  · exact completes_next _

theorem completes_whenModule (hvalid : s.cfg.valid = true) (l : Int) {body : Nat → Bool → Result}
    (hbody : ∀ m rot, Completes (body m rot)) : Completes (s.whenModule l body) := by
  refine completes_whenConfigured fun _ => ?_
  split
  · rename_i hin
    obtain ⟨hl0, hl⟩ := (Cfg.hasModule_iff s.cfg l).mp hin
    obtain ⟨m, hm, -⟩ := Cfg.chainAt_of_lt hvalid ((Int.toNat_lt hl0).mpr hl)
    obtain ⟨rot, hrot⟩ := Cfg.rotatedAt_of_lt hvalid ((Int.toNat_lt hl0).mpr hl)
    rw [Cfg.moduleToChain, hm, hrot]
    exact hbody m rot
  · exact completes_next _

/-- With a valid configuration every module of the display has a block to store to (rules R82, R91). -/
theorem State.storeModules_isSome (hvalid : s.cfg.valid = true) (rows : List Byte) {n : Nat} (hn : n ≤ s.cfg.n) :
    ∃ t, s.storeModules rows n = some t := by
  induction n with
  | zero => exact ⟨s, rfl⟩
  | succ l ih =>
    obtain ⟨t, ht⟩ := ih (Nat.le_of_succ_le hn)
    obtain ⟨m, hm, -⟩ := Cfg.chainAt_of_lt hvalid hn
    obtain ⟨rot, hrot⟩ := Cfg.rotatedAt_of_lt hvalid hn
    rw [State.storeModules, ht, Cfg.moduleToChain, hm, hrot]
    exact ⟨_, rfl⟩

theorem completes_setModuleRows (hvalid : s.cfg.valid = true) (l : Int) {rows : List Byte} (hlen : rows.length = 8) :
    Completes (execSetModuleRows l rows s) := by
  refine completes_whenConfigured fun _ => ?_
  rw [if_pos hlen]
  exact completes_whenModule hvalid l fun _ _ => completes_next _

theorem completes_setDisplayRows (hvalid : s.cfg.valid = true) {rows : List Byte}
    (hlen : rows.length = 8 * s.cfg.n) : Completes (execSetDisplayRows rows s) := by
  refine completes_whenConfigured fun _ => ?_
  obtain ⟨t, ht⟩ := State.storeModules_isSome hvalid rows le_rfl
  rw [if_pos hlen, ht]
  exact completes_next _

end Guards

theorem exec_completes {i : Instr} {s : State} (hvalid : s.cfg.valid = true) (hbuilt : i.wellBuilt s.cfg.n = true) :
    Completes (exec i s) := by
  cases i with
  | beginTransfer | sendWord address data | sendRow address rowBits order | endTransfer | flush =>
    exact completes_whenBus _ _
  | setPixel x y on => exact completes_whenPixel hvalid x y fun _ => completes_next _
  | invertPixel x y => exact completes_whenPixel hvalid x y fun _ => completes_next _
  | getPixel x y => exact completes_whenPixel hvalid x y fun _ => completes_next _
  | clearDisplay state => exact completes_whenConfigured fun _ => completes_next _
  | clearModule l state => exact completes_whenModule hvalid l fun _ _ => completes_next _
  | setModuleRows l rows => exact completes_setModuleRows hvalid l (eq_of_beq hbuilt)
  | setDisplayRows rows => exact completes_setDisplayRows hvalid (eq_of_beq hbuilt)
  | _ => exact ⟨_, exec_of_not_isCommand rfl s⟩

/-- Outside `ConfigError` a block command with the wrong number of bytes is refused (rule R116; log 11). -/
theorem exec_of_not_wellBuilt {i : Instr} {s : State} (hbuilt : i.wellBuilt s.cfg.n = false)
    (hc : s.st ≠ .configError) : exec i s = .refused .malformedCommand := by
  cases i with
  | setModuleRows l rows => exact (State.whenConfigured_of_ne hc _).trans (if_neg (ne_of_beq_false hbuilt))
  | setDisplayRows rows => exact (State.whenConfigured_of_ne hc _).trans (if_neg (ne_of_beq_false hbuilt))
  | _ => cases hbuilt

/-- Settles O41: every guard ends in a fault taken or in its body, and no body runs out of a valid configuration's
tables. -/
theorem everyExistingCommandCompletes : Obligations.EveryExistingCommandCompletes :=
  fun _ _ hvalid => ⟨exec_completes hvalid, exec_of_not_wellBuilt⟩

/-! The wire words, the response word and the step. -/

/-- Settles O18: each wire word is its commit in every device. -/
theorem wireWordsCommitTheirRegister : Obligations.WireWordsCommitTheirRegister := by
  intro s pad v
  have hcommit : ∀ {i : Instr}, isCommand i = false → exec i s = .next (s.onEveryDevice (Device.commit · i)) :=
    fun hi => exec_of_not_isCommand hi s
  refine ⟨(hcommit rfl).trans ?_, hcommit rfl, hcommit rfl, hcommit rfl, hcommit rfl, hcommit rfl, hcommit rfl,
    hcommit rfl, hcommit rfl, hcommit rfl, hcommit rfl, hcommit rfl, hcommit rfl, hcommit rfl, hcommit rfl,
    hcommit rfl⟩
  exact congrArg (fun chain => Host.Outcome.next (s.withChain chain)) (List.map_id s.chain)

/-- The code stands in bits 15:8 (rule R118). -/
theorem Response.toNat_word_err (c : FaultCode) : (Response.word (.err c)).toNat = 256 * c.number.toNat := by
  rw [Response.word, BitVec.toNat_append, Nat.shiftLeft_eq, Nat.mul_comm]
  exact Nat.or_zero _

/-- Settles O48: the three words without a fault are computed, and `ERR(code)` is the code above a zero byte. -/
theorem responseWordsAreEncoded : Obligations.ResponseWordsAreEncoded :=
  ⟨rfl, rfl, rfl, Response.toNat_word_err⟩

/-- Settles O49: outside `ConfigError` the fetch is what the decoder finds, and a step runs what is fetched. -/
theorem stepRunsTheDecodedCommand : Obligations.StepRunsTheDecodedCommand := by
  intro s hc
  have hfetch := State.fetch_of_decode hc
  constructor
  · intro i rest hd
    rw [hd] at hfetch
    rw [step, hfetch]
    rfl
  · intro hd
    rw [hd] at hfetch
    rw [step, hfetch]

end Sys2Proof.Machine

/-! The bus commands one by one: a bit and a word transfer with everything they leave unchanged (rules R135, R136), the
words of the commands (rules R104, R106), what each does in the bus state it requires, and its rejection in the other
(rules R130 to R134, R218). -/

namespace Sys2Proof.Machine

/-! The transfers. -/

/-- Settles O9: the bit transfer as one update of the state. -/
theorem bitTransferWritesClockDataClock : Obligations.BitTransferWritesClockDataClock := by
  intro s v
  rw [State.shiftBit_eq]
  exact ⟨rfl, rfl, rfl⟩

/-- The bits of a word go out from the most significant one down (rule R136). -/
theorem bitsEvents_eq_flatMap (w : WireWord) (n : Nat) :
    bitsEvents w n = (List.range n).flatMap fun j => bitEvents (w.getLsbD (n - 1 - j)) := by
  induction n with
  | zero => rfl
  | succ n ih =>
    have hrest : ∀ j, n + 1 - 1 - (j + 1) = n - 1 - j := by omega
    rw [bitsEvents, ih, List.range_succ_eq_map, List.flatMap_cons, List.flatMap_map]
    simp only [hrest]
    rfl

theorem length_bitsEvents (w : WireWord) (n : Nat) : (bitsEvents w n).length = 3 * n := by
  induction n with
  | zero => rfl
  | succ n ih =>
    rw [bitsEvents, List.length_append, ih, bitEvents]
    simp only [List.length_cons, List.length_nil]
    omega

/-- Each bit transfer raises CLK once. -/
theorem count_clk_bitsEvents (w : WireWord) (n : Nat) :
    (bitsEvents w n).count { line := .clk, level := true } = n := by
  have hbit : ∀ v, (bitEvents v).count { line := .clk, level := true } = 1 := by decide
  induction n with
  | zero => rfl
  | succ n ih => rw [bitsEvents, List.count_append, ih, hbit, Nat.add_comm]

/-- A word transfer moves the chain by the word it frames and changes no register (rule R136). -/
theorem ShiftedWord.shiftWord (s : State) (addr : BitVec 4) (v : Byte) :
    ShiftedWord s (s.shiftWord addr v) (wireCode 0 addr v) where
  trace := by rw [State.shiftWord_eq]
  line := by rw [State.shiftWord_eq]
  length := by rw [State.shiftWord_chain, length_pushWord]
  first hdevice := by
    rw [State.sr?_eq_getElem?, State.shiftWord_chain, map_sr_pushWord, List.getElem?_take_of_lt hdevice,
      List.getElem?_cons_zero]
  later k hk := by
    rw [State.sr?_eq_getElem?, State.sr?_eq_getElem?, State.shiftWord_chain, map_sr_pushWord,
      List.getElem?_take_of_lt hk, List.getElem?_cons_succ]
  registers := State.shiftWord_reg? s addr v
  frame := by rw [State.shiftWord_eq]

/-- A response is no part of the transfer. -/
theorem ShiftedWord.respond {s t : State} {w : WireWord} (h : ShiftedWord s t w) (r : Response) :
    ShiftedWord s (t.respond r) w where
  trace := h.trace
  line := h.line
  length := h.length
  first := h.first
  later := h.later
  registers := h.registers
  frame := congrArg (State.respond · r) h.frame

/-- Settles O10: the word framed is `256 * a + d`, and its 16 bit transfers are three line writes each. -/
theorem wordTransferMovesTheChainByOneWord : Obligations.WordTransferMovesTheChainByOneWord := by
  intro s a d
  refine ⟨?_, (SameCore.shiftWord s a d).responses, fun w =>
    ⟨bitsEvents_eq_flatMap w 16, length_bitsEvents w 16, count_clk_bitsEvents w 16⟩⟩
  rw [← toNat_wireCode, BitVec.ofNat_toNat, BitVec.setWidth_eq]
  exact .shiftWord s a d

/-! The commands. -/

/-- A header by its 16-bit fields (rule R104). -/
theorem headerCode_eq_append (op : BitVec 8) (s : Bool) (a b : Int) :
    headerCode op s a b =
      (op ++ 0#7 ++ BitVec.ofBool s) ++ BitVec.ofInt 16 a ++ BitVec.ofInt 16 b ++ 0x0000#16 := rfl

/-- A bus command in the live state `st`, not the one it requires, changes `FAULT` only (rules R130, R218). -/
theorem State.whenBus_rejected {s : State} {st required : BusState} (hst : s.st = st) (hne : st ≠ required)
    (hlive : st ≠ .configError) (done : State) :
    s.whenBus required done =
      .next { s with fault := if s.fault = 0 then 3 else s.fault, responses := s.responses ++ [.err .busState] } := by
  subst hst
  exact State.whenBus_of_ne hne hlive done

/-- A command that shifts a word does so inside a bracket and answers OK (rules R132, R133). -/
theorem exec_sentWord_shiftedWord {s : State} {i : Instr} {w : WireWord} (hst : s.st = .transferring)
    (hi : sentWord i = some w) :
    ∃ t, exec i s = .next t ∧ ShiftedWord s t w ∧ t.responses = s.responses ++ [.ok] := by
  obtain ⟨addr, v, rfl, hexec⟩ := exec_of_sentWord hst hi
  refine ⟨_, hexec, (ShiftedWord.shiftWord s addr v).respond .ok, ?_⟩
  rw [State.respond_responses, (SameCore.shiftWord s addr v).responses]

/-- Settles O16: each of the five checks the bus state before anything else. -/
theorem busCommandsAreRejectedInTheOtherState : Obligations.BusCommandsAreRejectedInTheOtherState := by
  intro s address data order
  refine ⟨fun hst => ?_, fun hst => ?_⟩
  · have hrejected := State.whenBus_rejected (required := .idle) hst nofun nofun
    exact ⟨hrejected _, hrejected _⟩
  · have hrejected := State.whenBus_rejected (required := .transferring) hst nofun nofun
    exact ⟨hrejected _, hrejected _, hrejected _⟩

/-- Settles O12: BEGIN is one write of SEL, at which no device commits. -/
theorem beginOpensABracket : Obligations.BeginOpensABracket := by
  refine ⟨rfl, fun s => ⟨fun hst => ?_, fun hst => State.whenBus_rejected (required := .idle) hst nofun nofun _⟩⟩
  rw [exec_beginTransfer hst, State.openBracket_eq]
  rfl

/-- Settles O13: the word shifted is that of the saturated operands. -/
theorem sendWordShiftsTheClampedWord : Obligations.SendWordShiftsTheClampedWord := by
  intro s address data
  refine ⟨?_, fun hst => exec_sentWord_shiftedWord hst rfl, fun hst =>
    State.whenBus_rejected (required := .transferring) hst nofun nofun _⟩
  rw [encode, headerCode_eq_append]
  rfl

/-- Settles O14: the word shifted carries the saturated byte in the order asked for; the order is the header's `s`
bit. -/
theorem sendRowShiftsTheByteInItsOrder : Obligations.SendRowShiftsTheByteInItsOrder := by
  intro s address rowBits order
  refine ⟨?_, fun hst => exec_sentWord_shiftedWord hst rfl, fun hst =>
    State.whenBus_rejected (required := .transferring) hst nofun nofun _, rfl⟩
  rw [encode, headerCode_eq_append]
  cases order with
  | normal | reversed => rfl

/-- Settles O15: END raises SEL, and every device commits the word it holds and keeps it. -/
theorem endCommitsEveryDevice : Obligations.EndCommitsEveryDevice := by
  refine ⟨rfl, fun s => ⟨fun hst hsel => ?_, fun hst =>
    State.whenBus_rejected (required := .transferring) hst nofun nofun _⟩⟩
  refine ⟨_, exec_endTransfer hst, rfl, State.length_closeBracket_chain s, fun k w hw => ⟨?_, fun a => ?_⟩⟩
  · rw [State.respond_sr?, State.closeBracket_sr?, hw]
  · rw [State.respond_reg?, State.closeBracket_reg? hsel hw]

end Sys2Proof.Machine

/-! FLUSH: the words of a row, what one bracket leaves in the devices and in the trace, and the eight brackets of a
flush (rules R150, R151); what the devices then hold and the LEDs show (rules R152, R153, R155). -/

namespace Sys2Proof

/-- Two pixels of the display never share a place (rule R86 (a)). -/
theorem Cfg.pixelToPhysical_injective {cfg : Cfg} (h : cfg.valid = true) {x y x' y' : Nat} {p : Place}
    (hx : x < cfg.w) (hy : y < cfg.h) (hx' : x' < cfg.w) (hy' : y' < cfg.h) (hp : cfg.pixelToPhysical x y = some p)
    (hp' : cfg.pixelToPhysical x' y' = some p) : x = x' ∧ y = y' := by
  have hfirst := Cfg.physicalToPixel_pixelToPhysical h hx hy hp
  have hsecond := Cfg.physicalToPixel_pixelToPhysical h hx' hy' hp'
  simpa using hfirst.symm.trans hsecond

end Sys2Proof

namespace Sys2Proof.Machine

/-! The words of a row. -/

/-- The word sent for row `r` of chain index `m` (rule R150). -/
def flushWord (fb : Memory) (m r : Nat) : WireWord := wireCode 0 (BitVec.ofNat 4 (r + 1)) (fb.read (fbAddr m r))

/-- The words sent for row `r` of the chain indices `n - 1` down to 0, in time order (rule R150). -/
def rowWords (fb : Memory) (r n : Nat) : List WireWord := (List.range n).map fun t => flushWord fb (n - 1 - t) r

@[simp] theorem length_rowWords (fb : Memory) (r n : Nat) : (rowWords fb r n).length = n := by simp [rowWords]

theorem rowWords_succ (fb : Memory) (r m : Nat) :
    rowWords fb r (m + 1) = flushWord fb m r :: rowWords fb r m := by
  have hrest : ∀ t, m + 1 - 1 - (t + 1) = m - 1 - t := by omega
  simp only [rowWords, List.range_succ_eq_map, List.map_cons, List.map_map, Function.comp_def, Nat.succ_eq_add_one,
    hrest]
  rfl

theorem toNat_rowAddress {r : Nat} (hr : r < 8) : (BitVec.ofNat 4 (r + 1)).toNat = r + 1 := by
  rw [BitVec.toNat_ofNat]
  omega

theorem flushWord_eq_ofNat (fb : Memory) (m : Nat) {r : Nat} (hr : r < 8) :
    flushWord fb m r = BitVec.ofNat 16 (256 * (r + 1) + (fb.read (fbAddr m r)).toNat) := by
  have hvalue : (flushWord fb m r).toNat = 256 * (r + 1) + (fb.read (fbAddr m r)).toNat := by
    rw [flushWord, toNat_wireCode, toNat_rowAddress hr]
  rw [← hvalue, BitVec.ofNat_toNat, BitVec.setWidth_eq]

/-- The words rule R151 gives for row `r`. -/
theorem flushWords_eq_rowWords (s : State) {r : Nat} (hr : r < 8) : flushWords s r = rowWords s.fb r s.cfg.n :=
  List.map_congr_left fun _ _ => (flushWord_eq_ofNat _ _ hr).symm

theorem wordAddress_flushWord (fb : Memory) (m : Nat) {r : Nat} (hr : r < 8) :
    wordAddress (flushWord fb m r) = r + 1 := by
  rw [wordAddress_eq, flushWord, (wireCode_fields _ _ _).2.1, toNat_rowAddress hr]

theorem wordData_flushWord (fb : Memory) (m r : Nat) : wordData (flushWord fb m r) = fb.read (fbAddr m r) := by
  rw [wordData_eq, flushWord, (wireCode_fields _ _ _).2.2]

/-! A bracket. -/

/-- A response is no part of the sending. -/
theorem WordsSent.of_respond {s t : State} {r : Response} {words : List WireWord}
    (h : WordsSent s (t.respond r) words) : WordsSent s t words :=
  ⟨h.st, h.sel, h.held, h.registers⟩

theorem WordsSent.sendRowWords (r n : Nat) (s : State) :
    WordsSent s (State.sendRowWords r n s) (rowWords s.fb r n) := by
  induction n generalizing s with
  | zero => exact .nil s
  | succ m ih =>
    have hrest := ih (s.shiftWord (BitVec.ofNat 4 (r + 1)) (s.fbByte m r))
    rw [(SameCore.shiftWord s _ _).fb] at hrest
    rw [rowWords_succ]
    exact (WordsSent.shiftWord s _ _).of_respond.trans hrest

theorem State.sendRowWords_trace (r n : Nat) (s : State) :
    (State.sendRowWords r n s).trace = s.trace ++ (rowWords s.fb r n).flatMap wordEvents := by
  induction n generalizing s with
  | zero => exact (List.append_nil _).symm
  | succ m ih =>
    rw [State.sendRowWords, ih, (SameCore.shiftWord s _ _).fb, rowWords_succ, List.flatMap_cons, State.shiftWord_eq,
      List.append_assoc]
    rfl

theorem State.flushRow_trace (s : State) {r : Nat} (hr : r < 8) :
    (s.flushRow r).trace = s.trace ++ bracketEvents (flushWords s r) := by
  rw [State.flushRow, State.closeBracket_eq, flushWords_eq_rowWords s hr]
  dsimp only
  rw [State.sendRowWords_trace, (SameCore.openBracket s).fb, State.openBracket_eq]
  simp [bracketEvents]

/-- The device with this word in its shift register. -/
def Device.withWord (w : WireWord) (d : Device) : Device := { d with sr := w }

/-- Shifting changes the shift registers alone (rule R67). -/
theorem map_withWord_pushWord (v w : WireWord) (chain : List Device) :
    (pushWord w chain).map (Device.withWord v) = chain.map (Device.withWord v) := by
  induction chain generalizing w with
  | nil => rfl
  | cons d rest ih => rw [pushWord, List.map_cons, List.map_cons, ih]; rfl

theorem State.map_withWord_sendRowWords (v : WireWord) (r n : Nat) (s : State) :
    (State.sendRowWords r n s).chain.map (Device.withWord v) = s.chain.map (Device.withWord v) := by
  induction n generalizing s with
  | zero => rfl
  | succ m ih => rw [State.sendRowWords, ih, State.shiftWord_chain, map_withWord_pushWord]

/-- With `N` devices each one ends up holding the word sent for it (rules R69, R152). -/
theorem State.sendRowWords_chain_getElem? {s : State} {n : Nat} (hlen : s.chain.length = n) (r k : Nat) :
    (State.sendRowWords r n s).chain[k]? = (s.chain[k]?).map (Device.withWord (flushWord s.fb k r)) := by
  by_cases hk : k < n
  · have hsr : (State.sendRowWords r n s).sr? k = some (flushWord s.fb k r) := by
      have hlast : n - 1 - (n - 1 - k) = k := by omega
      rw [((WordsSent.sendRowWords r n s).sr?_eq (hk.trans_eq hlen.symm)).1 (by simpa using hk)]
      simp [rowWords, hlast]
    obtain ⟨d, hd, hword⟩ := State.exists_of_sr? hsr
    rw [← List.getElem?_map, ← State.map_withWord_sendRowWords _ r n, List.getElem?_map, hd, ← hword]
    rfl
  · have hle : s.chain.length ≤ k := by omega
    rw [List.getElem?_eq_none hle, List.getElem?_eq_none ((State.length_sendRowWords_chain r n s).trans_le hle),
      Option.map_none]

/-- The device once it has committed this word (rule R68). -/
def Device.commitWord (w : WireWord) (d : Device) : Device := (d.withWord w).latch

/-- The bracket of a row commits that word in each device. -/
theorem State.flushRow_chain_getElem? {s : State} (hlen : s.chain.length = s.cfg.n) (r k : Nat) :
    (s.flushRow r).chain[k]? = (s.chain[k]?).map (Device.commitWord (flushWord s.fb k r)) := by
  have hsel : (State.sendRowWords r s.cfg.n s.openBracket).line.sel = selT :=
    (WordsSent.sendRowWords r s.cfg.n s.openBracket).sel
  rw [State.flushRow, State.closeBracket_chain hsel, List.getElem?_map,
    State.sendRowWords_chain_getElem? (s := s.openBracket) hlen, Option.map_map]
  rfl

/-! The brackets of a flush. -/

/-- The brackets of rows 0 to `j - 1`. -/
def State.flushBelow (s : State) (j : Nat) : State := (List.range j).foldl State.flushRow s

theorem State.flushRows_eq_flushBelow (s : State) : s.flushRows = s.flushBelow 8 := rfl

theorem State.flushBelow_succ (s : State) (j : Nat) : s.flushBelow (j + 1) = (s.flushBelow j).flushRow j := by
  rw [State.flushBelow, List.range_succ, List.foldl_append]
  rfl

theorem SameCore.flushBelow (s : State) (j : Nat) : SameCore s (s.flushBelow j) := SameCore.flushRowsOf _ s

theorem State.length_flushBelow_chain (s : State) (j : Nat) : (s.flushBelow j).chain.length = s.chain.length := by
  induction j with
  | zero => rfl
  | succ j ih => rw [State.flushBelow_succ, State.length_flushRow_chain, ih]

/-- What a row sends depends on the configuration and the framebuffer alone. -/
theorem flushWords_congr {s t : State} (hcfg : t.cfg = s.cfg) (hfb : t.fb = s.fb) (r : Nat) :
    flushWords t r = flushWords s r := by
  simp only [flushWords, State.fbByte, hcfg, hfb]

theorem State.flushBelow_trace (s : State) {j : Nat} (hj : j ≤ 8) :
    (s.flushBelow j).trace = s.trace ++ (List.range j).flatMap fun r => bracketEvents (flushWords s r) := by
  induction j with
  | zero => exact (List.append_nil _).symm
  | succ j ih =>
    have hcore := SameCore.flushBelow s j
    rw [State.flushBelow_succ, State.flushRow_trace _ hj, flushWords_congr hcore.cfg hcore.fb,
      ih (Nat.le_of_succ_le hj), List.range_succ, List.flatMap_append, List.flatMap_singleton, List.append_assoc]

/-- Device `k` once it has committed its words of rows 0 to `j - 1`. -/
def Device.flushed (fb : Memory) (k : Nat) : Nat → Device → Device
  | 0, d => d
  | j + 1, d => (d.flushed fb k j).commitWord (flushWord fb k j)

theorem State.flushBelow_chain_getElem? {s : State} (hlen : s.chain.length = s.cfg.n) (j k : Nat) :
    (s.flushBelow j).chain[k]? = (s.chain[k]?).map (Device.flushed s.fb k j) := by
  induction j with
  | zero => exact Option.map_id_apply.symm
  | succ j ih =>
    have hlen' : (s.flushBelow j).chain.length = (s.flushBelow j).cfg.n := by
      rw [State.length_flushBelow_chain, hlen, (SameCore.flushBelow s j).cfg]
    rw [State.flushBelow_succ, State.flushRow_chain_getElem? hlen', ih, (SameCore.flushBelow s j).fb, Option.map_map]
    rfl

theorem Device.commitWord_reg? (w : WireWord) (d : Device) (a : Nat) :
    (d.commitWord w).reg? a = if a = wordAddress w ∧ a ≠ 0 then some (wordData w) else d.reg? a := by
  rw [wordAddress_eq, wordData_eq]
  exact Device.latch_reg? (d.withWord w) a

theorem Device.flushed_reg? (fb : Memory) (k : Nat) {j : Nat} (hj : j ≤ 8) (d : Device) (a : Nat) :
    (d.flushed fb k j).reg? a = if 1 ≤ a ∧ a ≤ j then some (fb.read (fbAddr k (a - 1))) else d.reg? a := by
  induction j with
  | zero => rw [if_neg (by omega), Device.flushed]
  | succ j ih =>
    rw [Device.flushed, Device.commitWord_reg?, wordAddress_flushWord _ _ hj, wordData_flushWord,
      ih (Nat.le_of_succ_le hj)]
    by_cases ha : a = j + 1
    · subst ha
      rw [if_pos (by omega), if_pos (by omega), Nat.add_sub_cancel]
    · rw [if_neg (by omega)]
      exact if_congr (by omega) rfl rfl

theorem Device.commitWord_normalOperation (p : DriverParams) {w : WireWord} (hw : wordAddress w ≤ 8) (d : Device) :
    (d.commitWord w).normalOperation p = d.normalOperation p :=
  Device.latch_normalOperation p (d := d.withWord w) (wordAddress_eq w ▸ hw)

theorem Device.flushed_normalOperation (fb : Memory) (k : Nat) {j : Nat} (hj : j ≤ 8) (p : DriverParams) (d : Device) :
    (d.flushed fb k j).normalOperation p = d.normalOperation p := by
  induction j with
  | zero => rfl
  | succ j ih =>
    rw [Device.flushed, Device.commitWord_normalOperation p ((wordAddress_flushWord fb k hj).trans_le hj),
      ih (Nat.le_of_succ_le hj)]

/-- A device is its shift register, its registers and the record of what has been written. -/
theorem Device.eq_of_reg?_eq {d e : Device} (hsr : d.sr = e.sr) (hreg : ∀ a, d.reg? a = e.reg? a)
    (hwritten : d.written = e.written) : d = e := by
  have hrow : ∀ a {v w : Byte}, d.reg? a = some v → e.reg? a = some w → v = w := fun a v w hv hw =>
    Option.some.inj (hv.symm.trans ((hreg a).trans hw))
  cases d
  cases e
  rw [Device.mk.injEq]
  exact ⟨hsr, hrow 1 rfl rfl, hrow 2 rfl rfl, hrow 3 rfl rfl, hrow 4 rfl rfl, hrow 5 rfl rfl, hrow 6 rfl rfl,
    hrow 7 rfl rfl, hrow 8 rfl rfl, hrow 9 rfl rfl, hrow 10 rfl rfl, hrow 11 rfl rfl, hrow 12 rfl rfl,
    hrow 13 rfl rfl, hrow 14 rfl rfl, hrow 15 rfl rfl, hwritten⟩

/-- A no-op or a row word leaves the record of what has been written (log 4). -/
theorem Device.latch_written {d : Device} (h : (d.sr.extractLsb' 8 4).toNat ≤ 8) : d.latch.written = d.written := by
  unfold Device.latch decodeWire
  generalize (d.sr.extractLsb' 8 4).toNat = n at h ⊢
  interval_cases n <;> rfl

theorem Device.commitWord_written {w : WireWord} (hw : wordAddress w ≤ 8) (d : Device) :
    (d.commitWord w).written = d.written :=
  Device.latch_written (d := d.withWord w) (wordAddress_eq w ▸ hw)

theorem Device.flushed_written (fb : Memory) (k : Nat) {j : Nat} (hj : j ≤ 8) (d : Device) :
    (d.flushed fb k j).written = d.written := by
  induction j with
  | zero => rfl
  | succ j ih =>
    rw [Device.flushed, Device.commitWord_written ((wordAddress_flushWord fb k hj).trans_le hj),
      ih (Nat.le_of_succ_le hj)]

theorem Device.flushed_sr (fb : Memory) (k j : Nat) (d : Device) : (d.flushed fb k (j + 1)).sr = flushWord fb k j :=
  Device.latch_sr _

/-- The second flush commits what the first one did (rule R155 (c)). -/
theorem Device.flushed_flushed (fb : Memory) (k : Nat) (d : Device) :
    (d.flushed fb k 8).flushed fb k 8 = d.flushed fb k 8 := by
  refine Device.eq_of_reg?_eq ?_ (fun a => ?_) (Device.flushed_written fb k le_rfl _)
  · rw [Device.flushed_sr, Device.flushed_sr]
  · rw [Device.flushed_reg? fb k le_rfl]
    split
    case isTrue ha => rw [Device.flushed_reg? fb k le_rfl, if_pos ha]
    case isFalse => rfl

/-! What a flush sends. -/

theorem exec_flush {s : State} (hst : s.st = .idle) : exec .flush s = .next (s.flushRows.respond .ok) :=
  State.whenBus_of_eq hst nofun _

/-- The words of a row, one by one (rule R151). -/
theorem flushWords_getElem? (s : State) {r t : Nat} (hr : r < 8) (ht : t < s.cfg.n) :
    (flushWords s r)[t]? = some (flushWord s.fb (s.cfg.n - 1 - t) r) := by
  rw [flushWords_eq_rowWords s hr, rowWords, List.getElem?_map, List.getElem?_range ht, Option.map_some]

theorem length_flushWords (s : State) (r : Nat) : (flushWords s r).length = s.cfg.n := by simp [flushWords]

theorem length_bracketEvents (words : List WireWord) : (bracketEvents words).length = 48 * words.length + 2 := by
  have hword : ∀ w, (wordEvents w).length = 48 := fun w => length_bitsEvents w 16
  have hwords : (words.flatMap wordEvents).length = words.length * 48 := by simp [List.length_flatMap, hword]
  rw [bracketEvents, List.length_cons, List.length_append, hwords, List.length_singleton]
  omega

theorem count_clk_bracketEvents (words : List WireWord) :
    (bracketEvents words).count { line := .clk, level := true } = 16 * words.length := by
  have hword : ∀ w, (wordEvents w).count { line := .clk, level := true } = 16 := fun w => count_clk_bitsEvents w 16
  simp [bracketEvents, List.count_flatMap, hword, Function.comp_def, Nat.mul_comm]

theorem count_sel_bitsEvents (w : WireWord) (n : Nat) :
    (bitsEvents w n).count { line := .sel, level := true } = 0 := by
  have hbit : ∀ v, (bitEvents v).count { line := .sel, level := true } = 0 := by decide
  induction n with
  | zero => rfl
  | succ n ih => rw [bitsEvents, List.count_append, ih, hbit]

theorem count_sel_bracketEvents (words : List WireWord) :
    (bracketEvents words).count { line := .sel, level := true } = 1 := by
  have hword : ∀ w, (wordEvents w).count { line := .sel, level := true } = 0 := fun w => count_sel_bitsEvents w 16
  simp [bracketEvents, List.count_flatMap, hword, Function.comp_def, selL, selT]

/-- Line writes and a response change the trace, the lines, the devices and the responses only. -/
theorem SameCore.respond_eq {s t : State} (h : SameCore s t) (hst : t.st = s.st) (r : Response) :
    t.respond r =
      { s with
        trace := (t.respond r).trace, line := (t.respond r).line, chain := (t.respond r).chain
        responses := s.responses ++ [r] } :=
  State.ext_fields h.cfg hst h.fb rfl h.fault rfl rfl h.input (congrArg (· ++ [r]) h.responses)

theorem flushEvents_congr {s t : State} (hcfg : t.cfg = s.cfg) (hfb : t.fb = s.fb) : flushEvents t = flushEvents s := by
  simp only [flushEvents, flushWords_congr hcfg hfb]

theorem State.flushRows_trace (s : State) : s.flushRows.trace = s.trace ++ flushEvents s := by
  rw [State.flushRows_eq_flushBelow, State.flushBelow_trace s le_rfl, flushEvents]

theorem length_flushEvents (s : State) : (flushEvents s).length = 384 * s.cfg.n + 16 := by
  have hrows : ∀ rows : List Nat, (rows.flatMap fun r => bracketEvents (flushWords s r)).length =
      rows.length * (48 * s.cfg.n + 2) := by
    simp [List.length_flatMap, length_bracketEvents, length_flushWords]
  rw [flushEvents, hrows, List.length_range]
  omega

theorem count_clk_flushEvents (s : State) :
    (flushEvents s).count { line := .clk, level := true } = 128 * s.cfg.n := by
  have hrows : ∀ rows : List Nat, (rows.flatMap fun r => bracketEvents (flushWords s r)).count
      { line := .clk, level := true } = rows.length * (16 * s.cfg.n) := by
    simp [List.count_flatMap, count_clk_bracketEvents, length_flushWords, Function.comp_def]
  rw [flushEvents, hrows, List.length_range]
  omega

theorem count_sel_flushEvents (s : State) : (flushEvents s).count { line := .sel, level := true } = 8 := by
  simp [flushEvents, List.count_flatMap, count_sel_bracketEvents, Function.comp_def]

/-- Settles O19: the words of the eight brackets are those of rule R151, and line writes touch nothing of the core. -/
theorem flushSendsEightBrackets : Obligations.FlushSendsEightBrackets := by
  intro s hst
  have hframe := (SameCore.flushRows s).respond_eq (s.flushRows_ends.1.trans hst.symm) .ok
  refine ⟨⟨_, exec_flush hst, State.flushRows_trace s, hframe, s.flushRows_ends.2⟩,
    length_flushEvents s, count_clk_flushEvents s, count_sel_flushEvents s, fun r hr => ⟨length_flushWords s r, ?_⟩⟩
  exact fun t ht => ⟨_, flushWords_getElem? s hr ht, wordAddress_flushWord _ _ hr, wordData_flushWord _ _ _⟩

/-! What a flush shows. -/

/-- The registers of a device that has committed its words of the rows below `j` (rules R152, R153). -/
theorem State.reg?_of_flushed {s t : State} {fb : Memory} {j k : Nat} (hj : j ≤ 8) (hk : k < s.chain.length)
    (h : t.chain[k]? = (s.chain[k]?).map (Device.flushed fb k j)) (a : Nat) :
    t.reg? k a = if 1 ≤ a ∧ a ≤ j then some (fb.read (fbAddr k (a - 1))) else s.reg? k a := by
  have hd := List.getElem?_eq_getElem hk
  rw [hd, Option.map_some] at h
  rw [State.reg?_of_getElem? h, State.reg?_of_getElem? hd, Device.flushed_reg? _ _ hj]

/-- Settles O21: after `j` brackets each device has committed its words of the rows below `j`, in whatever bus state
the first one found it. -/
theorem flushLatchesRowByRow : Obligations.FlushLatchesRowByRow := by
  intro s j hlen hj k r hk hr
  have hdevice := State.flushBelow_chain_getElem? hlen j k
  refine (State.reg?_of_flushed hj (hk.trans_eq hlen.symm) hdevice (r + 1)).trans ?_
  exact if_congr (by omega) rfl rfl

/-- From `s` to `t` a whole flush was made (rules R150 to R152). -/
structure Flushed (s t : State) : Prop where
  st : t.st = .idle
  cfg : t.cfg = s.cfg
  fb : t.fb = s.fb
  responses : t.responses = s.responses ++ [.ok]
  trace : t.trace = s.trace ++ flushEvents s
  length : t.chain.length = s.chain.length
  devices : ∀ k, t.chain[k]? = (s.chain[k]?).map (Device.flushed s.fb k 8)

theorem exec_flush_flushed {s : State} (hst : s.st = .idle) (hlen : s.chain.length = s.cfg.n) :
    ∃ t, exec .flush s = .next t ∧ Flushed s t := by
  obtain ⟨hcfg, hfb, -, -, hresponses⟩ := SameCore.flushRows s
  refine ⟨s.flushRows.respond .ok, exec_flush hst, ?_⟩
  exact
    { st := s.flushRows_ends.1
      cfg := by rw [State.respond_cfg, hcfg]
      fb := by rw [State.respond_fb, hfb]
      responses := by rw [State.respond_responses, hresponses]
      trace := by rw [State.respond_trace, State.flushRows_trace]
      length := by rw [State.respond_chain, State.length_flushRows_chain]
      devices := fun k => by
        rw [State.respond_chain, State.flushRows_eq_flushBelow, State.flushBelow_chain_getElem? hlen] }

section Flushed

variable {s t : State} (h : Flushed s t)
include h

theorem Flushed.reg?_eq {k : Nat} (hk : k < s.chain.length) (a : Nat) :
    t.reg? k a = if 1 ≤ a ∧ a ≤ 8 then some (s.fbByte k (a - 1)) else s.reg? k a :=
  State.reg?_of_flushed le_rfl hk (h.devices k) a

/-- In normal operation every LED shows its bit of the framebuffer (rules R71, R152). -/
theorem Flushed.ledLit (hnormal : ∀ d ∈ s.chain, d.normalOperation s.cfg.driver = true) {p : Place}
    (hm : p.m < s.chain.length) (hr : p.r < 8) (hb : p.b < 8) : t.ledLit p.m p.r p.b = some (s.fbBit p) := by
  have hd := h.devices p.m
  rw [List.getElem?_eq_getElem hm, Option.map_some] at hd
  have hnormal' : (Device.flushed s.fb p.m 8 s.chain[p.m]).normalOperation t.cfg.driver = true := by
    rw [h.cfg, Device.flushed_normalOperation _ _ le_rfl, hnormal _ (List.getElem_mem hm)]
  rw [State.ledLit_normal hd hr hb hnormal', Device.flushed_reg? _ _ le_rfl, if_pos (by omega)]
  rfl

/-- And so does every pixel of the display (rule R89). -/
theorem Flushed.pixelLit (hnormal : ∀ d ∈ s.chain, d.normalOperation s.cfg.driver = true)
    (hlen : s.chain.length = s.cfg.n) {x y : Nat} {p : Place} (hin : s.cfg.hasPixel x y = true)
    (hp : s.cfg.pixelToPhysical x y = some p) : t.pixelLit x y = some (s.fbBit p) := by
  obtain ⟨hm, hr, hb⟩ := Cfg.pixelToPhysical_bounds hp
  rw [← h.cfg] at hin hp
  rw [State.pixelLit_inside hin hp, h.ledLit hnormal (hm.trans_eq hlen.symm) hr hb]

/-- A second flush leaves every device as the first one did (rule R155 (c)). -/
theorem Flushed.chain_eq_of_again {u : State} (h' : Flushed t u) : u.chain = t.chain := by
  refine List.ext_getElem? fun k => ?_
  rw [h'.devices, h.devices, h.fb, Option.map_map]
  exact congrArg (Option.map · (s.chain[k]?)) (funext (Device.flushed_flushed s.fb k))

end Flushed

/-- Settles O20: a flush writes row register `r + 1` of each device and none above 8. -/
theorem flushShowsTheFramebuffer : Obligations.FlushShowsTheFramebuffer := by
  intro s hst hlen
  obtain ⟨t, hexec, hflushed⟩ := exec_flush_flushed hst hlen
  refine ⟨t, hexec, hflushed.fb, hflushed.responses, fun k r hk hr => ?_, fun k a ha => ?_⟩
  · rw [hflushed.reg?_eq (hk.trans_eq hlen.symm), if_pos (by omega), Nat.add_sub_cancel]
  · by_cases hk : k < s.chain.length
    · rw [hflushed.reg?_eq hk, if_neg (by omega)]
    · rw [State.reg?_eq_bind, State.reg?_eq_bind, hflushed.devices, List.getElem?_eq_none (Nat.le_of_not_lt hk)]
      rfl

/-- Settles O22: the second flush sends the same words, since the first one left the framebuffer. -/
theorem flushTwiceLeavesTheDevicesAlike : Obligations.FlushTwiceLeavesTheDevicesAlike := by
  intro s hst hlen
  obtain ⟨t, hexec, hflushed⟩ := exec_flush_flushed hst hlen
  obtain ⟨u, hexec', hflushed'⟩ := exec_flush_flushed hflushed.st (by rw [hflushed.length, hlen, hflushed.cfg])
  refine ⟨t, u, hexec, hexec', hflushed.chain_eq_of_again hflushed', ?_⟩
  rw [hflushed'.trace, hflushed.trace, flushEvents_congr hflushed.cfg hflushed.fb]

/-- Settles O23: SETPX stores one bit, the flush shows every pixel's bit, and another pixel has another bit. -/
theorem pixelSetAndFlushedIsShown : Obligations.PixelSetAndFlushedIsShown := by
  intro s x y on hinv hst hin hnormal
  have hlive : s.st ≠ .configError := by simp [hst]
  have hvalid := hinv.cfgValid hlive
  have hlen := hinv.chainLength hlive
  obtain ⟨hx0, hx, hy0, hy⟩ := (Cfg.hasPixel_iff s.cfg x y).mp hin
  have hxn := (Int.toNat_lt hx0).mpr hx
  have hyn := (Int.toNat_lt hy0).mpr hy
  obtain ⟨p, hp, -, hr, hb, -⟩ := Cfg.pixelToPhysical_inside hvalid hxn hyn
  have hset : exec (.setPixel x y on) s = .next ((s.storePixel p on).respond .ok) :=
    State.whenPixel_inside hlive hin hp _
  obtain ⟨u, hflush, hflushed⟩ := exec_flush_flushed (s := (s.storePixel p on).respond .ok) hst hlen
  have hshown : ∀ {x' y' : Nat} {q : Place}, x' < s.cfg.w → y' < s.cfg.h → s.cfg.pixelToPhysical x' y' = some q →
      u.pixelLit x' y' = some (if q = p then on else s.fbBit q) := by
    intro x' y' q hx' hy' hq
    have hin' : s.cfg.hasPixel x' y' = true := (Cfg.hasPixel_iff _ _ _).mpr (by omega)
    obtain ⟨-, hqr, hqb⟩ := Cfg.pixelToPhysical_bounds hq
    rw [hflushed.pixelLit hnormal hlen hin' hq, ← State.fbBit_storePixel hinv.fbCanonical on hr hb hqr hqb]
    rfl
  refine ⟨_, u, hset, hflush, ?_, fun x' y' q hx' hy' hne hq => ?_⟩
  · rw [hshown hxn hyn hp, if_pos rfl]
  · have hother : q ≠ p := by
      rintro rfl
      obtain ⟨hxeq, hyeq⟩ := Cfg.pixelToPhysical_injective hvalid hx' hy' hxn hyn hq hp
      exact hne.elim (· hxeq) (· hyeq)
    rw [hshown hx' hy' hq, if_neg hother]

end Sys2Proof.Machine

/-! The framebuffer commands one by one: the words of the commands (rules R106, R112), what each stores inside its range
and its rejection outside (rules R160 to R167, R214, R215), and what the source requires of them together (rules R59,
R160, R167, R168). -/

namespace Sys2Proof

/-- A pixel of the display has its place (rules R80, R91). -/
theorem Cfg.exists_place {cfg : Cfg} (h : cfg.valid = true) {x y : Int} (hin : cfg.hasPixel x y = true) :
    ∃ p, cfg.pixelToPhysical x.toNat y.toNat = some p := by
  obtain ⟨hx0, hx, hy0, hy⟩ := (Cfg.hasPixel_iff cfg x y).mp hin
  obtain ⟨p, hp, -⟩ := Cfg.pixelToPhysical_inside h ((Int.toNat_lt hx0).mpr hx) ((Int.toNat_lt hy0).mpr hy)
  exact ⟨p, hp⟩

/-- Two operand pairs inside the display that name different pixels have different places (rule R86 (a)). -/
theorem Cfg.place_ne {cfg : Cfg} (h : cfg.valid = true) {x y x' y' : Int} {p q : Place}
    (hin : cfg.hasPixel x y = true) (hin' : cfg.hasPixel x' y' = true) (hne : x ≠ x' ∨ y ≠ y')
    (hp : cfg.pixelToPhysical x.toNat y.toNat = some p) (hq : cfg.pixelToPhysical x'.toNat y'.toNat = some q) :
    q ≠ p := by
  rintro rfl
  obtain ⟨hx0, hx, hy0, hy⟩ := (Cfg.hasPixel_iff cfg x y).mp hin
  obtain ⟨hx0', hx', hy0', hy'⟩ := (Cfg.hasPixel_iff cfg x' y').mp hin'
  obtain ⟨hxeq, hyeq⟩ := Cfg.pixelToPhysical_injective h ((Int.toNat_lt hx0).mpr hx) ((Int.toNat_lt hy0).mpr hy)
    ((Int.toNat_lt hx0').mpr hx') ((Int.toNat_lt hy0').mpr hy') hp hq
  omega

/-- A logical module has its entry in both tables (rules R82, R91). -/
theorem Cfg.exists_module {cfg : Cfg} (h : cfg.valid = true) {l : Nat} (hl : l < cfg.n) :
    ∃ m rot, cfg.moduleToChain l = some m ∧ cfg.rotatedAt l = some rot := by
  obtain ⟨m, hm, -⟩ := Cfg.chainAt_of_lt h hl
  obtain ⟨rot, hrot⟩ := Cfg.rotatedAt_of_lt h hl
  exact ⟨m, rot, hm, hrot⟩

end Sys2Proof

namespace Sys2Proof.Machine

/-- A header whose `b` field is unused, by the 16 bits before it, its `a` field and 32 zeros (rules R104, R106). -/
theorem headerCode_eq_append_zero (op : BitVec 8) (s : Bool) (a : Int) :
    headerCode op s a 0 = (op ++ 0#7 ++ BitVec.ofBool s) ++ BitVec.ofInt 16 a ++ 0x00000000#32 := by
  rw [headerCode_eq_append]
  exact BitVec.append_assoc

/-! The pixel commands. -/

/-- A pixel command outside the display changes `FAULT` only (rules R81, R214). -/
theorem State.whenPixel_rejected {s : State} {x y : Int} (hc : s.st ≠ .configError)
    (hout : x < 0 ∨ (s.cfg.w : Int) ≤ x ∨ y < 0 ∨ (s.cfg.h : Int) ≤ y) (body : Place → Result) :
    s.whenPixel x y body =
      .next { s with fault := if s.fault = 0 then 4 else s.fault, responses := s.responses ++ [.err .coordRange] } := by
  have hin : s.cfg.hasPixel x y = false := by
    rw [Bool.eq_false_iff, ne_eq, Cfg.hasPixel_iff]
    omega
  exact State.whenPixel_outside hc hin body

section Pixel

variable {s : State} {x y : Int} {p : Place} (hc : s.st ≠ .configError) (hin : s.cfg.hasPixel x y = true)
  (hp : s.cfg.pixelToPhysical x.toNat y.toNat = some p)
include hc hin hp

theorem exec_setPixel (on : Bool) : exec (.setPixel x y on) s = .next ((s.storePixel p on).respond .ok) :=
  State.whenPixel_inside hc hin hp _

theorem exec_invertPixel : exec (.invertPixel x y) s = .next ((s.storePixel p (!s.fbBit p)).respond .ok) :=
  State.whenPixel_inside hc hin hp _

theorem exec_getPixel : exec (.getPixel x y) s = .next (s.respond (.val (s.fbBit p))) :=
  State.whenPixel_inside hc hin hp _

end Pixel

/-- Settles O24: SETPX is the store of one bit at its pixel's place. -/
theorem setPixelStoresOneBit : Obligations.SetPixelStoresOneBit := by
  intro s x y on hc hvalid hw
  refine ⟨?_, fun hx0 hx hy0 hy => ?_, fun hout => State.whenPixel_rejected hc hout _⟩
  · rw [encode, headerCode_eq_append]
    cases on with
    | false | true => rfl
  · have hin := (Cfg.hasPixel_iff s.cfg x y).mpr ⟨hx0, hx, hy0, hy⟩
    obtain ⟨p, hp⟩ := Cfg.exists_place hvalid hin
    obtain ⟨-, hr, hb⟩ := Cfg.pixelToPhysical_bounds hp
    exact ⟨p, _, hp, exec_setPixel hc hin hp on, fun q => State.fbBit_storePixel hw on hr hb,
      fun a => State.read_storePixel_other s p on, rfl⟩

/-- Settles O25: INVPX is the store of the complement of the bit at its pixel's place. -/
theorem invertPixelFlipsOneBit : Obligations.InvertPixelFlipsOneBit := by
  intro s x y hc hvalid hw
  refine ⟨?_, fun hx0 hx hy0 hy => ?_, fun hout => State.whenPixel_rejected hc hout _⟩
  · rw [encode, headerCode_eq_append]
    rfl
  · have hin := (Cfg.hasPixel_iff s.cfg x y).mpr ⟨hx0, hx, hy0, hy⟩
    obtain ⟨p, hp⟩ := Cfg.exists_place hvalid hin
    obtain ⟨-, hr, hb⟩ := Cfg.pixelToPhysical_bounds hp
    refine ⟨p, _, hp, exec_invertPixel hc hin hp, fun q hqr hqb => ?_,
      fun a => State.read_storePixel_other s p _, rfl⟩
    refine (State.fbBit_storePixel hw _ hr hb hqr hqb).trans ?_
    by_cases hq : q = p
    · rw [if_pos hq, if_pos hq, hq]
    · rw [if_neg hq, if_neg hq]

/-- Settles O26: GETPX answers the bit at its pixel's place. -/
theorem getPixelAnswersTheStoredBit : Obligations.GetPixelAnswersTheStoredBit := by
  intro s x y hc hvalid
  refine ⟨?_, fun hx0 hx hy0 hy => ?_, fun hout => State.whenPixel_rejected hc hout _⟩
  · rw [encode, headerCode_eq_append]
    rfl
  · have hin := (Cfg.hasPixel_iff s.cfg x y).mpr ⟨hx0, hx, hy0, hy⟩
    obtain ⟨p, hp⟩ := Cfg.exists_place hvalid hin
    exact ⟨p, hp, exec_getPixel hc hin hp⟩

/-! CLRD and the module commands. -/

theorem exec_clearDisplay {s : State} (hc : s.st ≠ .configError) (state : Bool) :
    exec (.clearDisplay state) s = .next ((s.fillDisplay (uniformByte state)).respond .ok) :=
  State.whenConfigured_of_ne hc _

/-- CLRD sets every cell of the framebuffer (rule R164). -/
theorem State.fbByte_fillDisplay {s : State} (hw : s.fb.wf = true) (v : Byte) {m r : Nat} (hm : m < s.cfg.n)
    (hr : r < 8) : (s.fillDisplay v).fbByte m r = v := by
  rw [State.fbByte, State.read_fillDisplay hw, if_pos (by unfold fbAddr; omega)]

/-- Settles O27: CLRD fills the addresses below `8 * N`. -/
theorem clearDisplaySetsEveryByte : Obligations.ClearDisplaySetsEveryByte := by
  refine ⟨rfl, rfl, fun s state hc hw => ⟨_, exec_clearDisplay hc state, fun m r hm hr => ?_, fun a ha => ?_, rfl⟩⟩
  · exact State.fbByte_fillDisplay hw _ hm hr
  · exact (State.read_fillDisplay hw _ a).trans (if_neg (Nat.not_lt.mpr ha))

/-- A module command outside `0..N-1` changes `FAULT` only (rules R87, R215). -/
theorem State.whenModule_rejected {s : State} {l : Int} (hc : s.st ≠ .configError)
    (hout : l < 0 ∨ (s.cfg.n : Int) ≤ l) (body : Nat → Bool → Result) :
    s.whenModule l body =
      .next { s with
        fault := if s.fault = 0 then 5 else s.fault
        responses := s.responses ++ [.err .moduleRange] } := by
  have hin : s.cfg.hasModule l = false := by
    rw [Bool.eq_false_iff, ne_eq, Cfg.hasModule_iff]
    omega
  exact State.whenModule_outside hc hin body

/-- What row `r` of a block becomes for an unrotated and for a rotated module (rule R88). -/
def blockByte (block : List Byte) (rot : Bool) (r : Nat) : Byte :=
  if rot then bitrev8 (block.getD (7 - r) 0) else block.getD r 0

/-- Storing a block in display orientation (rules R88, R166). -/
theorem State.fbByte_storeBlock_storedBlock {s : State} {block : List Byte} (hw : s.fb.wf = true)
    (hlen : block.length = 8) (m m' : Nat) (rot : Bool) {r : Nat} (hr : r < 8) :
    (s.storeBlock m (storedBlock rot block)).fbByte m' r =
      if m' = m then blockByte block rot r else s.fbByte m' r := by
  rw [State.fbByte_storeBlock hw (by rw [length_storedBlock, hlen]) hr, getElem_storedBlock hlen hr, blockByte,
    List.getD_eq_getElem block 0 (by omega), List.getD_eq_getElem block 0 (by omega)]

/-- SETMR with eight bytes is a module command: `ConfigError` is checked once (rules R166, R219). -/
theorem execSetModuleRows_of_length {rows : List Byte} (hlen : rows.length = 8) (l : Int) (s : State) :
    execSetModuleRows l rows s =
      s.whenModule l fun m rot => .next ((s.storeBlock m (storedBlock rot rows)).respond .ok) := by
  rw [execSetModuleRows, if_pos hlen]
  by_cases hc : s.st = .configError
  · rw [State.whenConfigured_of_eq hc, State.whenModule, State.whenConfigured_of_eq hc]
  · rw [State.whenConfigured_of_ne hc]

section Module

variable {s : State} {l : Int} {m : Nat} {rot : Bool} (hc : s.st ≠ .configError) (hin : s.cfg.hasModule l = true)
  (hm : s.cfg.moduleToChain l.toNat = some m) (hrot : s.cfg.rotatedAt l.toNat = some rot)
include hc hin hm hrot

theorem exec_clearModule (state : Bool) :
    exec (.clearModule l state) s =
      .next ((s.storeBlock m (List.replicate 8 (uniformByte state))).respond .ok) :=
  State.whenModule_inside hc hin hm hrot _

theorem exec_setModuleRows {rows : List Byte} (hlen : rows.length = 8) :
    exec (.setModuleRows l rows) s = .next ((s.storeBlock m (storedBlock rot rows)).respond .ok) :=
  (execSetModuleRows_of_length hlen l s).trans (State.whenModule_inside hc hin hm hrot _)

end Module

/-- Settles O28: CLRM stores a uniform block, and eight equal bytes need no rotation. -/
theorem clearModuleSetsOneBlock : Obligations.ClearModuleSetsOneBlock := by
  intro s l state hc hvalid hw
  refine ⟨?_, fun hl0 hl => ?_, fun hout => State.whenModule_rejected hc hout _⟩
  · rw [encode, headerCode_eq_append_zero]
    cases state with
    | false | true => rfl
  · have hin := (Cfg.hasModule_iff s.cfg l).mpr ⟨hl0, hl⟩
    obtain ⟨m, rot, hm, hrot⟩ := Cfg.exists_module hvalid ((Int.toNat_lt hl0).mpr hl)
    refine ⟨m, _, (Cfg.chainAt_eq_some_iff hvalid).mp hm, exec_clearModule hc hin hm hrot state,
      fun m' r hr => ?_, rfl⟩
    refine (State.fbByte_storeBlock hw List.length_replicate hr).trans ?_
    rw [List.getElem_replicate]
    rfl

/-- Settles O29: SETMR stores its eight bytes in display orientation. -/
theorem setModuleRowsStoresTheBlock : Obligations.SetModuleRowsStoresTheBlock := by
  intro s l rows hc hvalid hw hlen
  refine ⟨?_, fun hl0 hl => ?_, fun hout => ?_⟩
  · obtain ⟨hcount, hbytes⟩ := payloadBytes_packRows 1 rows hlen
    obtain ⟨payload, hpayload⟩ := List.length_eq_one_iff.mp hcount
    rw [hpayload, List.flatMap_singleton] at hbytes
    refine ⟨payload, ?_, hbytes⟩
    rw [encode, hpayload, headerCode_eq_append_zero]
    rfl
  · have hin := (Cfg.hasModule_iff s.cfg l).mpr ⟨hl0, hl⟩
    obtain ⟨m, rot, hm, hrot⟩ := Cfg.exists_module hvalid ((Int.toNat_lt hl0).mpr hl)
    exact ⟨m, rot, _, (Cfg.chainAt_eq_some_iff hvalid).mp hm, hrot, exec_setModuleRows hc hin hm hrot hlen,
      fun m' r hr => State.fbByte_storeBlock_storedBlock hw hlen m m' rot hr, rfl⟩
  · exact (execSetModuleRows_of_length hlen l s).trans (State.whenModule_rejected hc hout _)

/-! SETDR and the SETMRs of its tiles. -/

/-- The eight bytes of tile `l` in the bytes of a display (rule R167). -/
def tileRows (rows : List Byte) (l : Nat) : List Byte := (rows.drop (8 * l)).take 8

theorem length_tileRows {rows : List Byte} {n l : Nat} (hlen : rows.length = 8 * n) (hl : l < n) :
    (tileRows rows l).length = 8 := by
  rw [tileRows, List.length_take, List.length_drop]
  omega

theorem getD_tileRows (rows : List Byte) (l : Nat) {r : Nat} (hr : r < 8) :
    (tileRows rows l).getD r 0 = rows.getD (8 * l + r) 0 := by
  simp only [tileRows, List.getD_eq_getElem?_getD, List.getElem?_take_of_lt hr, List.getElem?_drop]

/-- Storing one more module (rule R167). -/
theorem State.storeModules_succ_eq_some {s t : State} {rows : List Byte} {l : Nat} :
    s.storeModules rows (l + 1) = some t ↔
      ∃ u m rot, s.storeModules rows l = some u ∧ s.cfg.moduleToChain l = some m ∧ s.cfg.rotatedAt l = some rot ∧
        t = u.storeBlock m (storedBlock rot (tileRows rows l)) := by
  constructor
  · intro h
    rw [State.storeModules] at h
    split at h
    · rename_i u m rot hu hm hrot
      cases h
      exact ⟨u, m, rot, hu, hm, hrot, rfl⟩
    · cases h
  · rintro ⟨u, m, rot, hu, hm, hrot, rfl⟩
    rw [State.storeModules, hu, hm, hrot]
    rfl

/-- Every address is that of one cell (rule R51). -/
theorem fbAddr_div_mod (a : Nat) : fbAddr (a / 8) (a % 8) = a := Nat.div_add_mod a 8

/-- Every cell is a row of a chain index, so canonical memories that agree on these are the same. -/
theorem Memory.eq_of_read_fbAddr_eq {fb fb' : Memory} (hw : fb.wf = true) (hw' : fb'.wf = true)
    (h : ∀ m r, r < 8 → fb.read (fbAddr m r) = fb'.read (fbAddr m r)) : fb = fb' := by
  refine Memory.eq_of_read_eq hw hw' fun a => ?_
  have hcell := h (a / 8) (a % 8) (Nat.mod_lt a (by decide))
  rwa [fbAddr_div_mod] at hcell

/-- Between the two framebuffers the tiles of `order` were stored, and no other block (rules R88, R167). -/
structure TilesStored (cfg : Cfg) (rows : List Byte) (order : List Nat) (before after : Memory) : Prop where
  wf : after.wf = true
  stored : ∀ l ∈ order, ∀ m rot r, cfg.chainAt l = some m → cfg.rotatedAt l = some rot → r < 8 →
    after.read (fbAddr m r) = blockByte (tileRows rows l) rot r
  kept : ∀ m r, r < 8 → (∀ l ∈ order, cfg.chainAt l ≠ some m) → after.read (fbAddr m r) = before.read (fbAddr m r)

section TilesStored

variable {cfg : Cfg} {rows : List Byte}

theorem TilesStored.nil {fb : Memory} (hw : fb.wf = true) : TilesStored cfg rows [] fb fb where
  wf := hw
  stored := nofun
  kept _ _ _ _ := rfl

/-- One tile stored. -/
theorem TilesStored.storeBlock {s : State} {l m : Nat} {rot : Bool} (hw : s.fb.wf = true)
    (hlen : (tileRows rows l).length = 8) (hm : cfg.chainAt l = some m) (hrot : cfg.rotatedAt l = some rot) :
    TilesStored cfg rows [l] s.fb (s.storeBlock m (storedBlock rot (tileRows rows l))).fb where
  wf := State.wf_storeBlock hw _ _
  stored l' hl' m' rot' r hm' hrot' hr := by
    cases List.mem_singleton.mp hl'
    cases hm.symm.trans hm'
    cases hrot.symm.trans hrot'
    exact (State.fbByte_storeBlock_storedBlock hw hlen m m rot hr).trans (if_pos rfl)
  kept m' r hr hother := by
    have hne : m' ≠ m := by
      rintro rfl
      exact hother l List.mem_cons_self hm
    exact (State.fbByte_storeBlock_storedBlock hw hlen m m' rot hr).trans (if_neg hne)

/-- A later tile leaves the earlier ones, unless it is one of them. -/
theorem TilesStored.append (hvalid : cfg.valid = true) {order more : List Nat} {fb fb' fb'' : Memory}
    (h : TilesStored cfg rows order fb fb') (h' : TilesStored cfg rows more fb' fb'') :
    TilesStored cfg rows (order ++ more) fb fb'' where
  wf := h'.wf
  stored l hl m rot r hm hrot hr := by
    by_cases hlast : l ∈ more
    · exact h'.stored l hlast m rot r hm hrot hr
    · have hfirst : l ∈ order := (List.mem_append.mp hl).resolve_right hlast
      have hother : ∀ l' ∈ more, cfg.chainAt l' ≠ some m := by
        intro l' hl' hm'
        cases Cfg.chainAt_injective hvalid hm hm'
        exact hlast hl'
      exact (h'.kept m r hr hother).trans (h.stored l hfirst m rot r hm hrot hr)
  kept m r hr hother :=
    (h'.kept m r hr fun l hl => hother l (List.mem_append_right order hl)).trans
      (h.kept m r hr fun l hl => hother l (List.mem_append_left more hl))

/-- Cells that are no chain index of the configuration keep their bytes. -/
theorem TilesStored.read_outside {order : List Nat} {fb fb' : Memory} (h : TilesStored cfg rows order fb fb')
    {m r : Nat} (hm : cfg.n ≤ m) (hr : r < 8) : fb'.read (fbAddr m r) = fb.read (fbAddr m r) :=
  h.kept m r hr fun _ _ hat => absurd (Cfg.lt_of_chainAt hat) (Nat.not_lt.mpr hm)

/-- Storing every tile leaves one framebuffer, whatever the order (rule R167). -/
theorem TilesStored.unique (hvalid : cfg.valid = true) {order order' : List Nat} {fb after after' : Memory}
    (h : TilesStored cfg rows order fb after) (h' : TilesStored cfg rows order' fb after')
    (hall : ∀ l < cfg.n, l ∈ order) (hall' : ∀ l < cfg.n, l ∈ order') : after = after' := by
  refine Memory.eq_of_read_fbAddr_eq h.wf h'.wf fun m r hr => ?_
  rcases Nat.lt_or_ge m cfg.n with hm | hm
  · obtain ⟨l, hl, hget⟩ := Cfg.exists_chainOrder_eq hvalid hm
    obtain ⟨rot, hrot⟩ := Cfg.rotatedAt_of_lt hvalid hl
    have hat := (Cfg.chainAt_eq_some_iff hvalid).mpr hget
    rw [h.stored l (hall l hl) m rot r hat hrot hr, h'.stored l (hall' l hl) m rot r hat hrot hr]
  · rw [h.read_outside hm hr, h'.read_outside hm hr]

end TilesStored

section Tiles

variable {s : State} {rows : List Byte} (hvalid : s.cfg.valid = true) (hw : s.fb.wf = true)
  (hlen : rows.length = 8 * s.cfg.n)
include hvalid hw hlen

theorem State.storeModules_tilesStored {t : State} {n : Nat} (hn : n ≤ s.cfg.n)
    (h : s.storeModules rows n = some t) : TilesStored s.cfg rows (List.range n) s.fb t.fb := by
  induction n generalizing t with
  | zero =>
    cases h
    exact .nil hw
  | succ l ih =>
    obtain ⟨u, m, rot, hu, hm, hrot, rfl⟩ := State.storeModules_succ_eq_some.mp h
    have hbefore := ih (Nat.le_of_succ_le hn) hu
    rw [List.range_succ]
    exact hbefore.append hvalid (.storeBlock hbefore.wf (length_tileRows hlen hn) hm hrot)

/-- SETDR stores the tiles in logical order (rule R167). -/
theorem exec_setDisplayRows_tilesStored (hc : s.st ≠ .configError) :
    ∃ t, exec (.setDisplayRows rows) s = .next (t.respond .ok) ∧ t = s.withFb t.fb ∧
      TilesStored s.cfg rows (List.range s.cfg.n) s.fb t.fb := by
  obtain ⟨t, ht⟩ := State.storeModules_isSome hvalid rows le_rfl
  refine ⟨t, ?_, State.storeModules_eq ht, State.storeModules_tilesStored hvalid hw hlen le_rfl ht⟩
  refine (State.whenConfigured_of_ne hc _).trans ((if_pos hlen).trans ?_)
  rw [ht]

/-- The SETMRs of some tiles store these (rules R166, R167). -/
theorem runCommands_setModuleRows_tilesStored (hc : s.st ≠ .configError) {order : List Nat}
    (horder : ∀ l ∈ order, l < s.cfg.n) :
    ∃ u, runCommands (order.map fun l : Nat => .setModuleRows (l : Int) (tileRows rows l)) s = .next u ∧
      TilesStored s.cfg rows order s.fb u.fb := by
  induction order generalizing s with
  | nil => exact ⟨s, rfl, .nil hw⟩
  | cons l rest ih =>
    obtain ⟨hl, hrest⟩ := List.forall_mem_cons.mp horder
    obtain ⟨m, rot, hm, hrot⟩ := Cfg.exists_module hvalid hl
    have htile := length_tileRows hlen hl
    have hfirst : TilesStored s.cfg rows [l] s.fb _ := .storeBlock hw htile hm hrot
    have hexec := exec_setModuleRows hc ((Cfg.hasModule_iff s.cfg l).mpr (by omega)) hm hrot htile
    obtain ⟨u, hrun, hstored⟩ :=
      ih (s := (s.storeBlock m (storedBlock rot (tileRows rows l))).respond .ok) hvalid hfirst.wf hlen hc hrest
    exact ⟨u, (runCommands_cons hexec).trans hrun, hfirst.append hvalid hstored⟩

end Tiles

/-- Settles O30: SETDR stores every tile, and the tiles cover the framebuffer. -/
theorem setDisplayRowsStoresEveryBlock : Obligations.SetDisplayRowsStoresEveryBlock := by
  intro s rows hc hvalid hw hlen
  obtain ⟨t, hexec, hframe, hstored⟩ := exec_setDisplayRows_tilesStored hvalid hw hlen hc
  refine ⟨⟨packRows rows, rfl, payloadBytes_packRows s.cfg.n rows hlen⟩, t.respond .ok, hexec, fun l r hl hr => ?_,
    fun a ha => ?_, ?_⟩
  · obtain ⟨m, rot, hm, hrot⟩ := Cfg.exists_module hvalid hl
    refine ⟨m, rot, (Cfg.chainAt_eq_some_iff hvalid).mp hm, hrot, ?_⟩
    rw [← getD_tileRows rows l hr, ← getD_tileRows rows l (by omega : 7 - r < 8)]
    exact hstored.stored l (List.mem_range.mpr hl) m rot r hm hrot hr
  · have hcell := hstored.read_outside (m := a / 8) (by omega) (Nat.mod_lt a (by decide : 0 < 8))
    rwa [fbAddr_div_mod] at hcell
  · exact congrArg (State.respond · .ok) hframe

/-- Settles O31: SETDR and the SETMRs store every tile. -/
theorem setDisplayRowsEqualsModuleStoresInAnyOrder : Obligations.SetDisplayRowsEqualsModuleStoresInAnyOrder := by
  intro s rows order hc hvalid hw hlen hperm
  have hmem : ∀ l, l ∈ order ↔ l < s.cfg.n := fun l => hperm.mem_iff.trans List.mem_range
  obtain ⟨t, hexec, -, hstored⟩ := exec_setDisplayRows_tilesStored hvalid hw hlen hc
  obtain ⟨u, hrun, hstored'⟩ := runCommands_setModuleRows_tilesStored hvalid hw hlen hc fun l => (hmem l).mp
  exact ⟨_, u, hexec, hrun,
    hstored'.unique hvalid hstored (fun l => (hmem l).mpr) fun l => List.mem_range.mpr⟩

/-! What the source requires of the commands together. -/

/-- The row and bit of a cell and the reversals of a rotated module cancel (rules R84, R88). -/
theorem getLsbD_blockByte_mirror (block : List Byte) (rot : Bool) {i j : Nat} (hi : i < 8) (hj : j < 8) :
    (blockByte block rot (mirror rot j)).getLsbD (mirror rot i) = (block.getD j 0).getLsbD i := by
  cases rot with
  | false => rfl
  | true =>
    have hflip : ∀ {v : Nat}, v < 8 → 7 - (7 - v) = v := by omega
    simp only [blockByte, mirror, if_true]
    rw [getLsbD_bitrev8 _ (by omega), hflip hi, hflip hj]

/-- A bit stored is the bit read at its place. -/
theorem State.fbBit_storePixel_same {s : State} {p : Place} (hw : s.fb.wf = true) (on : Bool) (hr : p.r < 8)
    (hb : p.b < 8) : (s.storePixel p on).fbBit p = on :=
  (State.fbBit_storePixel hw on hr hb hr hb).trans (if_pos rfl)

/-- R168 (a): CLRD sets every byte, whatever a CLRD before it left. -/
theorem clearDisplay_twice {s : State} (hc : s.st ≠ .configError) (hw : s.fb.wf = true) :
    ∃ t u, exec (.clearDisplay true) s = .next t ∧ exec (.clearDisplay false) t = .next u ∧
      ∀ m r : Nat, m < s.cfg.n → r < 8 → t.fbByte m r = 0xFF#8 ∧ u.fbByte m r = 0x00#8 := by
  have hset : ∀ m r, m < s.cfg.n → r < 8 → ((s.fillDisplay 0xFF#8).respond .ok).fbByte m r = 0xFF#8 :=
    fun m r => State.fbByte_fillDisplay hw _
  have hw' : ((s.fillDisplay 0xFF#8).respond .ok).fb.wf = true := State.wf_fillDisplay hw _
  have hsecond := exec_clearDisplay (s := (s.fillDisplay 0xFF#8).respond .ok) hc false
  exact ⟨_, _, exec_clearDisplay hc true, hsecond, fun m r hm hr =>
    ⟨hset m r hm hr, State.fbByte_fillDisplay hw' 0x00#8 hm hr⟩⟩

/-- R168 (b): a pixel switched on and inverted is off. -/
theorem setPixel_invertPixel_getPixel {s : State} {x y : Int} {p : Place} (hc : s.st ≠ .configError)
    (hw : s.fb.wf = true) (hin : s.cfg.hasPixel x y = true) (hp : s.cfg.pixelToPhysical x.toNat y.toNat = some p) :
    ∃ t u v, exec (.setPixel x y true) s = .next t ∧ exec (.invertPixel x y) t = .next u ∧
      exec (.getPixel x y) u = .next v ∧ v.responses = u.responses ++ [.val false] := by
  obtain ⟨-, hr, hb⟩ := Cfg.pixelToPhysical_bounds hp
  have hon : ((s.storePixel p true).respond .ok).fbBit p = true := State.fbBit_storePixel_same hw true hr hb
  have hw' : ((s.storePixel p true).respond .ok).fb.wf = true := State.wf_storePixel hw p true
  refine ⟨_, _, _, exec_setPixel hc hin hp true, exec_invertPixel hc hin hp, exec_getPixel hc hin hp, ?_⟩
  have hoff := State.fbBit_storePixel_same hw' (!((s.storePixel p true).respond .ok).fbBit p) hr hb
  rw [hon] at hoff ⊢
  exact congrArg (fun bit => _ ++ [Response.val bit]) hoff

/-- R168 (c): SETPX and INVPX leave the bit of every other place. -/
theorem getPixel_after_other_store {s : State} {x y x' y' : Int} {p q : Place} {on : Bool} {i : Instr}
    (hc : s.st ≠ .configError) (hw : s.fb.wf = true) (hin : s.cfg.hasPixel x y = true)
    (hin' : s.cfg.hasPixel x' y' = true) (hp : s.cfg.pixelToPhysical x.toNat y.toNat = some p)
    (hq : s.cfg.pixelToPhysical x'.toNat y'.toNat = some q) (hne : q ≠ p)
    (hi : i = .setPixel x y on ∨ i = .invertPixel x y) :
    ∃ t u v bit, exec i s = .next t ∧ exec (.getPixel x' y') s = .next u ∧ exec (.getPixel x' y') t = .next v ∧
      u.responses = s.responses ++ [.val bit] ∧ v.responses = t.responses ++ [.val bit] := by
  obtain ⟨-, hr, hb⟩ := Cfg.pixelToPhysical_bounds hp
  obtain ⟨-, hqr, hqb⟩ := Cfg.pixelToPhysical_bounds hq
  obtain ⟨stored, hexec⟩ : ∃ stored, exec i s = .next ((s.storePixel p stored).respond .ok) := by
    rcases hi with rfl | rfl
    · exact ⟨_, exec_setPixel hc hin hp on⟩
    · exact ⟨_, exec_invertPixel hc hin hp⟩
  have hbit : ((s.storePixel p stored).respond .ok).fbBit q = s.fbBit q :=
    (State.fbBit_storePixel hw stored hr hb hqr hqb).trans (if_neg hne)
  refine ⟨_, _, _, s.fbBit q, hexec, exec_getPixel hc hin' hq, exec_getPixel hc hin' hq, rfl, ?_⟩
  rw [hbit]
  rfl

/-- R168 (d): the bit of a module's cell is that of the block stored, whatever the rotation. -/
theorem getPixel_after_setModuleRows {s : State} {l m i j : Nat} {rot : Bool} {rows : List Byte}
    (hc : s.st ≠ .configError) (hw : s.fb.wf = true) (hl : l < s.cfg.n) (hm : s.cfg.moduleToChain l = some m)
    (hrot : s.cfg.rotatedAt l = some rot) (hi : i < 8) (hj : j < 8) (hlen : rows.length = 8) :
    ∃ t u, exec (.setModuleRows (l : Int) rows) s = .next t ∧
      exec (.getPixel ((8 * (l % s.cfg.c) + i : Nat) : Int) ((8 * (l / s.cfg.c) + j : Nat) : Int)) t = .next u ∧
      u.responses = t.responses ++ [.val ((rows.getD j 0).getLsbD i)] := by
  have hset := exec_setModuleRows hc ((Cfg.hasModule_iff s.cfg l).mpr (by omega)) hm hrot hlen
  obtain ⟨hx, hy⟩ := Cfg.cell_inside hl hi hj
  have hin : s.cfg.hasPixel ((8 * (l % s.cfg.c) + i : Nat) : Int) ((8 * (l / s.cfg.c) + j : Nat) : Int) = true := by
    rw [Cfg.hasPixel_iff, Cfg.w, Cfg.h]
    omega
  have hmodule := s.cfg.logicalModule_cell l hi hj
  have hplace := Cfg.pixelToPhysical_of_tables (cfg := s.cfg) (hmodule.symm ▸ hm) (hmodule.symm ▸ hrot)
  rw [Nat.mul_add_mod, Nat.mul_add_mod, Nat.mod_eq_of_lt hi, Nat.mod_eq_of_lt hj] at hplace
  refine ⟨_, _, hset, exec_getPixel hc hin hplace, ?_⟩
  have hbyte : ((s.storeBlock m (storedBlock rot rows)).respond .ok).fbByte m (mirror rot j) =
      blockByte rows rot (mirror rot j) :=
    (State.fbByte_storeBlock_storedBlock hw hlen m m rot (mirror_lt rot hj)).trans (if_pos rfl)
  rw [State.respond_responses, State.fbBit, hbyte, getLsbD_blockByte_mirror rows rot hi hj]

/-- Settles O32: each clause runs its commands and reads the last bit or byte through the stores before it. -/
theorem sourcePropertiesOfTheFramebufferCommands : Obligations.SourcePropertiesOfTheFramebufferCommands := by
  intro s hinv hc
  have hvalid := hinv.cfgValid hc
  have hw := hinv.fbCanonical
  refine ⟨clearDisplay_twice hc hw, fun x y hin => ?_, fun x y x' y' on i hin hin' hne hi => ?_,
    fun l i j rows hl hi hj hlen => ?_⟩
  · obtain ⟨p, hp⟩ := Cfg.exists_place hvalid hin
    exact setPixel_invertPixel_getPixel hc hw hin hp
  · obtain ⟨p, hp⟩ := Cfg.exists_place hvalid hin
    obtain ⟨q, hq⟩ := Cfg.exists_place hvalid hin'
    exact getPixel_after_other_store hc hw hin hin' hp hq (Cfg.place_ne hvalid hin hin' hne hp hq) hi
  · obtain ⟨m, rot, hm, hrot⟩ := Cfg.exists_module hvalid hl
    exact getPixel_after_setModuleRows hc hw hl hm hrot hi hj hlen

end Sys2Proof.Machine

/-! What the commands leave alone, in either bus state (rule R160). -/

namespace Sys2Proof.Machine

/-- The seven framebuffer commands (rule R160). -/
def Instr.accessesFramebuffer : Instr → Bool
  | .setPixel _ _ _ | .invertPixel _ _ | .getPixel _ _ | .clearDisplay _ | .clearModule _ _ | .setModuleRows _ _
  | .setDisplayRows _ => true
  | _ => false

theorem Instr.isCommand_of_accessesFramebuffer {i : Instr} (hi : Instr.accessesFramebuffer i = true) :
    isCommand i = true := by
  cases i with
  | setPixel | invertPixel | getPixel | clearDisplay | clearModule | setModuleRows | setDisplayRows => rfl
  | _ => cases hi

/-- A framebuffer command is rejected, or stores and answers OK, or answers a bit. -/
theorem Effect.of_accessesFramebuffer {s t : State} {i : Instr} (h : Effect s i t)
    (hi : Instr.accessesFramebuffer i = true) :
    (∃ c, t = s.raise c) ∨ (∃ fb, t = (s.withFb fb).respond .ok) ∨ ∃ bit, t = s.respond (.val bit) := by
  cases h with
  | raised _ c => exact .inl ⟨c, rfl⟩
  | stored _ fb => exact .inr (.inl ⟨fb, rfl⟩)
  | viewed _ _ bit => exact .inr (.inr ⟨bit, rfl⟩)
  | opened | sentWord | sentRow | closed | flushed => cases hi
  | committed hwire =>
    rw [Instr.isCommand_of_accessesFramebuffer hi] at hwire
    cases hwire

/-- Outside `ConfigError` only a command that exists answers a next state (rule R116). -/
theorem wellBuilt_of_exec_next {i : Instr} {s t : State} (hc : s.st ≠ .configError) (h : exec i s = .next t) :
    i.wellBuilt s.cfg.n = true := by
  by_contra hbuilt
  rw [exec_of_not_wellBuilt (Bool.eq_false_of_not_eq_true hbuilt) hc] at h
  cases h

theorem execSetDisplayRows_next {s t : State} {rows : List Byte} (h : execSetDisplayRows rows s = .next t) :
    (s.st = .configError ∧ t = s.raise .configInvalid) ∨
      (s.st ≠ .configError ∧ rows.length = 8 * s.cfg.n ∧
        ∃ u, s.storeModules rows s.cfg.n = some u ∧ t = u.respond .ok) := by
  rcases State.whenConfigured_next h with hdead | ⟨hc, h⟩
  · exact .inl hdead
  · split at h
    · split at h
      · cases h
        exact .inr ⟨hc, ‹_›, _, ‹_›, rfl⟩
      · cases h
    · cases h

theorem State.storeModules_withSt {s t : State} {rows : List Byte} {n : Nat} (st : BusState)
    (h : s.storeModules rows n = some t) : (s.withSt st).storeModules rows n = some (t.withSt st) := by
  induction n generalizing t with
  | zero =>
    cases h
    rfl
  | succ l ih =>
    obtain ⟨u, m, rot, hu, hm, hrot, rfl⟩ := State.storeModules_succ_eq_some.mp h
    exact State.storeModules_succ_eq_some.mpr ⟨u.withSt st, m, rot, ih hu, hm, hrot, rfl⟩

section BusState

variable {s t : State} {st : BusState} (hc : s.st ≠ .configError) (hst : st ≠ .configError)
include hc hst

theorem State.whenPixel_withSt {x y : Int} {body body' : Place → Result}
    (hbody : ∀ p, body p = .next t → body' p = .next (t.withSt st)) (h : s.whenPixel x y body = .next t) :
    (s.withSt st).whenPixel x y body' = .next (t.withSt st) := by
  rcases State.whenPixel_next h with ⟨hdead, -⟩ | ⟨-, hout, rfl⟩ | ⟨-, hin, p, hp, h⟩
  · exact absurd hdead hc
  · exact State.whenPixel_outside (s := s.withSt st) hst hout body'
  · exact (State.whenPixel_inside (s := s.withSt st) hst hin hp body').trans (hbody p h)

theorem State.whenModule_withSt {l : Int} {body body' : Nat → Bool → Result}
    (hbody : ∀ m rot, body m rot = .next t → body' m rot = .next (t.withSt st))
    (h : s.whenModule l body = .next t) : (s.withSt st).whenModule l body' = .next (t.withSt st) := by
  rcases State.whenModule_next h with ⟨hdead, -⟩ | ⟨-, hout, rfl⟩ | ⟨-, hin, m, rot, hm, hrot, h⟩
  · exact absurd hdead hc
  · exact State.whenModule_outside (s := s.withSt st) hst hout body'
  · exact (State.whenModule_inside (s := s.withSt st) hst hin hm hrot body').trans (hbody m rot h)

theorem exec_setModuleRows_withSt {l : Int} {rows : List Byte} (h : exec (.setModuleRows l rows) s = .next t) :
    exec (.setModuleRows l rows) (s.withSt st) = .next (t.withSt st) := by
  have hlen : rows.length = 8 := eq_of_beq (wellBuilt_of_exec_next hc h)
  refine (execSetModuleRows_of_length hlen l (s.withSt st)).trans ?_
  refine State.whenModule_withSt hc hst (fun m rot h => ?_) ((execSetModuleRows_of_length hlen l s).symm.trans h)
  cases h
  rfl

theorem exec_setDisplayRows_withSt {rows : List Byte} (h : exec (.setDisplayRows rows) s = .next t) :
    exec (.setDisplayRows rows) (s.withSt st) = .next (t.withSt st) := by
  rcases execSetDisplayRows_next h with ⟨hdead, -⟩ | ⟨-, hlen, u, hu, rfl⟩
  · exact absurd hdead hc
  · refine (State.whenConfigured_of_ne (s := s.withSt st) hst _).trans ((if_pos hlen).trans ?_)
    rw [State.withSt_cfg, State.storeModules_withSt st hu]
    rfl

/-- A framebuffer command does the same in every live bus state (rule R160). -/
theorem exec_withSt {i : Instr} (hi : Instr.accessesFramebuffer i = true) (h : exec i s = .next t) :
    exec i (s.withSt st) = .next (t.withSt st) := by
  cases i with
  | setPixel x y on | invertPixel x y | getPixel x y =>
    exact State.whenPixel_withSt hc hst (fun p h => by cases h; rfl) h
  | clearDisplay state =>
    cases (exec_clearDisplay hc state).symm.trans h
    exact exec_clearDisplay (s := s.withSt st) hst state
  | clearModule l state => exact State.whenModule_withSt hc hst (fun m rot h => by cases h; rfl) h
  | setModuleRows l rows => exact exec_setModuleRows_withSt hc hst h
  | setDisplayRows rows => exact exec_setDisplayRows_withSt hc hst h
  | _ => cases hi

end BusState

/-- Settles O33: a framebuffer command changes FAULT, the framebuffer and the responses at most, and only an OK comes
with a store. -/
theorem framebufferCommandsTouchNoLine : Obligations.FramebufferCommandsTouchNoLine := by
  intro i s t x y on rows hi h
  have hfb : Instr.accessesFramebuffer i = true := by
    rcases hi with rfl | rfl | rfl | rfl | rfl | rfl | rfl <;> rfl
  have hsame : ∀ st, s.st ≠ .configError → st ≠ .configError → exec i (s.withSt st) = .next (t.withSt st) :=
    fun st hc hst => exec_withSt hc hst hfb h
  rcases (exec_next h).of_accessesFramebuffer hfb with ⟨c, rfl⟩ | ⟨fb, rfl⟩ | ⟨bit, rfl⟩
  · exact ⟨rfl, rfl, rfl, rfl, rfl, rfl, hsame, fun _ _ => rfl⟩
  · exact ⟨rfl, rfl, rfl, rfl, rfl, rfl, hsame, fun c hresp => by simp at hresp⟩
  · exact ⟨rfl, rfl, rfl, rfl, rfl, rfl, hsame, fun _ _ => rfl⟩

end Sys2Proof.Machine

/-! Stores issued twice (rule R59): with the configuration and the bus state given, a command maps the framebuffer by
one function, which writes some bits and keeps the others; complementing one bit twice restores it. -/

namespace Sys2Proof.Machine

/-- Writing one bit of a cell leaves every other bit of the framebuffer (rule R11). -/
theorem Memory.getLsbD_read_write_setbit {fb : Memory} (hw : fb.wf = true) {a b : Nat} (hb : b < 8) (v : Bool)
    (a' : Nat) {i : Nat} (hi : i < 8) :
    ((fb.write a (setbit (fb.read a) b v)).read a').getLsbD i =
      if a' = a ∧ i = b then v else (fb.read a').getLsbD i := by
  by_cases ha : a' = a
  · subst ha
    simp only [Memory.read_write_same hw, getLsbD_setbit _ _ hb hi, true_and]
  · rw [Memory.read_write_other _ _ ha, if_neg fun h => ha h.1]

/-- Canonical memories with the same bits are the same. -/
theorem Memory.eq_of_getLsbD_read_eq {fb fb' : Memory} (hw : fb.wf = true) (hw' : fb'.wf = true)
    (h : ∀ a i, i < 8 → (fb.read a).getLsbD i = (fb'.read a).getLsbD i) : fb = fb' :=
  Memory.eq_of_read_eq hw hw' fun a => BitVec.eq_of_getLsbD_eq (h a)

/-- Each bit of the framebuffer is either written, with a value that does not depend on the framebuffer, or kept. -/
structure Overwrites (f : Memory → Memory) : Prop where
  wf : ∀ {fb : Memory}, fb.wf = true → (f fb).wf = true
  bit : ∀ a i, i < 8 → (∃ v, ∀ fb : Memory, fb.wf = true → ((f fb).read a).getLsbD i = v) ∨
    ∀ fb : Memory, fb.wf = true → ((f fb).read a).getLsbD i = (fb.read a).getLsbD i

theorem Overwrites.id : Overwrites id where
  wf hw := hw
  bit _ _ _ := .inr fun _ _ => rfl

theorem Overwrites.comp {f g : Memory → Memory} (hg : Overwrites g) (hf : Overwrites f) : Overwrites (g ∘ f) where
  wf hw := hg.wf (hf.wf hw)
  bit a i hi := by
    rcases hg.bit a i hi with ⟨v, hv⟩ | hkept
    · exact .inl ⟨v, fun fb hw => hv _ (hf.wf hw)⟩
    · rcases hf.bit a i hi with ⟨v, hv⟩ | hkept'
      · exact .inl ⟨v, fun fb hw => (hkept _ (hf.wf hw)).trans (hv fb hw)⟩
      · exact .inr fun fb hw => (hkept _ (hf.wf hw)).trans (hkept' fb hw)

/-- What is written the second time stands there already. -/
theorem Overwrites.idempotent {f : Memory → Memory} (hf : Overwrites f) {fb : Memory} (hw : fb.wf = true) :
    f (f fb) = f fb := by
  refine Memory.eq_of_getLsbD_read_eq (hf.wf (hf.wf hw)) (hf.wf hw) fun a i hi => ?_
  rcases hf.bit a i hi with ⟨v, hv⟩ | hkept
  · rw [hv _ (hf.wf hw), hv _ hw]
  · exact hkept _ (hf.wf hw)

theorem Overwrites.write (a : Nat) (v : Byte) : Overwrites (Memory.write · a v) where
  wf hw := Memory.wf_write hw a v
  bit a' i _ := by
    by_cases ha : a' = a
    · subst ha
      exact .inl ⟨v.getLsbD i, fun fb hw => by rw [Memory.read_write_same hw]⟩
    · exact .inr fun fb _ => by rw [Memory.read_write_other _ _ ha]

theorem Overwrites.writeBytes (a : Nat) (bytes : List Byte) : Overwrites (Memory.writeBytes · a bytes) := by
  induction bytes generalizing a with
  | nil => exact .id
  | cons v rest ih => exact (ih (a + 1)).comp (.write a v)

theorem Overwrites.storeBit (a : Nat) {b : Nat} (hb : b < 8) (v : Bool) :
    Overwrites fun fb => fb.write a (setbit (fb.read a) b v) where
  wf hw := Memory.wf_write hw _ _
  bit a' i hi := by
    by_cases h : a' = a ∧ i = b
    · exact .inl ⟨v, fun fb hw => by rw [Memory.getLsbD_read_write_setbit hw hb v a' hi, if_pos h]⟩
    · exact .inr fun fb hw => by rw [Memory.getLsbD_read_write_setbit hw hb v a' hi, if_neg h]

/-- The framebuffer with one bit complemented (rule R162). -/
def Memory.flipBit (a b : Nat) (fb : Memory) : Memory :=
  fb.write a (setbit (fb.read a) b (!(fb.read a).getLsbD b))

theorem Memory.getLsbD_read_flipBit {fb : Memory} (hw : fb.wf = true) (a : Nat) {b : Nat} (hb : b < 8) (a' : Nat)
    {i : Nat} (hi : i < 8) :
    ((Memory.flipBit a b fb).read a').getLsbD i =
      if a' = a ∧ i = b then !(fb.read a').getLsbD i else (fb.read a').getLsbD i := by
  rw [Memory.flipBit, Memory.getLsbD_read_write_setbit hw hb _ a' hi]
  refine if_ctx_congr Iff.rfl (fun h => ?_) fun _ => rfl
  rw [h.1, h.2]

theorem Memory.flipBit_flipBit {fb : Memory} (hw : fb.wf = true) (a : Nat) {b : Nat} (hb : b < 8) :
    Memory.flipBit a b (Memory.flipBit a b fb) = fb := by
  have hw' : (Memory.flipBit a b fb).wf = true := Memory.wf_write hw _ _
  refine Memory.eq_of_getLsbD_read_eq (Memory.wf_write hw' _ _) hw fun a' i hi => ?_
  rw [Memory.getLsbD_read_flipBit hw' a hb a' hi, Memory.getLsbD_read_flipBit hw a hb a' hi]
  split
  · exact Bool.not_not _
  · rfl

/-- Whatever else the state holds, with this configuration and bus state `run` maps the framebuffer by one function with
the property `P`. -/
def ActsBy (P : (Memory → Memory) → Prop) (cfg : Cfg) (st : BusState) (run : State → Result) : Prop :=
  ∃ f, P f ∧ ∀ s t : State, s.cfg = cfg → s.st = st → run s = .next t → t.fb = f s.fb

section ActsBy

variable {P : (Memory → Memory) → Prop} {cfg : Cfg} {st : BusState}

theorem ActsBy.of_next {f : Memory → Memory} (hf : P f) {g : State → State}
    (hg : ∀ s, s.cfg = cfg → (g s).fb = f s.fb) : ActsBy P cfg st fun s => .next (g s) := by
  refine ⟨f, hf, fun s t hcfg _ h => ?_⟩
  cases h
  exact hg s hcfg

variable (hid : P id)
include hid

theorem ActsBy.whenConfigured {body : State → Result} (hbody : ActsBy P cfg st body) :
    ActsBy P cfg st fun s => s.whenConfigured (body s) := by
  by_cases hst : st = .configError
  · refine ⟨id, hid, fun s t _ hs h => ?_⟩
    rcases State.whenConfigured_next h with ⟨-, rfl⟩ | ⟨hc, -⟩
    · rfl
    · exact absurd (hs.trans hst) hc
  · obtain ⟨f, hf, hnext⟩ := hbody
    refine ⟨f, hf, fun s t hcfg hs h => ?_⟩
    rcases State.whenConfigured_next h with ⟨hdead, -⟩ | ⟨-, h⟩
    · exact absurd (hs.symm.trans hdead) hst
    · exact hnext s t hcfg hs h

theorem ActsBy.whenPixel {x y : Int} {body : Place → State → Result}
    (hbody : ∀ p, p.b < 8 → ActsBy P cfg st (body p)) :
    ActsBy P cfg st fun s => s.whenPixel x y (body · s) := by
  by_cases hrun : st ≠ .configError ∧ cfg.hasPixel x y = true ∧ ∃ p, cfg.pixelToPhysical x.toNat y.toNat = some p
  · obtain ⟨hst, hin, p, hp⟩ := hrun
    obtain ⟨-, -, hb⟩ := Cfg.pixelToPhysical_bounds hp
    obtain ⟨f, hf, hnext⟩ := hbody p hb
    refine ⟨f, hf, ?_⟩
    rintro s t rfl rfl h
    exact hnext s t rfl rfl ((State.whenPixel_inside hst hin hp (body · s)).symm.trans h)
  · refine ⟨id, hid, ?_⟩
    rintro s t rfl rfl h
    rcases State.whenPixel_next h with ⟨-, rfl⟩ | ⟨-, -, rfl⟩ | ⟨hc, hin, p, hp, -⟩
    · rfl
    · rfl
    · exact absurd ⟨hc, hin, p, hp⟩ hrun

theorem ActsBy.whenModule {l : Int} {body : Nat → Bool → State → Result}
    (hbody : ∀ m rot, ActsBy P cfg st (body m rot)) :
    ActsBy P cfg st fun s => s.whenModule l (body · · s) := by
  by_cases hrun : st ≠ .configError ∧ cfg.hasModule l = true ∧
      ∃ m rot, cfg.moduleToChain l.toNat = some m ∧ cfg.rotatedAt l.toNat = some rot
  · obtain ⟨hst, hin, m, rot, hm, hrot⟩ := hrun
    obtain ⟨f, hf, hnext⟩ := hbody m rot
    refine ⟨f, hf, ?_⟩
    rintro s t rfl rfl h
    exact hnext s t rfl rfl ((State.whenModule_inside hst hin hm hrot (body · · s)).symm.trans h)
  · refine ⟨id, hid, ?_⟩
    rintro s t rfl rfl h
    rcases State.whenModule_next h with ⟨-, rfl⟩ | ⟨-, -, rfl⟩ | ⟨hc, hin, m, rot, hm, hrot, -⟩
    · rfl
    · rfl
    · exact absurd ⟨hc, hin, m, rot, hm, hrot⟩ hrun

end ActsBy

/-- A framebuffer command issued twice applies its function twice: the first run changes neither `CFG` nor `ST`. -/
theorem ActsBy.exec_twice {P : (Memory → Memory) → Prop} {i : Instr} {s t u : State}
    (hact : ActsBy P s.cfg s.st (exec i)) (hi : Instr.accessesFramebuffer i = true) (h : exec i s = .next t)
    (h' : exec i t = .next u) : ∃ f, P f ∧ t.fb = f s.fb ∧ u.fb = f (f s.fb) := by
  have hst : t.st = s.st := by
    rcases (exec_next h).of_accessesFramebuffer hi with ⟨c, rfl⟩ | ⟨fb, rfl⟩ | ⟨bit, rfl⟩ <;> rfl
  obtain ⟨f, hf, hnext⟩ := hact
  have hfirst := hnext s t rfl rfl h
  exact ⟨f, hf, hfirst, hfirst ▸ hnext t u (exec_next h).cfg_eq hst h'⟩

/-- The stores of SETDR, for any table `chain_order`: a block may be written more than once (rule R167). -/
theorem overwrites_storeModules (cfg : Cfg) (rows : List Byte) (n : Nat) :
    ∃ f, Overwrites f ∧ ∀ s t : State, s.cfg = cfg → s.storeModules rows n = some t → t.fb = f s.fb := by
  induction n with
  | zero =>
    refine ⟨id, .id, fun s t _ h => ?_⟩
    cases h
    rfl
  | succ l ih =>
    obtain ⟨f, hf, hstores⟩ := ih
    by_cases htables : ∃ m rot, cfg.moduleToChain l = some m ∧ cfg.rotatedAt l = some rot
    · obtain ⟨m, rot, hm, hrot⟩ := htables
      refine ⟨_, (Overwrites.writeBytes (fbAddr m 0) (storedBlock rot (tileRows rows l))).comp hf,
        fun s t hcfg h => ?_⟩
      subst hcfg
      obtain ⟨u, m', rot', hu, hm', hrot', rfl⟩ := State.storeModules_succ_eq_some.mp h
      cases hm.symm.trans hm'
      cases hrot.symm.trans hrot'
      rw [State.storeBlock_fb, hstores s u rfl hu]
      rfl
    · refine ⟨id, .id, fun s t hcfg h => ?_⟩
      subst hcfg
      obtain ⟨u, m, rot, -, hm, hrot, -⟩ := State.storeModules_succ_eq_some.mp h
      exact absurd ⟨m, rot, hm, hrot⟩ htables

section Stores

variable (cfg : Cfg) (st : BusState)

theorem setPixel_overwrites (x y : Int) (on : Bool) : ActsBy Overwrites cfg st (exec (.setPixel x y on)) :=
  .whenPixel .id fun p hb => .of_next (.storeBit (fbAddr p.m p.r) hb on) fun _ _ => rfl

theorem clearDisplay_overwrites (state : Bool) : ActsBy Overwrites cfg st (exec (.clearDisplay state)) := by
  refine .whenConfigured .id (.of_next (.writeBytes 0 (List.replicate (8 * cfg.n) (uniformByte state))) ?_)
  rintro s rfl
  rfl

theorem clearModule_overwrites (l : Int) (state : Bool) : ActsBy Overwrites cfg st (exec (.clearModule l state)) :=
  .whenModule .id fun m _ => .of_next (.writeBytes (fbAddr m 0) _) fun _ _ => rfl

theorem setModuleRows_overwrites (l : Int) (rows : List Byte) :
    ActsBy Overwrites cfg st (exec (.setModuleRows l rows)) := by
  by_cases hlen : rows.length = 8
  · rw [show exec (.setModuleRows l rows) = _ from funext (execSetModuleRows_of_length hlen l)]
    exact .whenModule .id fun m rot => .of_next (.writeBytes (fbAddr m 0) (storedBlock rot rows)) fun _ _ => rfl
  · refine ⟨id, .id, fun s t _ _ h => ?_⟩
    rcases State.whenConfigured_next h with ⟨-, rfl⟩ | ⟨hc, -⟩
    · rfl
    · exact absurd (eq_of_beq (wellBuilt_of_exec_next hc h)) hlen

theorem setDisplayRows_overwrites (rows : List Byte) : ActsBy Overwrites cfg st (exec (.setDisplayRows rows)) := by
  by_cases hst : st = .configError
  · refine ⟨id, .id, fun s t _ hs h => ?_⟩
    rcases execSetDisplayRows_next h with ⟨-, rfl⟩ | ⟨hc, -⟩
    · rfl
    · exact absurd (hs.trans hst) hc
  · obtain ⟨f, hf, hstores⟩ := overwrites_storeModules cfg rows cfg.n
    refine ⟨f, hf, fun s t hcfg hs h => ?_⟩
    rcases execSetDisplayRows_next h with ⟨hdead, -⟩ | ⟨-, -, u, hu, rfl⟩
    · exact absurd (hs.symm.trans hdead) hst
    · exact hstores s u hcfg (hcfg ▸ hu)

end Stores

/-- Twice the function restores every canonical framebuffer. -/
def RestoresTwice (f : Memory → Memory) : Prop := ∀ fb : Memory, fb.wf = true → f (f fb) = fb

theorem invertPixel_restoresTwice (cfg : Cfg) (st : BusState) (x y : Int) :
    ActsBy RestoresTwice cfg st (exec (.invertPixel x y)) :=
  .whenPixel (fun _ _ => rfl) fun p hb =>
    .of_next (f := Memory.flipBit (fbAddr p.m p.r) p.b) (fun _ hw => Memory.flipBit_flipBit hw _ hb) fun _ _ => rfl

/-- Settles O35: the five stores overwrite, and INVPX complements one bit. -/
theorem storesAreIdempotentAndInversionAnInvolution : Obligations.StoresAreIdempotentAndInversionAnInvolution := by
  intro s t u i hw h h'
  constructor
  · intro hi
    obtain ⟨hfb, hact⟩ : Instr.accessesFramebuffer i = true ∧ ActsBy Overwrites s.cfg s.st (exec i) := by
      rcases hi with ⟨x, y, on, rfl⟩ | ⟨on, rfl⟩ | ⟨l, on, rfl⟩ | ⟨l, rows, rfl⟩ | ⟨rows, rfl⟩
      · exact ⟨rfl, setPixel_overwrites _ _ x y on⟩
      · exact ⟨rfl, clearDisplay_overwrites _ _ on⟩
      · exact ⟨rfl, clearModule_overwrites _ _ l on⟩
      · exact ⟨rfl, setModuleRows_overwrites _ _ l rows⟩
      · exact ⟨rfl, setDisplayRows_overwrites _ _ rows⟩
    obtain ⟨f, hf, hfirst, hsecond⟩ := hact.exec_twice hfb h h'
    rw [hsecond, hfirst, hf.idempotent hw]
  · rintro x y rfl
    obtain ⟨f, hf, -, hsecond⟩ := (invertPixel_restoresTwice _ _ x y).exec_twice rfl h h'
    rw [hsecond, hf s.fb hw]

end Sys2Proof.Machine

/-! The pseudo-commands: the brackets of BCAST and TARGET, in which each device commits the word sent for it (rules
R192, R193), the startup sequence as five broadcasts one after another (rule R194), and the points of a line
(rule R198). -/

namespace Sys2Proof.Machine

/-! A bracket of SENDW and SENDR that carries one word for each device. -/

/-- What a sequence of sends leaves of the core, writes to the trace and keeps of the devices (rules R63, R136). -/
structure SendsFrame (s t : State) (words : List WireWord) : Prop where
  cfg : t.cfg = s.cfg
  fb : t.fb = s.fb
  fault : t.fault = s.fault
  trace : t.trace = s.trace ++ words.flatMap wordEvents
  devices : ∀ v, t.chain.map (Device.withWord v) = s.chain.map (Device.withWord v)

theorem SendsFrame.shiftWord (s : State) (addr : BitVec 4) (v : Byte) :
    SendsFrame s ((s.shiftWord addr v).respond .ok) [wireCode 0 addr v] where
  cfg := (SameCore.shiftWord s addr v).cfg
  fb := (SameCore.shiftWord s addr v).fb
  fault := (SameCore.shiftWord s addr v).fault
  trace := by rw [State.respond_trace, State.shiftWord_eq, List.flatMap_singleton]
  devices w := by rw [State.respond_chain, State.shiftWord_chain, map_withWord_pushWord]

theorem SendsFrame.trans {s t u : State} {words more : List WireWord} (h : SendsFrame s t words)
    (h' : SendsFrame t u more) : SendsFrame s u (words ++ more) where
  cfg := h'.cfg.trans h.cfg
  fb := h'.fb.trans h.fb
  fault := h'.fault.trans h.fault
  trace := by rw [h'.trace, h.trace, List.append_assoc, List.flatMap_append]
  devices v := (h'.devices v).trans (h.devices v)

theorem SendsFrame.of_runCommands {sends : List Instr} {words : List WireWord} {s t : State}
    (hwords : sends.map sentWord = words.map some) (hst : s.st = .transferring)
    (hrun : runCommands sends s = .next t) : SendsFrame s t words := by
  induction sends generalizing s words with
  | nil =>
    obtain rfl : words = [] := by simpa using hwords.symm
    cases hrun
    exact ⟨rfl, rfl, rfl, (List.append_nil _).symm, fun _ => rfl⟩
  | cons i rest ih =>
    cases words with
    | nil => cases hwords
    | cons w words =>
      obtain ⟨hi, hrest⟩ := List.cons.inj hwords
      obtain ⟨addr, v, rfl, hexec⟩ := exec_of_sentWord hst hi
      rw [runCommands_cons hexec] at hrun
      exact (SendsFrame.shiftWord s addr v).trans (ih hrest ((WordsSent.shiftWord s addr v).st.trans hst) hrun)

/-- One bracket with a send for each chain index, `n - 1` first (rules R192, R193). -/
def bracketCommands (n : Nat) (send : Nat → Instr) : List Instr :=
  .beginTransfer :: ((List.range n).reverse.map send ++ [.endTransfer])

/-- From `s` to `t` one whole bracket was made that carries the word `word k` for each device `k`. -/
structure BracketMade (s t : State) (word : Nat → WireWord) : Prop where
  st : t.st = .idle
  cfg : t.cfg = s.cfg
  fb : t.fb = s.fb
  fault : t.fault = s.fault
  trace : t.trace = s.trace ++ bracketEvents ((List.range s.cfg.n).reverse.map word)
  length : t.chain.length = s.chain.length
  devices : ∀ k, t.chain[k]? = (s.chain[k]?).map (Device.commitWord (word k))

/-- With `N` devices and `N` words, sent for chain index `N - 1` first, each device ends up holding its own word and is
otherwise as before (rule R69). -/
theorem chain_getElem?_of_sent {s t : State} {n : Nat} {word : Nat → WireWord} (hlen : s.chain.length = n)
    (hsent : WordsSent s t ((List.range n).reverse.map word))
    (hdevices : ∀ v, t.chain.map (Device.withWord v) = s.chain.map (Device.withWord v)) (k : Nat) :
    t.chain[k]? = (s.chain[k]?).map (Device.withWord (word k)) := by
  by_cases hk : k < n
  · have hsr : t.sr? k = some (word k) := by
      have hlast : n - 1 - (n - 1 - k) = k := by omega
      rw [(hsent.sr?_eq (hk.trans_eq hlen.symm)).1 (by simpa using hk)]
      simp [hlast]
    obtain ⟨d, hd, hword⟩ := State.exists_of_sr? hsr
    rw [← List.getElem?_map, ← hdevices, List.getElem?_map, hd, ← hword]
    rfl
  · have hle : s.chain.length ≤ k := by omega
    rw [List.getElem?_eq_none hle, List.getElem?_eq_none (hsent.length_chain.trans_le hle), Option.map_none]

theorem runCommands_bracketCommands {s : State} {send : Nat → Instr} {word : Nat → WireWord} (hst : s.st = .idle)
    (hlen : s.chain.length = s.cfg.n) (hsend : ∀ m, sentWord (send m) = some (word m)) :
    ∃ t, runCommands (bracketCommands s.cfg.n send) s = .next t ∧ BracketMade s t word := by
  have hbegin := exec_beginTransfer hst
  obtain ⟨words, t, hwords, hrun, hsent⟩ := runCommands_sends (s := s.openBracket.respond .ok)
    (sends := (List.range s.cfg.n).reverse.map send) rfl (by simp [hsend])
  obtain rfl : (List.range s.cfg.n).reverse.map word = words := by
    refine (Option.some_injective _).list_map ?_
    rw [← hwords, List.map_map, List.map_map]
    exact List.map_congr_left fun m _ => (hsend m).symm
  have hframe := SendsFrame.of_runCommands hwords rfl hrun
  have hend : exec .endTransfer t = .next (t.closeBracket.respond .ok) := exec_endTransfer hsent.st
  refine ⟨t.closeBracket.respond .ok, ?_, ?_⟩
  · rw [bracketCommands, runCommands_cons hbegin, runCommands_append hrun, runCommands_cons hend, runCommands]
  · exact
      { st := rfl
        cfg := hframe.cfg
        fb := hframe.fb
        fault := hframe.fault
        trace := by
          rw [State.respond_trace, State.closeBracket_eq]
          dsimp only
          rw [hframe.trace, State.respond_trace, State.openBracket_eq, bracketEvents, List.append_assoc,
            List.append_assoc, List.singleton_append]
        length := (State.length_closeBracket_chain t).trans hsent.length_chain
        devices := fun k => by
          rw [State.respond_chain, State.closeBracket_chain hsent.sel, List.getElem?_map,
            chain_getElem?_of_sent (s := s.openBracket.respond .ok) hlen hsent hframe.devices, Option.map_map]
          rfl }

section BracketMade

variable {s t : State} {word : Nat → WireWord} (h : BracketMade s t word)
include h

theorem BracketMade.reg?_eq {k : Nat} (hk : k < s.chain.length) (a : Nat) :
    t.reg? k a = if a = wordAddress (word k) ∧ a ≠ 0 then some (wordData (word k)) else s.reg? k a := by
  have hd := List.getElem?_eq_getElem hk
  have hd' := h.devices k
  rw [hd, Option.map_some] at hd'
  rw [State.reg?_of_getElem? hd', State.reg?_of_getElem? hd, Device.commitWord_reg?]

theorem BracketMade.length_trace : t.trace.length = s.trace.length + (48 * s.cfg.n + 2) := by
  rw [h.trace, List.length_append, length_bracketEvents, List.length_map, List.length_reverse, List.length_range]

end BracketMade

/-! BCAST. -/

/-- The address field is the saturated address (rules R101, R115). -/
theorem wordAddress_busWord (address data : Int) : wordAddress (busWord address data) = (clamp address 0 15).toNat := by
  rw [wordAddress_eq, busWord_eq, (wireCode_fields _ _ _).2.1, toNat_busAddress]

/-- The data field is the saturated data (rules R101, R115). -/
theorem wordData_busWord (address data : Int) :
    wordData (busWord address data) = BitVec.ofNat 8 (clamp data 0 255).toNat := by
  rw [wordData_eq, busWord_eq, (wireCode_fields _ _ _).2.2, ← toNat_busData, BitVec.ofNat_toNat, BitVec.setWidth_eq]

theorem bcastCommands_eq (n : Nat) (address data : Int) :
    bcastCommands n address data = bracketCommands n fun _ => .sendWord address data := by
  rw [bcastCommands, bracketCommands, List.map_const', List.length_reverse, List.length_range]

theorem runCommands_bcastCommands {s : State} (hst : s.st = .idle) (hlen : s.chain.length = s.cfg.n)
    (address data : Int) :
    ∃ t, runCommands (bcastCommands s.cfg.n address data) s = .next t ∧
      BracketMade s t fun _ => busWord address data := by
  rw [bcastCommands_eq]
  exact runCommands_bracketCommands hst hlen fun _ => rfl

/-- Settles O56: the one word of the bracket reaches every device. -/
theorem broadcastWritesEveryDevice : Obligations.BroadcastWritesEveryDevice := by
  intro s address data hst hlen
  obtain ⟨t, hrun, hmade⟩ := runCommands_bcastCommands hst hlen address data
  refine ⟨t, hrun, hmade.st, hmade.fb, hmade.fault, hmade.length_trace, fun k a hk => ?_⟩
  rw [hmade.reg?_eq (hk.trans_eq hlen.symm), wordAddress_busWord, wordData_busWord]

/-! TARGET. -/

/-- The send of TARGET for chain index `m`: the word for the target `mt`, the no-op for any other (rule R193). -/
def targetSend (mt : Nat) (address data : Int) (m : Nat) : Instr :=
  if m = mt then .sendWord address data else .sendWord 0 0

/-- The word that send shifts. -/
def targetWord (mt : Nat) (address data : Int) (m : Nat) : WireWord :=
  if m = mt then busWord address data else busWord 0 0

theorem sentWord_targetSend (mt : Nat) (address data : Int) (m : Nat) :
    sentWord (targetSend mt address data m) = some (targetWord mt address data m) := by
  unfold targetSend targetWord
  split <;> rfl

theorem targetCommands_eq_none {cfg : Cfg} {l : Int} (hl : cfg.hasModule l = false) (address data : Int) :
    targetCommands cfg l address data = none := if_neg (by simp [hl])

theorem targetCommands_eq_some {cfg : Cfg} {l : Int} {mt : Nat} (hl : cfg.hasModule l = true)
    (hmt : cfg.chainAt l.toNat = some mt) (address data : Int) :
    targetCommands cfg l address data = some (bracketCommands cfg.n (targetSend mt address data)) := by
  rw [targetCommands, if_pos hl, Cfg.moduleToChain, hmt]
  rfl

/-- Chain index `m` is served at position `n - 1 - m` of the bracket (rule R89). -/
theorem bracketCommands_getElem? {n m : Nat} (hm : m < n) (send : Nat → Instr) :
    (bracketCommands n send)[1 + (n - 1 - m)]? = some (send m) := by
  have hlast : n - 1 - (n - 1 - m) = m := by omega
  have hpos : n - 1 - m < n := by omega
  rw [bracketCommands, Nat.add_comm, List.getElem?_cons_succ, List.getElem?_append_left (by simpa using hpos),
    List.getElem?_map, List.getElem?_reverse (by simpa using hpos), List.length_range, hlast,
    List.getElem?_range hm, Option.map_some]

/-- Settles O57: the target's word reaches device `mt` alone, and the no-op word of any other names no register. -/
theorem targetWritesOneDevice : Obligations.TargetWritesOneDevice := by
  intro s l address data hst hvalid hlen
  refine ⟨fun hl => targetCommands_eq_none hl address data, fun hl => ?_⟩
  obtain ⟨hl0, hln⟩ := (Cfg.hasModule_iff s.cfg l).mp hl
  obtain ⟨mt, hmt, hlt, hget⟩ := Cfg.chainAt_of_lt hvalid ((Int.toNat_lt hl0).mpr hln)
  obtain ⟨t, hrun, hmade⟩ := runCommands_bracketCommands hst hlen (sentWord_targetSend mt address data)
  refine ⟨mt, _, t, hget, targetCommands_eq_some hl hmt address data,
    (bracketCommands_getElem? hlt _).trans (congrArg some (if_pos rfl)), hrun, hmade.st, hmade.fb, hmade.fault,
    fun k a hk => ?_⟩
  rw [hmade.reg?_eq (hk.trans_eq hlen.symm)]
  by_cases hkt : k = mt
  · simp only [targetWord, hkt, if_true, true_and, wordAddress_busWord, wordData_busWord]
  · have hnoop : wordAddress (targetWord mt address data k) = 0 := by
      rw [targetWord, if_neg hkt, wordAddress_busWord]
      rfl
    rw [hnoop, if_neg (fun ha => ha.2 ha.1), if_neg (fun ha => hkt ha.1)]

/-! Broadcasts one after another. -/

/-- The commands of these broadcasts, each an address and its data, one after another. -/
def broadcasts (n : Nat) (steps : List (Nat × Nat)) : List Instr := steps.flatMap fun p => bcastCommands n p.1 p.2

/-- The device once it has committed the words of these broadcasts, the first one first. -/
def Device.afterBroadcasts (steps : List (Nat × Nat)) (d : Device) : Device :=
  steps.foldl (fun e p => e.commitWord (busWord p.1 p.2)) d

theorem runCommands_broadcasts {s : State} (hst : s.st = .idle) (hlen : s.chain.length = s.cfg.n)
    (steps : List (Nat × Nat)) :
    ∃ t, runCommands (broadcasts s.cfg.n steps) s = .next t ∧ t.fault = s.fault ∧
      ∀ k : Nat, t.chain[k]? = (s.chain[k]?).map (Device.afterBroadcasts steps) := by
  induction steps generalizing s with
  | nil => exact ⟨s, rfl, rfl, fun k => Option.map_id_apply.symm⟩
  | cons p rest ih =>
    obtain ⟨u, hrun, hmade⟩ := runCommands_bcastCommands hst hlen p.1 p.2
    obtain ⟨t, hrest, hfault, hdevices⟩ := ih hmade.st (by rw [hmade.length, hlen, hmade.cfg])
    refine ⟨t, ?_, hfault.trans hmade.fault, fun k => ?_⟩
    · rw [broadcasts, List.flatMap_cons, runCommands_append hrun, ← hrest, hmade.cfg, broadcasts]
    · rw [hdevices, hmade.devices, Option.map_map]
      rfl

/-- Control register `a` has been written since power-on and holds `v` (rule R36, log 4). -/
structure Device.Configured (d : Device) (a v : Nat) : Prop where
  written : d.written.has a = true
  holds : d.holds a v = true

theorem Device.commitWord_written_has (w : WireWord) (d : Device) (a : Nat) :
    (d.commitWord w).written.has a = (d.written.has a || decide (a = wordAddress w ∧ 9 ≤ a)) := by
  rw [wordAddress_eq]
  exact Device.latch_written_has (d.withWord w) a

theorem wordAddress_busWord_natCast {a : Nat} (ha : a ≤ 15) (data : Int) : wordAddress (busWord a data) = a := by
  rw [wordAddress_busWord, clamp_of_mem (by omega) (by omega), Int.toNat_natCast]

theorem toNat_wordData_busWord_natCast (address : Int) {v : Nat} (hv : v ≤ 255) :
    (wordData (busWord address v)).toNat = v := by
  rw [wordData_busWord, clamp_of_mem (by omega) (by omega), Int.toNat_natCast, BitVec.toNat_ofNat]
  omega

/-- The word of a broadcast configures its register. -/
theorem Device.configured_commitWord {a v : Nat} (ha9 : 9 ≤ a) (ha : a ≤ 15) (hv : v ≤ 255) (d : Device) :
    (d.commitWord (busWord a v)).Configured a v where
  written := by
    rw [Device.commitWord_written_has, wordAddress_busWord_natCast ha, decide_eq_true ⟨rfl, ha9⟩, Bool.or_true]
  holds := by
    rw [Device.holds, Device.commitWord_reg?, wordAddress_busWord_natCast ha, if_pos ⟨rfl, by omega⟩,
      Option.map_some, toNat_wordData_busWord_natCast _ hv, decide_eq_true rfl]

/-- A word for another register changes nothing of it. -/
theorem Device.Configured.commitWord {d : Device} {a v : Nat} (h : d.Configured a v) {w : WireWord}
    (hne : a ≠ wordAddress w) : (d.commitWord w).Configured a v where
  written := by rw [Device.commitWord_written_has, h.written, Bool.true_or]
  holds := by rw [Device.holds, Device.commitWord_reg?, if_neg fun ha => hne ha.1]; exact h.holds

/-- Nor do broadcasts to other registers. -/
theorem Device.Configured.afterBroadcasts {steps : List (Nat × Nat)} {d : Device} {a v : Nat} (h : d.Configured a v)
    (hregs : ∀ p ∈ steps, p.1 ≤ 15) (hne : a ∉ steps.map Prod.fst) : (d.afterBroadcasts steps).Configured a v := by
  induction steps generalizing d with
  | nil => exact h
  | cons p rest ih =>
    obtain ⟨hp, hregs⟩ := List.forall_mem_cons.mp hregs
    rw [List.map_cons, List.mem_cons, not_or] at hne
    exact ih (h.commitWord (by rw [wordAddress_busWord_natCast hp]; exact hne.1)) hregs hne.2

/-- Each step names a control register and a byte. -/
def ControlSteps (steps : List (Nat × Nat)) : Prop := ∀ p ∈ steps, 9 ≤ p.1 ∧ p.1 ≤ 15 ∧ p.2 ≤ 255

/-- Broadcasts to different control registers all take effect. -/
theorem Device.configured_afterBroadcasts {steps : List (Nat × Nat)} (hsteps : ControlSteps steps)
    (hnodup : (steps.map Prod.fst).Nodup) {a v : Nat} (hmem : (a, v) ∈ steps) (d : Device) :
    (d.afterBroadcasts steps).Configured a v := by
  induction steps generalizing d with
  | nil => cases hmem
  | cons p rest ih =>
    obtain ⟨⟨h9, h15, hv⟩, hrest⟩ := List.forall_mem_cons.mp hsteps
    obtain ⟨hfresh, hnodup⟩ := List.nodup_cons.mp hnodup
    rcases List.mem_cons.mp hmem with rfl | hmem
    · exact (Device.configured_commitWord h9 h15 hv d).afterBroadcasts (fun q hq => (hrest q hq).2.1) hfresh
    · exact ih hrest hnodup hmem _

/-! INIT. -/

/-- The five broadcasts of INIT (rule R194). -/
def initSteps (cfg : Cfg) : List (Nat × Nat) :=
  [(cfg.driver.regTest, cfg.driver.testOff), (cfg.driver.regShutdown, cfg.driver.operate),
    (cfg.driver.regScanlimit, cfg.driver.scanAll), (cfg.driver.regDecode, cfg.driver.decodeOff),
    (cfg.driver.regIntensity, cfg.intensity0.toNat)]

theorem startup_expand_eq {cfg : Cfg} (hi : 0 ≤ cfg.intensity0) :
    Pseudo.startup.expand cfg = some (broadcasts cfg.n (initSteps cfg)) := by
  simp [Pseudo.expand, startupSteps, broadcasts, initSteps, Int.toNat_of_nonneg hi]

theorem controlSteps_initSteps {cfg : Cfg} (hi : cfg.intensity0 ≤ 15) (hwf : cfg.driver.wellFormed = true) :
    ControlSteps (initSteps cfg) := by
  simp only [DriverParams.wellFormed, Bool.and_eq_true, List.all_eq_true, decide_eq_true_eq, List.forall_mem_cons]
    at hwf
  simp only [ControlSteps, initSteps, List.forall_mem_cons]
  obtain ⟨⟨⟨hdecode, hintensity, hscan, hshutdown, htest, -⟩, -⟩, hoff, hop, hall, hdoff, -⟩ := hwf
  refine ⟨⟨htest.1, htest.2, hoff⟩, ⟨hshutdown.1, hshutdown.2, hop⟩, ⟨hscan.1, hscan.2, hall⟩,
    ⟨hdecode.1, hdecode.2, hdoff⟩, ⟨hintensity.1, hintensity.2, by omega⟩, nofun⟩

/-- The five registers of INIT are those of the premise, in another order (log 7). -/
theorem nodup_initSteps {cfg : Cfg} (hwf : cfg.driver.wellFormed = true) : ((initSteps cfg).map Prod.fst).Nodup := by
  simp only [DriverParams.wellFormed, Bool.and_eq_true, decide_eq_true_eq] at hwf
  obtain ⟨⟨-, hnodup⟩, -⟩ := hwf
  exact (List.nodup_reverse.mpr hnodup).perm ((((List.Perm.swap _ _ []).cons _).cons _).cons _)

theorem Device.Configured.holdsIntensity {d : Device} {a v : Nat} (h : d.Configured a v) (hv : v ≤ 15) :
    d.holdsIntensity a = true := by
  have hreg := of_decide_eq_true h.holds
  obtain ⟨b, hb, rfl⟩ := Option.map_eq_some_iff.mp hreg
  rw [Device.holdsIntensity, hb]
  exact decide_eq_true hv

/-- A device configured by the five steps of INIT is in normal operation (rules R71, R194; log 4). -/
theorem Device.normalOperation_of_configured {cfg : Cfg} {d : Device} (hi : cfg.intensity0 ≤ 15)
    (h : ∀ a v, (a, v) ∈ initSteps cfg → d.Configured a v) : d.normalOperation cfg.driver = true := by
  have htest := h cfg.driver.regTest cfg.driver.testOff (by simp [initSteps])
  have hshutdown := h cfg.driver.regShutdown cfg.driver.operate (by simp [initSteps])
  have hscan := h cfg.driver.regScanlimit cfg.driver.scanAll (by simp [initSteps])
  have hdecode := h cfg.driver.regDecode cfg.driver.decodeOff (by simp [initSteps])
  have hintensity := h cfg.driver.regIntensity cfg.intensity0.toNat (by simp [initSteps])
  simp [Device.normalOperation, Device.controlsWritten, htest.written, htest.holds, hshutdown.written, hshutdown.holds,
    hscan.written, hscan.holds, hdecode.written, hdecode.holds, hintensity.written,
    hintensity.holdsIntensity (by omega)]

/-- Settles O58: every device commits the five words of INIT, each for a register of its own, so all five stand at the
end. -/
theorem startupLeavesNormalOperation : Obligations.StartupLeavesNormalOperation := by
  intro s hinv hst hwf
  obtain ⟨hi0, hi⟩ := hinv.intensity
  have hlen := hinv.chainLength (by simp [hst])
  obtain ⟨t, hrun, hfault, hdevices⟩ := runCommands_broadcasts hst hlen (initSteps s.cfg)
  refine ⟨_, t, startup_expand_eq hi0, hrun, hfault, fun d hd => ?_⟩
  obtain ⟨k, hk⟩ := List.mem_iff_getElem?.mp hd
  rw [hdevices, Option.map_eq_some_iff] at hk
  obtain ⟨e, -, rfl⟩ := hk
  have hset : ∀ a v, (a, v) ∈ initSteps s.cfg → (e.afterBroadcasts (initSteps s.cfg)).Configured a v :=
    fun a v hmem => Device.configured_afterBroadcasts (controlSteps_initSteps hi hwf) (nodup_initSteps hwf) hmem e
  refine ⟨Device.normalOperation_of_configured hi hset, ?_⟩
  have hintensity := hset s.cfg.driver.regIntensity s.cfg.intensity0.toNat (by simp [initSteps])
  obtain ⟨b, hb, hvalue⟩ := Option.map_eq_some_iff.mp (of_decide_eq_true hintensity.holds)
  rw [hb, Option.map_some, hvalue, Int.toNat_of_nonneg hi0]

/-! DRAWLINE. -/

@[simp] theorem length_linePoints (stepMajor stepMinor deltaMajor deltaMinor : Int) (count : Nat)
    (major minor e : Int) :
    (linePoints stepMajor stepMinor deltaMajor deltaMinor count major minor e).length = count := by
  induction count generalizing major minor e with
  | zero => rfl
  | succ count ih => rw [linePoints, List.length_cons, ih]

/-- One point for each step along the dominant axis, and the first one (rule R198). -/
theorem length_drawLinePoints (x0 y0 x1 y1 : Int) :
    (drawLinePoints x0 y0 x1 y1).length = max (x1 - x0).natAbs (y1 - y0).natAbs + 1 := by
  rw [drawLinePoints]
  split
  case isTrue hx => rw [length_linePoints, max_eq_left hx.le]
  case isFalse hx => rw [List.length_map, length_linePoints, max_eq_right (Nat.le_of_not_lt hx)]

/-- Where every point lies inside, none is skipped. -/
theorem drawLineCommands_of_inside {cfg : Cfg} {x0 y0 x1 y1 : Int} {points : List (Int × Int)}
    (hpoints : drawLinePoints x0 y0 x1 y1 = points) (hin : ∀ p ∈ points, cfg.hasPixel p.1 p.2 = true) :
    drawLineCommands cfg x0 y0 x1 y1 = points.map fun p => .setPixel p.1 p.2 true := by
  rw [drawLineCommands, hpoints, List.filter_eq_self.mpr hin]

/-- A valid configuration has at least one module, so the first tile is on the display (rule R22). -/
theorem Cfg.hasPixel_of_first_tile {cfg : Cfg} (h : cfg.valid = true) {x y : Int} (hx0 : 0 ≤ x) (hx : x < 8)
    (hy0 : 0 ≤ y) (hy : y < 8) : cfg.hasPixel x y = true := by
  obtain ⟨hc, hr, -⟩ := (Cfg.valid_iff cfg).mp h
  rw [Cfg.hasPixel_iff, Cfg.w, Cfg.h, Cfg.c, Cfg.r]
  omega

/-- Settles O60: the points outside are filtered out, and the two examples lie in the first tile. -/
theorem drawLineStaysInside : Obligations.DrawLineStaysInside := by
  intro cfg
  refine ⟨fun x0 y0 x1 y1 => ⟨fun i hi => ?_, ?_⟩, fun hvalid => ⟨?_, ?_⟩⟩
  · obtain ⟨p, hp, rfl⟩ := List.mem_map.mp hi
    exact ⟨p.1, p.2, rfl, (List.mem_filter.mp hp).2⟩
  · rw [drawLineCommands, List.length_map, ← length_drawLinePoints]
    exact List.length_filter_le _ _
  · exact drawLineCommands_of_inside (points := [(0, 0), (1, 0), (2, 0), (3, 0)]) (by decide)
      (by simp [Cfg.hasPixel_of_first_tile hvalid])
  · exact drawLineCommands_of_inside (points := [(0, 0)]) (by decide) (by simp [Cfg.hasPixel_of_first_tile hvalid])

end Sys2Proof.Machine

/-! The devices never answer (rules R33, R222): a run with the devices taken off the chain makes the same core, for a
line write without devices is the line write with them, devices left out. Two runs that differ in their devices alone
are thus compared with one run without any. -/

namespace Sys2Proof.Machine

/-- The state with no device on the chain. -/
def State.detached (s : State) : State := s.withChain []

/-- An answer with no device on the chain of its state. -/
def Result.detached : Result → Result
  | .next t => .next t.detached
  | .fault why => .fault why
  | .refused why => .refused why

@[simp] theorem State.detached_cfg (s : State) : s.detached.cfg = s.cfg := rfl
@[simp] theorem State.detached_st (s : State) : s.detached.st = s.st := rfl

theorem State.eq_withChain_of_detached_eq {s t : State} (h : t.detached = s.detached) : t = s.withChain t.chain :=
  show t.detached.withChain t.chain = s.detached.withChain t.chain by rw [h]

theorem Result.eq_next_of_detached {r : Result} {t : State} (h : r.detached = .next t) :
    ∃ u, r = .next u ∧ u.detached = t := by
  cases r with
  | next u =>
    injection h with h
    exact ⟨u, rfl, h⟩
  | fault | refused => cases h

theorem Result.eq_fault_of_detached {r : Result} {why : Fault} (h : r.detached = .fault why) : r = .fault why := by
  cases r with
  | fault =>
    cases h
    rfl
  | next | refused => cases h

/-! Line writes. -/

theorem reactTo_nil (l : Line) (old new data : Bool) : reactTo l old new data [] = [] :=
  List.eq_nil_of_length_eq_zero (length_reactTo l old new data [])

theorem State.drive_detached (s : State) (l : Line) (v : Bool) : s.detached.drive l v = (s.drive l v).detached :=
  congrArg (s.drive l v).withChain (reactTo_nil l (s.line.get l) v s.line.data)

theorem State.shiftBit_detached (s : State) (v : Bool) : s.detached.shiftBit v = (s.shiftBit v).detached := by
  simp only [State.shiftBit, State.drive_detached]

theorem State.shiftBits_detached (w : WireWord) (n : Nat) (s : State) :
    State.shiftBits w n s.detached = (State.shiftBits w n s).detached := by
  induction n generalizing s with
  | zero => rfl
  | succ n ih => rw [State.shiftBits, State.shiftBit_detached, ih, State.shiftBits]

theorem State.shiftWord_detached (s : State) (a : BitVec 4) (d : Byte) :
    s.detached.shiftWord a d = (s.shiftWord a d).detached := State.shiftBits_detached _ 16 s

theorem State.openBracket_detached (s : State) : s.detached.openBracket = s.openBracket.detached :=
  congrArg (State.withSt · .transferring) (s.drive_detached .sel selT)

theorem State.closeBracket_detached (s : State) : s.detached.closeBracket = s.closeBracket.detached :=
  congrArg (State.withSt · .idle) (s.drive_detached .sel selL)

theorem State.sendRowWords_detached (r n : Nat) (s : State) :
    State.sendRowWords r n s.detached = (State.sendRowWords r n s).detached := by
  induction n generalizing s with
  | zero => rfl
  | succ m ih =>
    rw [State.sendRowWords, State.shiftWord_detached, ih]
    rfl

theorem State.flushRow_detached (s : State) (r : Nat) : s.detached.flushRow r = (s.flushRow r).detached := by
  rw [State.flushRow, State.openBracket_detached, State.sendRowWords_detached, State.closeBracket_detached]
  rfl

theorem State.flushRowsOf_detached (rows : List Nat) (s : State) :
    rows.foldl State.flushRow s.detached = (rows.foldl State.flushRow s).detached :=
  List.foldl_hom State.detached fun s r => s.flushRow_detached r

/-! The guards and the stores. -/

theorem State.storeModules_detached (s : State) (rows : List Byte) (n : Nat) :
    s.detached.storeModules rows n = (s.storeModules rows n).map State.detached := by
  induction n with
  | zero => rfl
  | succ l ih =>
    rw [State.storeModules, ih, State.storeModules, State.detached_cfg]
    cases s.storeModules rows l with
    | none => rfl
    | some t => cases s.cfg.moduleToChain l <;> cases s.cfg.rotatedAt l <;> rfl

section Guards

variable {s : State}

theorem State.whenConfigured_detached {body body' : Result} (hbody : body' = body.detached) :
    s.detached.whenConfigured body' = (s.whenConfigured body).detached := by
  by_cases hc : s.st = .configError
  · rw [State.whenConfigured_of_eq hc, State.whenConfigured_of_eq (s := s.detached) hc]
    rfl
  · rw [State.whenConfigured_of_ne hc, State.whenConfigured_of_ne (s := s.detached) hc, hbody]

theorem State.whenBus_detached (required : BusState) {done done' : State} (hdone : done' = done.detached) :
    s.detached.whenBus required done' = (s.whenBus required done).detached := by
  refine State.whenConfigured_detached ?_
  rw [State.detached_st, hdone]
  split <;> rfl

theorem State.whenPixel_detached (x y : Int) {body body' : Place → Result}
    (hbody : ∀ p, body' p = (body p).detached) :
    s.detached.whenPixel x y body' = (s.whenPixel x y body).detached := by
  refine State.whenConfigured_detached ?_
  rw [State.detached_cfg]
  split
  · cases s.cfg.pixelToPhysical x.toNat y.toNat with
    | none => rfl
    | some p => exact hbody p
  · rfl

theorem State.whenModule_detached (l : Int) {body body' : Nat → Bool → Result}
    (hbody : ∀ m rot, body' m rot = (body m rot).detached) :
    s.detached.whenModule l body' = (s.whenModule l body).detached := by
  refine State.whenConfigured_detached ?_
  rw [State.detached_cfg]
  split
  · cases s.cfg.moduleToChain l.toNat with
    | none => rfl
    | some m =>
      cases s.cfg.rotatedAt l.toNat with
      | none => rfl
      | some rot => exact hbody m rot
  · rfl

theorem execSetModuleRows_detached (l : Int) (rows : List Byte) :
    execSetModuleRows l rows s.detached = (execSetModuleRows l rows s).detached := by
  refine State.whenConfigured_detached ?_
  split
  · exact State.whenModule_detached l fun _ _ => rfl
  · rfl

theorem execSetDisplayRows_detached (rows : List Byte) :
    execSetDisplayRows rows s.detached = (execSetDisplayRows rows s).detached := by
  refine State.whenConfigured_detached ?_
  rw [State.detached_cfg, State.storeModules_detached]
  split
  · cases s.storeModules rows s.cfg.n <;> rfl
  · rfl

end Guards

/-- An instruction makes the same core with no device on the chain (rules R7, R33, R222). -/
theorem exec_detached (i : Instr) (s : State) : exec i s.detached = Result.detached (exec i s) := by
  cases i with
  | beginTransfer => exact State.whenBus_detached _ s.openBracket_detached
  | sendWord | sendRow => exact State.whenBus_detached _ (s.shiftWord_detached _ _)
  | endTransfer => exact State.whenBus_detached _ s.closeBracket_detached
  | flush => exact State.whenBus_detached _ (State.flushRowsOf_detached _ s)
  | setPixel x y | invertPixel x y | getPixel x y => exact State.whenPixel_detached x y fun _ => rfl
  | clearDisplay => exact State.whenConfigured_detached rfl
  | clearModule l => exact State.whenModule_detached l fun _ _ => rfl
  | setModuleRows l rows => exact execSetModuleRows_detached l rows
  | setDisplayRows rows => exact execSetDisplayRows_detached rows
  | _ => rfl

theorem step_detached (s : State) : step s.detached = Result.detached (step s) := by
  have hfetch : s.detached.fetch = s.fetch := rfl
  rw [step, step, hfetch]
  cases s.fetch with
  | waiting | rejected => rfl
  | fetched i rest => exact exec_detached i (s.withInput rest)

/-! What is refused. -/

theorem State.whenConfigured_refused {s : State} {body : Result} {why : Refusal}
    (h : s.whenConfigured body = .refused why) : body = .refused why := by
  rw [State.whenConfigured] at h
  split at h
  · cases h
  · exact h

theorem State.whenBus_ne_refused (s : State) (required : BusState) (done : State) (why : Refusal) :
    s.whenBus required done ≠ .refused why := by
  intro h
  obtain ⟨t, ht⟩ := completes_whenBus (s := s) required done
  cases ht.symm.trans h

theorem State.whenPixel_refused {s : State} {x y : Int} {body : Place → Result} {why : Refusal}
    (h : s.whenPixel x y body = .refused why) : ∃ p, body p = .refused why := by
  have h := State.whenConfigured_refused h
  split at h
  · split at h
    · exact ⟨_, h⟩
    · cases h
  · cases h

theorem State.whenModule_refused {s : State} {l : Int} {body : Nat → Bool → Result} {why : Refusal}
    (h : s.whenModule l body = .refused why) : ∃ m rot, body m rot = .refused why := by
  have h := State.whenConfigured_refused h
  split at h
  · split at h
    · exact ⟨_, _, h⟩
    · cases h
  · cases h

/-- A command that exists is never refused, whatever the configuration (rule R116). -/
theorem exec_ne_refused {i : Instr} {s : State} (hbuilt : i.wellBuilt s.cfg.n = true) (why : Refusal) :
    exec i s ≠ .refused why := by
  intro h
  cases i with
  | beginTransfer | sendWord | sendRow | endTransfer | flush => exact State.whenBus_ne_refused _ _ _ _ h
  | setPixel | invertPixel | getPixel =>
    obtain ⟨p, hp⟩ := State.whenPixel_refused h
    cases hp
  | clearDisplay => cases State.whenConfigured_refused h
  | clearModule =>
    obtain ⟨m, rot, hbody⟩ := State.whenModule_refused h
    cases hbody
  | setModuleRows l rows =>
    have hmodule := (execSetModuleRows_of_length (eq_of_beq hbuilt) l s).symm.trans h
    obtain ⟨m, rot, hbody⟩ := State.whenModule_refused hmodule
    cases hbody
  | setDisplayRows rows =>
    have hbody := State.whenConfigured_refused h
    rw [if_pos (eq_of_beq hbuilt)] at hbody
    split at hbody <;> cases hbody
  | _ => cases h

/-- The decoder builds only commands that exist (rule R116), so no step is refused. -/
theorem step_ne_refused (s : State) (why : Refusal) : step s ≠ .refused why := by
  intro h
  rw [step] at h
  split at h
  · cases h
  · cases h
  · rename_i i rest hfetch
    obtain ⟨-, hdecode⟩ := State.fetch_fetched hfetch
    obtain ⟨hwf, -⟩ := encodeOfDecodeIsTheWords.1 _ _ _ _ hdecode
    obtain ⟨hbuilt, -⟩ := Bool.and_eq_true_iff.mp hwf
    exact exec_ne_refused (s := s.withInput rest) hbuilt why h

/-- Settles O53: both runs make the core of the run without devices. -/
theorem devicesNeverInfluenceTheCore : Obligations.DevicesNeverInfluenceTheCore := by
  intro s chain
  have hsame : Result.detached (step (s.withChain chain)) = Result.detached (step s) :=
    (step_detached (s.withChain chain)).symm.trans (step_detached s)
  refine ⟨fun t ht => ?_, fun why hwhy => ?_, step_ne_refused s⟩
  · obtain ⟨u, hu, hcore⟩ := Result.eq_next_of_detached (hsame.trans (congrArg Result.detached ht))
    exact ⟨u.chain, hu.trans (congrArg Host.Outcome.next (State.eq_withChain_of_detached_eq hcore))⟩
  · exact Result.eq_fault_of_detached (hsame.trans (congrArg Result.detached hwhy))

end Sys2Proof.Machine

/-! Faults: in `ConfigError` everything is refused (rule R212), a rejected command changes `FAULT` and its response only
(rule R216), each command raises only the faults of its row (rules R211, R219), coordinates and module indices outside
their range (rules R214, R215), and illegal words (rule R217). -/

namespace Sys2Proof.Machine

/-! Operands outside their range. -/

/-- Settles O36: each pixel command is its range check first. -/
theorem coordinatesOutsideAreRejected : Obligations.CoordinatesOutsideAreRejected :=
  fun _ _ _ _ hc hout => ⟨State.whenPixel_rejected hc hout _, State.whenPixel_rejected hc hout _,
    State.whenPixel_rejected hc hout _⟩

/-- Settles O37: each module command is its range check, SETMR once its eight bytes are there. -/
theorem moduleIndexOutsideIsRejected : Obligations.ModuleIndexOutsideIsRejected :=
  fun s l _ _ hc hlen hout => ⟨State.whenModule_rejected hc hout _,
    (execSetModuleRows_of_length hlen l s).trans (State.whenModule_rejected hc hout _)⟩

/-! `ConfigError`. -/

/-- In `ConfigError` every command is refused before it reads an operand (rules R212, R219). -/
theorem exec_of_configError {i : Instr} {s : State} (hst : s.st = .configError) (hi : isCommand i = true) :
    exec i s = .next (s.raise .configInvalid) := by
  cases i with
  | beginTransfer | sendWord | sendRow | endTransfer | flush | setPixel | invertPixel | getPixel | clearDisplay
  | clearModule | setModuleRows | setDisplayRows => exact State.whenConfigured_of_eq hst _
  | _ => cases hi

theorem step_of_rejected {s : State} {c : FaultCode} {rest : List CmdWord} (h : s.fetch = .rejected c rest) :
    step s = .next ((s.withInput rest).raise c) := by
  rw [step, h]

/-- Settles O38: reset with a rejected configuration is dead, and there each command and each word meets the one
refusal. -/
theorem configErrorRefusesEverything : Obligations.ConfigErrorRefusesEverything := by
  refine ⟨fun o ho => ?_, fun s hst => ⟨fun i hi => exec_of_configError hst hi, fun w rest hin => ?_⟩⟩
  · rw [State.resetWith_of_invalid ho]
    exact ⟨rfl, rfl⟩
  · exact step_of_rejected (State.fetch_configError hst hin)

/-! Precision. -/

theorem SameCore.respond_ne_err {s u : State} (h : SameCore s u) {r : Response} {c : FaultCode} (hr : r ≠ .err c) :
    (u.respond r).responses ≠ s.responses ++ [.err c] := by
  simpa [h.responses] using hr

theorem State.raise_of_responses {s : State} {c c' : FaultCode}
    (h : (s.raise c').responses = s.responses ++ [.err c]) : s.raise c' = s.raise c := by
  have hc : c' = c := by simpa using h
  rw [hc]

/-- An effect that answers `ERR(code)` is the rejection with that code. -/
theorem Effect.eq_raise {s t : State} {i : Instr} {c : FaultCode} (h : Effect s i t)
    (hresp : t.responses = s.responses ++ [.err c]) : t = s.raise c := by
  cases h with
  | raised => exact State.raise_of_responses hresp
  | opened => exact absurd hresp ((SameCore.openBracket s).respond_ne_err nofun)
  | sentWord | sentRow => exact absurd hresp ((SameCore.shiftWord s _ _).respond_ne_err nofun)
  | closed => exact absurd hresp ((SameCore.closeBracket s).respond_ne_err nofun)
  | flushed => exact absurd hresp ((SameCore.flushRows s).respond_ne_err nofun)
  | stored | viewed | committed => simp at hresp

/-- A step that answers `ERR(code)` takes its words from the stream and is the rejection with that code. -/
theorem step_eq_raise {s t : State} {c : FaultCode} (h : step s = .next t)
    (hresp : t.responses = s.responses ++ [.err c]) : ∃ rest, t = (s.withInput rest).raise c := by
  rcases step_next h with ⟨-, rfl⟩ | ⟨c', rest, -, rfl⟩ | ⟨i, rest, -, hexec⟩
  · simp at hresp
  · exact ⟨rest, State.raise_of_responses hresp⟩
  · exact ⟨rest, (exec_next hexec).eq_raise hresp⟩

/-- Settles O39: what answers an error is one rejection, and a rejection changes `FAULT` and the responses. -/
theorem faultsArePrecise : Obligations.FaultsArePrecise := by
  refine ⟨fun i s t c _ h hresp => (exec_next h).eq_raise hresp, fun s t c h hresp => ?_⟩
  obtain ⟨rest, rfl⟩ := step_eq_raise h hresp
  exact ⟨List.length_append, rfl⟩

/-! The answers of each command. -/

/-- The commands that need a bus state: BEGIN, SENDW, SENDR, END and FLUSH (rules R130, R218). -/
def Instr.UsesBus (i : Instr) : Prop :=
  i = .beginTransfer ∨ (sentWord i).isSome = true ∨ i = .endTransfer ∨ i = .flush

/-- The commands on the pixel `(x, y)` (rule R214). -/
def Instr.OnPixel (x y : Int) (i : Instr) : Prop :=
  (∃ on, i = .setPixel x y on) ∨ i = .invertPixel x y ∨ i = .getPixel x y

/-- The commands on the module `l` (rule R215). -/
def Instr.OnModule (l : Int) (i : Instr) : Prop :=
  (∃ on, i = .clearModule l on) ∨ ∃ rows, i = .setModuleRows l rows

/-- The responses a command can get in `s`, by the rows of rule R211 and in the order of checks of rule R219. -/
inductive Answer (s : State) : Instr → Response → Prop
  | dead {i : Instr} (hst : s.st = .configError) : Answer s i (.err .configInvalid)
  | busState {i : Instr} (hc : s.st ≠ .configError) (hi : Instr.UsesBus i) : Answer s i (.err .busState)
  | coordRange {i : Instr} (hc : s.st ≠ .configError) {x y : Int} (hout : s.cfg.hasPixel x y = false)
      (hi : Instr.OnPixel x y i) : Answer s i (.err .coordRange)
  | moduleRange {i : Instr} (hc : s.st ≠ .configError) {l : Int} (hout : s.cfg.hasModule l = false)
      (hi : Instr.OnModule l i) : Answer s i (.err .moduleRange)
  | done {i : Instr} (hc : s.st ≠ .configError) : Answer s i .ok
  | viewed (hc : s.st ≠ .configError) (x y : Int) (bit : Bool) : Answer s (.getPixel x y) (.val bit)

/-- From `s` to `t` one response was appended, and the command can get it. -/
def Answered (s : State) (i : Instr) (t : State) : Prop :=
  ∃ r, t.responses = s.responses ++ [r] ∧ Answer s i r

section Guards

variable {s t : State} {i : Instr}

theorem Answered.done {u : State} (hc : s.st ≠ .configError) (hu : u.responses = s.responses) :
    Answered s i (u.respond .ok) :=
  ⟨.ok, congrArg (· ++ [Response.ok]) hu, .done hc⟩

theorem Answered.of_whenConfigured {body : Result}
    (hbody : s.st ≠ .configError → body = .next t → Answered s i t) (h : s.whenConfigured body = .next t) :
    Answered s i t := by
  rcases State.whenConfigured_next h with ⟨hst, rfl⟩ | ⟨hc, h⟩
  · exact ⟨_, rfl, .dead hst⟩
  · exact hbody hc h

theorem Answered.of_whenBus {required : BusState} {done : State} (hi : Instr.UsesBus i)
    (hdone : done.responses = s.responses) (h : s.whenBus required done = .next t) : Answered s i t := by
  rcases State.whenBus_next h with ⟨hst, rfl⟩ | ⟨hc, -, rfl⟩ | ⟨hc, -, rfl⟩
  · exact ⟨_, rfl, .dead hst⟩
  · exact .done hc hdone
  · exact ⟨_, rfl, .busState hc hi⟩

theorem Answered.of_whenPixel {x y : Int} {body : Place → Result} (hi : Instr.OnPixel x y i)
    (hbody : ∀ p, s.st ≠ .configError → body p = .next t → Answered s i t) (h : s.whenPixel x y body = .next t) :
    Answered s i t := by
  rcases State.whenPixel_next h with ⟨hst, rfl⟩ | ⟨hc, hout, rfl⟩ | ⟨hc, -, p, -, h⟩
  · exact ⟨_, rfl, .dead hst⟩
  · exact ⟨_, rfl, .coordRange hc hout hi⟩
  · exact hbody p hc h

theorem Answered.of_whenModule {l : Int} {body : Nat → Bool → Result} (hi : Instr.OnModule l i)
    (hbody : ∀ m rot, s.st ≠ .configError → body m rot = .next t → Answered s i t)
    (h : s.whenModule l body = .next t) : Answered s i t := by
  rcases State.whenModule_next h with ⟨hst, rfl⟩ | ⟨hc, hout, rfl⟩ | ⟨hc, -, m, rot, -, -, h⟩
  · exact ⟨_, rfl, .dead hst⟩
  · exact ⟨_, rfl, .moduleRange hc hout hi⟩
  · exact hbody m rot hc h

theorem Answered.of_setModuleRows {l : Int} {rows : List Byte} (h : execSetModuleRows l rows s = .next t) :
    Answered s (.setModuleRows l rows) t := by
  refine .of_whenConfigured (fun _ h => ?_) h
  split at h
  · exact .of_whenModule (.inr ⟨rows, rfl⟩) (fun _ _ hc h => by cases h; exact .done hc rfl) h
  · cases h

theorem Answered.of_setDisplayRows {rows : List Byte} (h : execSetDisplayRows rows s = .next t) :
    Answered s (.setDisplayRows rows) t := by
  rcases execSetDisplayRows_next h with ⟨hst, rfl⟩ | ⟨hc, -, u, hu, rfl⟩
  · exact ⟨_, rfl, .dead hst⟩
  · rw [State.storeModules_eq hu]
    exact .done hc rfl

end Guards

/-- A command gets exactly one response, one that rule R211 gives it (rules R16, R105). -/
theorem exec_answered {i : Instr} {s t : State} (hi : isCommand i = true) (h : exec i s = .next t) :
    Answered s i t := by
  cases i with
  | beginTransfer => exact .of_whenBus (.inl rfl) (SameCore.openBracket s).responses h
  | sendWord | sendRow => exact .of_whenBus (.inr (.inl rfl)) (SameCore.shiftWord s _ _).responses h
  | endTransfer => exact .of_whenBus (.inr (.inr (.inl rfl))) (SameCore.closeBracket s).responses h
  | flush => exact .of_whenBus (.inr (.inr (.inr rfl))) (SameCore.flushRows s).responses h
  | setPixel x y on =>
    exact .of_whenPixel (.inl ⟨on, rfl⟩) (fun _ hc h => by cases h; exact .done hc rfl) h
  | invertPixel x y =>
    exact .of_whenPixel (.inr (.inl rfl)) (fun _ hc h => by cases h; exact .done hc rfl) h
  | getPixel x y =>
    exact .of_whenPixel (.inr (.inr rfl)) (fun _ hc h => by cases h; exact ⟨_, rfl, .viewed hc x y _⟩) h
  | clearDisplay => exact .of_whenConfigured (fun hc h => by cases h; exact .done hc rfl) h
  | clearModule l on =>
    exact .of_whenModule (.inl ⟨on, rfl⟩) (fun _ _ hc h => by cases h; exact .done hc rfl) h
  | setModuleRows => exact .of_setModuleRows h
  | setDisplayRows => exact .of_setDisplayRows h
  | _ => cases hi

/-- `ERR(1)` is the answer in `ConfigError` and nowhere else (rule R212). -/
theorem Answer.eq_configInvalid_iff {s : State} {i : Instr} {r : Response} (h : Answer s i r) :
    r = .err .configInvalid ↔ s.st = .configError := by
  cases h with
  | dead hst => simp [hst]
  | busState hc | coordRange hc | moduleRange hc | done hc | viewed hc => simp [hc]

/-- Settles O40: the responses a command can get, read off row by row. -/
theorem eachCommandRaisesOnlyItsOwnFaults : Obligations.EachCommandRaisesOnlyItsOwnFaults := by
  intro i s t hi h
  obtain ⟨r, hresp, hanswer⟩ := exec_answered hi h
  refine ⟨r, hresp, ?_, hanswer.eq_configInvalid_iff, ?_, ?_, ?_, ?_⟩
  · rintro bit rfl
    cases hanswer with | viewed _ x y => exact ⟨x, y, rfl⟩
  · rintro rfl
    cases hanswer
  · rintro rfl
    cases hanswer with | busState _ hi => exact hi
  · rintro rfl
    cases hanswer with | coordRange _ hout hi => exact ⟨_, _, hout, hi⟩
  · rintro rfl
    cases hanswer with | moduleRange _ hout hi => exact ⟨_, hout, hi⟩

end Sys2Proof.Machine

/-! Illegal words. -/

namespace Sys2Proof

theorem Header.toNat_op_ofWord (w : CmdWord) : (Header.ofWord w).op.toNat = w.toNat / 2 ^ 56 := by
  have hw := w.isLt
  rw [Header.ofWord, BitVec.extractLsb'_toNat, Nat.shiftRight_eq_div_pow]
  omega

/-- `plen` by the value of bits 63:56 (rules R104, R111). -/
theorem payloadWords_ofWord (n : Nat) (w : CmdWord) :
    payloadWords n (Header.ofWord w).op =
      if w.toNat / 2 ^ 56 = 0x1A then 1 else if w.toNat / 2 ^ 56 = 0x1B then n else 0 := by
  simp only [payloadWords, BitVec.toNat_eq, Header.toNat_op_ofWord, BitVec.toNat_ofNat, Nat.reducePow, Nat.reduceMod]

/-- An illegal word is consumed with the payload its `op` calls for (rules R111, R217). -/
theorem decode_eq_illegal {n : Nat} {w : CmdWord} {payload : List CmdWord} {why : IllegalReason}
    (hlen : payload.length = payloadWords n (Header.ofWord w).op)
    (hbad : decodeHeader (Header.ofWord w) payload = .error why) (rest : List CmdWord) :
    decode n (w :: (payload ++ rest)) = .illegal why rest := by
  dsimp only [decode]
  rw [if_neg (by simp [hlen]), List.take_left' hlen, List.drop_left' hlen, hbad]

/-- A word that matches no row of the opcode table is illegal (rules R106, R110, R113). -/
theorem exists_decodeHeader_eq_error {w : CmdWord} (hrows : ∀ row ∈ Machine.commandRows, w &&& row.2 ≠ row.1)
    (payload : List CmdWord) : ∃ why, decodeHeader (Header.ofWord w) payload = .error why := by
  cases hd : decodeHeader (Header.ofWord w) payload with
  | error why => exact ⟨why, rfl⟩
  | ok i =>
    obtain ⟨row, hrow, hmatch⟩ := (legalHeadersAreTheTableRows w payload).mp ⟨i, hd⟩
    exact absurd hmatch (hrows row hrow)

end Sys2Proof

namespace Sys2Proof.Machine

/-- Settles O46: the decoder finds an illegal word there, and a step rejects it. -/
theorem illegalWordsAreConsumedAndRejected : Obligations.IllegalWordsAreConsumedAndRejected := by
  intro s w payload rest hc hin hlen hrows
  obtain ⟨why, hbad⟩ := exists_decodeHeader_eq_error hrows payload
  have hdecode : decode s.cfg.n s.input = .illegal why rest := by
    rw [hin]
    exact decode_eq_illegal (hlen.trans (payloadWords_ofWord _ w).symm) hbad rest
  have hfetch : s.fetch = .rejected .illegalCommand rest := by
    rw [State.fetch_of_decode hc, hdecode]
  exact step_of_rejected hfetch

end Sys2Proof.Machine

/-! Reset and INIT's first four brackets: without a word for the intensity register the record of what has been written
(log 4) shows INIT not done, and what an LED shows is the free value (rules R36, R243). -/

namespace Sys2Proof.Machine

/-- After reset nothing has been written to any device, whether the configuration is accepted or not (rule R36). -/
theorem State.resetWith_written {o : Offered} {d : Device} (hd : d ∈ (State.resetWith o).chain) :
    d.written = ControlsWritten.none := by
  cases h : o.normalise.valid with
  | true =>
    rw [State.resetWith_of_valid h] at hd
    obtain ⟨k, -, rfl⟩ := List.mem_map.mp hd
    rfl
  | false =>
    rw [State.resetWith_of_invalid h] at hd
    cases hd

/-- A device whose intensity register has not been written is not in normal operation (rule R243). -/
theorem Device.normalOperation_of_intensity_unwritten {p : DriverParams} {d : Device}
    (h : d.written.has p.regIntensity = false) : d.normalOperation p = false :=
  Device.normalOperation_unwritten (by rw [Device.controlsWritten, h, Bool.and_false])

/-- No list of instructions changes the configuration (rule R9). -/
theorem runCommands_cfg_eq {commands : List Instr} {s t : State} (hrun : runCommands commands s = .next t) :
    t.cfg = s.cfg := by
  induction commands generalizing s with
  | nil => cases hrun; rfl
  | cons i rest ih =>
    rw [runCommands] at hrun
    split at hrun
    case h_1 u hexec => exact (ih hrun).trans (exec_next hexec).cfg_eq
    all_goals cases hrun

/-- Broadcasts to other registers leave the mark of register `a` (log 4). -/
theorem Device.afterBroadcasts_written_has {steps : List (Nat × Nat)} {a : Nat} (hregs : ∀ p ∈ steps, p.1 ≤ 15)
    (hne : a ∉ steps.map Prod.fst) (d : Device) : (d.afterBroadcasts steps).written.has a = d.written.has a := by
  induction steps generalizing d with
  | nil => rfl
  | cons p rest ih =>
    obtain ⟨hp, hregs⟩ := List.forall_mem_cons.mp hregs
    rw [List.map_cons, List.mem_cons, not_or] at hne
    obtain ⟨hother, hne⟩ := hne
    have hfirst : (d.commitWord (busWord p.1 p.2)).written.has a = d.written.has a := by
      rw [Device.commitWord_written_has, wordAddress_busWord_natCast hp, decide_eq_false fun h => hother h.1,
        Bool.or_false]
    exact (ih hregs hne _).trans hfirst

/-- The first four brackets of INIT are its broadcasts without the last (rule R194). -/
theorem startupSteps_eq (cfg : Cfg) : startupSteps cfg = broadcasts cfg.n ((initSteps cfg).take 4) := by
  simp [startupSteps, broadcasts, initSteps]

theorem initSteps_register_le {cfg : Cfg} (hwf : cfg.driver.wellFormed = true) : ∀ p ∈ initSteps cfg, p.1 ≤ 15 := by
  simp only [DriverParams.wellFormed, Bool.and_eq_true, List.all_eq_true, decide_eq_true_eq, List.forall_mem_cons]
    at hwf
  obtain ⟨⟨⟨hdecode, hintensity, hscan, hshutdown, htest, -⟩, -⟩, -⟩ := hwf
  simp only [initSteps, List.forall_mem_cons]
  exact ⟨htest.2, hshutdown.2, hscan.2, hdecode.2, hintensity.2, nofun⟩

/-- The intensity register comes last in INIT and is none of the four before (rule R194, log 7). -/
theorem regIntensity_not_mem_startupSteps {cfg : Cfg} (hwf : cfg.driver.wellFormed = true) :
    cfg.driver.regIntensity ∉ ((initSteps cfg).take 4).map Prod.fst := fun hmem => by
  have hsplit : (initSteps cfg).map Prod.fst = ((initSteps cfg).take 4).map Prod.fst ++ [cfg.driver.regIntensity] := rfl
  have hnodup := hsplit ▸ nodup_initSteps hwf
  exact List.disjoint_of_nodup_append hnodup hmem (List.mem_singleton_self _)

/-- Settles O59: at reset nothing is written, and the four brackets write four registers, none of them the intensity. -/
theorem displayIsUndescribedUntilStartupIsDone : Obligations.DisplayIsUndescribedUntilStartupIsDone := by
  refine ⟨fun o d hd => ?_, fun s hst hlen hwf hunwritten => ?_⟩
  · have hnone := State.resetWith_written hd
    exact ⟨hnone, fun p => Device.normalOperation_of_intensity_unwritten (by rw [hnone, ControlsWritten.none_has])⟩
  · obtain ⟨t, hrun, -, hdevices⟩ := runCommands_broadcasts hst hlen ((initSteps s.cfg).take 4)
    refine ⟨t, startupSteps_eq s.cfg ▸ hrun, fun k r b hk hr hb => ?_⟩
    have hk' : k < s.chain.length := hk.trans_eq hlen.symm
    have hd : t.chain[k]? = some (s.chain[k].afterBroadcasts ((initSteps s.cfg).take 4)) := by
      rw [hdevices, List.getElem?_eq_getElem hk', Option.map_some]
    refine State.ledLit_undescribed hd hr hb ?_
    rw [runCommands_cfg_eq hrun]
    refine Device.normalOperation_of_intensity_unwritten ?_
    rw [Device.afterBroadcasts_written_has (fun p hp => initSteps_register_le hwf p (List.mem_of_mem_take hp))
      (regIntensity_not_mem_startupSteps hwf)]
    exact hunwritten _ (List.getElem_mem hk')

end Sys2Proof.Machine

/-! The words of the spec's test vectors (95_test_vectors.md, rule R102). -/

namespace Sys2Proof

/-- The words of a well-formed command, with nothing after them, decode to the command (rules R110, R116). -/
theorem decode_words {n : Nat} {i : Instr} {words : List CmdWord} (hwords : encode i = .cmd64 words)
    (hwf : i.wellFormed n = true) : decode n words = .command i [] :=
  words.append_nil ▸ decode_encode hwf hwords []

/-- Settles O47: six of the words are what the encoder writes for their commands and the wire word is the code of its
instruction, so decoding gives these back; the other word has a must-be-zero field that is not zero. -/
theorem specWordsDecode : Obligations.SpecWordsDecode := by
  have hsendWordBad : decode 1 [0x0202000900000000#64] = .illegal .mustBeZero [] :=
    decode_eq_illegal (payload := []) rfl rfl []
  have hwire : decodeWire 0x0C01#16 = .wShutdown 0 1 := decodeWire_encode rfl
  exact ⟨decode_words rfl rfl, decode_words rfl rfl, decode_words rfl rfl, decode_words rfl rfl, decode_words rfl rfl,
    decode_words rfl rfl, hsendWordBad, hwire⟩

end Sys2Proof
